-- ==== Sys2Proof/Word.lean ====
section
/-! DEFINITION. The word types of the block: bytes, register addresses, 32-bit results, 64-bit
commands, and the fixed-length byte vectors of the ports. -/

namespace Sys2Proof

/-- One byte (R9: a register is one byte). -/
abbrev Byte := BitVec 8

/-- A register address, "an 8-bit identifier naming one byte-wide storage location" (R9, R41). -/
abbrev Addr := BitVec 8

/-- A 32-bit word: the operand `W`, the result `R32`, or the bit pattern of a binary32 (R25, R62). -/
abbrev Word32 := BitVec 32

/-- A command word `CMD` (R60). -/
abbrev Command := BitVec 64

/-- Eight bytes: the field-value vectors `OV` and `RV` (R24, R25). -/
abbrev Bytes8 := Vector (BitVec 8) 8

/-- Sixteen bytes: the lookup-table images `OBUF` and `RBUF` (R24, R25). -/
abbrev Bytes16 := Vector (BitVec 8) 16

end Sys2Proof
end

