-- ==== Sys2Proof/Syntax.lean ====
section
/-! DEFINITION. The 23 operations of the opcode map (R63), each with its assembled operands (R62).
Operand ports (`OV`, `OBUF`) are state, not operands of the instruction. -/

namespace Sys2Proof

/-- One operation of R63 with the operands its rule assembles from the command word. -/
inductive Instr where
  | bfDecode (ls b : BitVec 8)          -- 0x01 BF_DECODE Ls, B8 (R103)
  | bfEncode (ls : BitVec 8)            -- 0x02 BF_ENCODE Ls, OV (R104)
  | tachToRpm (t : BitVec 16)           -- 0x10 TACH_TO_RPM W16 (R123)
  | rpmToTach (r : BitVec 32)           -- 0x11 RPM_TO_TACH W32 (R124)
  | tempDecode (msb lsb : BitVec 8)     -- 0x20 TEMP_DECODE A8, B8 (R142)
  | tempEncode (v : BitVec 32)          -- 0x21 TEMP_ENCODE WF (R145)
  | ltempDecode (whole frac : BitVec 8) -- 0x22 LTEMP_DECODE A8, B8 (R149)
  | ltempEncode (v : BitVec 32)         -- 0x23 LTEMP_ENCODE WF (R151)
  | lutRead                             -- 0x30 LUT_READ (R171)
  | lutWrite                            -- 0x31 LUT_WRITE OBUF (R172)
  | lutHystRead                         -- 0x32 LUT_HYST_READ (R174)
  | lutHystWrite (b : BitVec 8)         -- 0x33 LUT_HYST_WRITE A8 (R175)
  | fanSpeedGet                         -- 0x40 FAN_SPEED_GET (R191)
  | fanSpeedSet (speed : BitVec 8)      -- 0x41 FAN_SPEED_SET A8 (R192)
  | intLimitSet (v : BitVec 32)         -- 0x42 INT_LIMIT_SET WF (R193)
  | extTempRead                         -- 0x43 EXT_TEMP_READ (R196)
  | fanRpmGet                           -- 0x44 FAN_RPM_GET (R197)
  | minRpmGet                           -- 0x45 MIN_RPM_GET (R198)
  | minRpmSet (r : BitVec 32)           -- 0x46 MIN_RPM_SET W32 (R199)
  | regRead (a : BitVec 8)              -- 0x50 REG_READ A8 (R220)
  | regWrite (a b : BitVec 8)           -- 0x51 REG_WRITE A8, B8 (R221)
  | resetDefaults                       -- 0x52 RESET_DEFAULTS (R222)
  | validate                            -- 0x53 VALIDATE (R223)
  deriving DecidableEq, Repr

end Sys2Proof
end

