-- ==== Sys2Proof/Decode.lean ====
section
/-! DEFINITION. The command format C64 (R60, R62), its decoder, which rejects by name (R64), and its
encoder, both written from the opcode map (R63). -/

namespace Sys2Proof

/-! ## Fields of the command word (R60) -/

/-- `OP = CMD[7:0]`. -/
def cmdOp (w : BitVec 64) : BitVec 8 := w.extractLsb' 0 8

/-- `A = CMD[15:8]`: the operand forms `A8` and `Ls` (R62). -/
def cmdA (w : BitVec 64) : BitVec 8 := w.extractLsb' 8 8

/-- `B = CMD[23:16]`: the operand form `B8` (R62). -/
def cmdB (w : BitVec 64) : BitVec 8 := w.extractLsb' 16 8

/-- `RSV = CMD[31:24]`. -/
def cmdRsv (w : BitVec 64) : BitVec 8 := w.extractLsb' 24 8

/-- `W = CMD[63:32]`: the operand forms `W32` and `WF` (R62). -/
def cmdW (w : BitVec 64) : BitVec 32 := w.extractLsb' 32 32

/-- `CMD[47:32]`: the operand form `W16` (R62); `CMD[63:48]` is ignored. -/
def cmdW16 (w : BitVec 64) : BitVec 16 := w.extractLsb' 32 16

/-! ## Decoding -/

/-- Why a word is no command (R64). -/
inductive DecodeError where
  | reservedBits       -- `CMD[31:24] ≠ 0x00`
  | zeroOpcode         -- `OP = 0x00`
  | extensionOpcode    -- OP in 0xE0 to 0xFF, "reserved for extensions"
  | unknownOpcode      -- any other OP that is not in R63
  | wrongLength        -- not eight bytes (R61: every command is exactly 64 bits)
  deriving DecidableEq, Repr

/-- The operation an opcode selects (R63), with its operands from the word. -/
def decodeOp (w : BitVec 64) : Except DecodeError Instr :=
  match cmdOp w with
  | 0x01#8 => .ok (.bfDecode (cmdA w) (cmdB w))
  | 0x02#8 => .ok (.bfEncode (cmdA w))
  | 0x10#8 => .ok (.tachToRpm (cmdW16 w))
  | 0x11#8 => .ok (.rpmToTach (cmdW w))
  | 0x20#8 => .ok (.tempDecode (cmdA w) (cmdB w))
  | 0x21#8 => .ok (.tempEncode (cmdW w))
  | 0x22#8 => .ok (.ltempDecode (cmdA w) (cmdB w))
  | 0x23#8 => .ok (.ltempEncode (cmdW w))
  | 0x30#8 => .ok .lutRead
  | 0x31#8 => .ok .lutWrite
  | 0x32#8 => .ok .lutHystRead
  | 0x33#8 => .ok (.lutHystWrite (cmdA w))
  | 0x40#8 => .ok .fanSpeedGet
  | 0x41#8 => .ok (.fanSpeedSet (cmdA w))
  | 0x42#8 => .ok (.intLimitSet (cmdW w))
  | 0x43#8 => .ok .extTempRead
  | 0x44#8 => .ok .fanRpmGet
  | 0x45#8 => .ok .minRpmGet
  | 0x46#8 => .ok (.minRpmSet (cmdW w))
  | 0x50#8 => .ok (.regRead (cmdA w))
  | 0x51#8 => .ok (.regWrite (cmdA w) (cmdB w))
  | 0x52#8 => .ok .resetDefaults
  | 0x53#8 => .ok .validate
  | op =>
    if op = 0x00#8 then .error .zeroOpcode
    else if 0xE0 ≤ op.toNat then .error .extensionOpcode
    else .error .unknownOpcode

/-- The decoder (R63, R64): an opcode selects its operation when `CMD[31:24] = 0x00`. Total on words. -/
def decode (w : BitVec 64) : Except DecodeError Instr :=
  if cmdRsv w = 0x00#8 then decodeOp w else .error .reservedBits

/-- Byte k of a command is `CMD[8k+7:8k]` (R60). -/
def cmdBytes (w : BitVec 64) : List (BitVec 8) :=
  (List.range 8).map fun k => w.extractLsb' (8 * k) 8

/-- The word whose bytes, lowest first, are the given ones (R60). -/
def cmdOfBytes (bs : List (BitVec 8)) : BitVec 64 :=
  BitVec.ofNat 64 (bs.foldr (fun b n => b.toNat + 256 * n) 0)

/-- The decoder on bytes, total on any list of them (R60, R61). -/
def decodeBytes (bs : List (BitVec 8)) : Except DecodeError Instr :=
  if bs.length = 8 then decode (cmdOfBytes bs) else .error .wrongLength

/-- The word of a table row: the low `nbits` bits are `w`'s, the rest are 0. -/
def tableWord (nbits w : Nat) : BitVec 64 := BitVec.ofNat 64 (w % 2 ^ nbits)

/-- What the decoder reads from a table row's word, laid out as bytes. -/
def decodeTableWord (nbits w : Nat) : Option Instr :=
  match decodeBytes (cmdBytes (tableWord nbits w)) with
  | .ok i => some i
  | .error _ => none

/-! ## Encoding -/

/-- A command word from its fields (R60), with RSV = 0x00. -/
def pack (op a b : BitVec 8) (w : BitVec 32) : BitVec 64 :=
  w ++ (0#8 ++ (b ++ (a ++ op)) : BitVec 32)

/-- The opcode of an operation (R63). -/
def Instr.opcode : Instr → BitVec 8
  | .bfDecode _ _ => 0x01#8
  | .bfEncode _ => 0x02#8
  | .tachToRpm _ => 0x10#8
  | .rpmToTach _ => 0x11#8
  | .tempDecode _ _ => 0x20#8
  | .tempEncode _ => 0x21#8
  | .ltempDecode _ _ => 0x22#8
  | .ltempEncode _ => 0x23#8
  | .lutRead => 0x30#8
  | .lutWrite => 0x31#8
  | .lutHystRead => 0x32#8
  | .lutHystWrite _ => 0x33#8
  | .fanSpeedGet => 0x40#8
  | .fanSpeedSet _ => 0x41#8
  | .intLimitSet _ => 0x42#8
  | .extTempRead => 0x43#8
  | .fanRpmGet => 0x44#8
  | .minRpmGet => 0x45#8
  | .minRpmSet _ => 0x46#8
  | .regRead _ => 0x50#8
  | .regWrite _ _ => 0x51#8
  | .resetDefaults => 0x52#8
  | .validate => 0x53#8

/-- The command word of an operation (R60, R62, R63); fields it does not use are 0 (R65 allows any). -/
def encode : Instr → BitVec 64
  | .bfDecode ls b => pack 0x01#8 ls b 0#32
  | .bfEncode ls => pack 0x02#8 ls 0#8 0#32
  | .tachToRpm t => pack 0x10#8 0#8 0#8 (0#16 ++ t)
  | .rpmToTach r => pack 0x11#8 0#8 0#8 r
  | .tempDecode msb lsb => pack 0x20#8 msb lsb 0#32
  | .tempEncode v => pack 0x21#8 0#8 0#8 v
  | .ltempDecode whole frac => pack 0x22#8 whole frac 0#32
  | .ltempEncode v => pack 0x23#8 0#8 0#8 v
  | .lutRead => pack 0x30#8 0#8 0#8 0#32
  | .lutWrite => pack 0x31#8 0#8 0#8 0#32
  | .lutHystRead => pack 0x32#8 0#8 0#8 0#32
  | .lutHystWrite b => pack 0x33#8 b 0#8 0#32
  | .fanSpeedGet => pack 0x40#8 0#8 0#8 0#32
  | .fanSpeedSet speed => pack 0x41#8 speed 0#8 0#32
  | .intLimitSet v => pack 0x42#8 0#8 0#8 v
  | .extTempRead => pack 0x43#8 0#8 0#8 0#32
  | .fanRpmGet => pack 0x44#8 0#8 0#8 0#32
  | .minRpmGet => pack 0x45#8 0#8 0#8 0#32
  | .minRpmSet r => pack 0x46#8 0#8 0#8 r
  | .regRead a => pack 0x50#8 a 0#8 0#32
  | .regWrite a b => pack 0x51#8 a b 0#32
  | .resetDefaults => pack 0x52#8 0#8 0#8 0#32
  | .validate => pack 0x53#8 0#8 0#8 0#32

end Sys2Proof
end

