-- ==== Sys2Proof/Config.lean ====
section
/-! DEFINITION. The configuration record `Cfg` (R7, R8, R28): the source's literals with their
values as defaults, the OPEN parameters, and the free values (draws) that have no body. -/

namespace Sys2Proof

/-! ## The source's literals (R7, decision D43) -/

/-- The literals the source states, each "a `Cfg` field with the document's value as its default"
(R7, D43). Binary32 values are bit patterns; weights are in hundredths of a degree. -/
structure Literals where
  tachDivisor : Nat := 5400000            -- `TACH_DIVISOR`
  tachMax : Nat := 65535                  -- `TACH_MAX`
  lutEntries : Nat := 8                   -- `LUT_ENTRIES`
  lutStride : Nat := 2                    -- `LUT_STRIDE`
  lutTempMax : Byte := 85#8               -- `LUT_TEMP_MAX`
  lutSpeedMax : Byte := 0x63#8            -- `LUT_SPEED_MAX`
  fanSpeedMax : Byte := 32#8              -- `FAN_SPEED_MAX`
  intLimitMin : Word32 := 0x00000000#32   -- `INT_LIMIT_MIN`, f32(0.0)
  intLimitMax : Word32 := 0x42AA0000#32   -- `INT_LIMIT_MAX`, f32(85.0)
  tempMin : Word32 := 0xC2800000#32       -- `TEMP_MIN`, f32(-64.0)
  tempMax : Word32 := 0x42FF8000#32       -- `TEMP_MAX`, f32(127.75)
  sentinelMsb : Byte := 0x7F#8            -- `SENTINEL_MSB`
  openLsb : Byte := 0x00#8                -- `OPEN_LSB`
  shortLsb : Byte := 0xE0#8               -- `SHORT_LSB`
  legacyWeight7 : Nat := 50               -- `LEGACY_WEIGHTS`, 0.50
  legacyWeight6 : Nat := 25               -- 0.25
  legacyWeight5 : Nat := 15               -- 0.15
  legacyThreshold7 : Word32 := 0x3EE147AE#32   -- `LEGACY_THRESHOLDS`, f32(0.44)
  legacyThreshold6 : Word32 := 0x3E428F5C#32   -- f32(0.19)
  legacyThreshold5 : Word32 := 0x3D8F5C29#32   -- f32(0.07)
  convRateCodes : Nat := 16               -- `CONV_RATE_CODES`
  settleMs : Word32 := 50#32              -- `SETTLE_MS`
  deriving DecidableEq, Repr

/-- The literals at the values the source states (R7). -/
def Literals.source : Literals := {}

/-! ## Register attributes and byte pairs (R29, R45) -/

/-- `ATTR` of an address (R8, R29). -/
inductive Attr where
  | ro        -- read-only: identification, live sensor, status
  | rw        -- read-write: configuration
  | unmapped  -- holds nothing
  deriving DecidableEq, Repr

/-- The three byte pairs of R45. -/
inductive Pair where
  | extTemp
  | tach
  | tachLimit
  deriving DecidableEq, Repr

/-- `PAIR_ORDER(p)` (R8): which byte of the pair is accessed first. -/
inductive PairOrder where
  | hiFirst
  | loFirst
  deriving DecidableEq, Repr

/-- The OPEN parameters of one byte pair: its two addresses, `PAIR_ORDER` and `LATCHING` (R8, R45). -/
structure PairCfg where
  hi : Addr
  lo : Addr
  order : PairOrder
  latching : Bool
  deriving DecidableEq, Repr

/-! ## Layout descriptors (R101) -/

/-- The field names R101 requires by name, and any other. -/
inductive FieldName where
  | standby
  | lutCtrl
  | rate
  | strength
  | duration
  | other (n : Nat)
  deriving DecidableEq, Repr

/-- `Kind` of a field (R101). -/
inductive FieldKind where
  | bool
  | raw
  | enum (codes : List Nat) (fallback : Nat)   -- `Enum{R, fb}`
  deriving DecidableEq, Repr

/-- `Field` (R101): bits `lo + w - 1 .. lo` of the byte. -/
structure BitField where
  name : FieldName
  lo : Nat
  w : Nat
  kind : FieldKind
  deriving DecidableEq, Repr

/-- `Layout` (R101): the fields in a fixed order, and the always-set bits. -/
structure Layout where
  fields : List BitField
  forced : Byte
  deriving DecidableEq, Repr

/-- A conversion rate, `num / den` conversions per second (R108). -/
structure Rate where
  num : Nat
  den : Nat
  deriving DecidableEq, Repr

/-! ## The configuration record -/

/-- `Cfg` (R7, R8). Every field is fixed for a run; no operation writes one (R28). -/
structure Cfg where
  devAddr : Nat                     -- `DEV_ADDR`
  devAddrValid : List Nat           -- `DEV_ADDR_VALID`
  config : Addr                     -- `ADDR_CONFIG`
  alertMask : Addr                  -- `ADDR_ALERT_MASK`
  convRate : Addr                   -- `ADDR_CONV_RATE`
  fanConfig : Addr                  -- `ADDR_FAN_CONFIG`
  spinUp : Addr                     -- `ADDR_SPIN_UP`
  avgFilter : Addr                  -- `ADDR_AVG_FILTER`
  betaComp : Addr                   -- `ADDR_BETA_COMP`
  fanSetting : Addr                 -- `ADDR_FAN_SETTING`
  lutBase : Addr                    -- `ADDR_LUT_BASE`
  lutHyst : Addr                    -- `ADDR_LUT_HYST`
  intHighLimit : Addr               -- `ADDR_INT_HIGH_LIMIT`
  oneShot : Addr                    -- `ADDR_ONE_SHOT`
  extTemp : PairCfg                 -- `ADDR_EXT_TEMP_HI`, `ADDR_EXT_TEMP_LO`
  tach : PairCfg                    -- `ADDR_TACH_HI`, `ADDR_TACH_LO`
  tachLimit : PairCfg               -- `ADDR_TACH_LIMIT_HI`, `ADDR_TACH_LIMIT_LO`
  attr : List (BitVec 8 × Attr)     -- `ATTR`; an address not listed is UNMAPPED
  defaults : List (BitVec 8 × BitVec 8)   -- `DEFAULTS`, in list order
  layoutConfig : Layout             -- `LAYOUT(CONFIG)`, id 0
  layoutAlertMask : Layout          -- `LAYOUT(ALERT_MASK)`, id 1
  layoutConvRate : Layout           -- `LAYOUT(CONV_RATE)`, id 2
  layoutFanConfig : Layout          -- `LAYOUT(FAN_CONFIG)`, id 3
  layoutSpinUp : Layout             -- `LAYOUT(SPIN_UP)`, id 4
  layoutAvgFilter : Layout          -- `LAYOUT(AVG_FILTER)`, id 5
  layoutBetaComp : Layout           -- `LAYOUT(BETA_COMP)`, id 6
  standbyBit : Fin 8                -- `STANDBY_BIT`
  lutCtrlBit : Fin 8                -- `LUT_CTRL_BIT`
  lutCtrlActive : Bool              -- `LUT_CTRL_ACTIVE`
  alertForced : Byte                -- `ALERT_FORCED`
  convRateKmax : Nat                -- `CONV_RATE_KMAX`
  convRateTable : List Rate         -- `CONV_RATE_TABLE`
  oneShotValue : Byte               -- `ONE_SHOT_VALUE`
  lit : Literals := {}              -- the literals of R7
  deriving DecidableEq, Repr

/-! ## Free values (draws) -/

/-- What the environment answers to one bus transaction: the draws of R42 and R43. -/
structure BusAnswer where
  fails : Bool      -- `transaction_fails(draw)`
  byte : Byte       -- `draw_u8(a)`: the byte an RO register gives
  second : Byte     -- `draw_u8_second(p, v)`: the other byte of the same sample
  takesNew : Bool   -- `draw_choice{REG[a], v}`: whether the new byte v is held
  deriving DecidableEq, Repr, Inhabited

/-- The n-th bus answer, where the environment's list holds none (R42, R43, R52; entry 8): a free value. -/
opaque Config.freeAnswer : Nat → BusAnswer

/-- The sign of the n-th NaN pattern (R73, R153; entry 9): a free value. -/
opaque Config.freeNaNSign : Nat → Bool

/-- The payload of the n-th NaN pattern (R73, R153; entry 9): a free value. -/
opaque Config.freeNaNPayload : Nat → BitVec 23

end Sys2Proof
end

