-- ==== Sys2Proof/Machine/LaunchCfg.lean ====
section
/-! DEFINITION. `Cfg_T` of 95_test_vectors.md §0: "a hypothetical configuration used only in this file"
that "makes no claim about the chip". The host's interface asks for one closed `State.reset`, so the
reset state carries this configuration (DESIGN CHOICE, entry 2); every statement quantifies over the
configuration, and none rests on this one. -/

namespace Sys2Proof.Machine

/-- `LAYOUT(CONFIG)` of Cfg_T (95_test_vectors.md §0.1). -/
def cfgTLayoutConfig : Layout where
  fields := [⟨.other 0, 7, 1, .raw⟩, ⟨.standby, 6, 1, .bool⟩, ⟨.other 1, 0, 6, .raw⟩]
  forced := 0x00#8

/-- `LAYOUT(ALERT_MASK)` of Cfg_T: layout X (95_test_vectors.md §0.1). -/
def cfgTLayoutAlertMask : Layout where
  fields := [⟨.other 0, 7, 1, .bool⟩, ⟨.other 1, 5, 2, .enum [0, 1, 3] 0⟩, ⟨.other 2, 2, 3, .raw⟩]
  forced := 0x03#8

/-- `LAYOUT(CONV_RATE)` of Cfg_T. -/
def cfgTLayoutConvRate : Layout where
  fields := [⟨.rate, 0, 4, .enum [0, 1, 2, 3, 4, 5, 6, 7, 8, 9] 9⟩, ⟨.other 0, 4, 4, .raw⟩]
  forced := 0x00#8

/-- `LAYOUT(FAN_CONFIG)` of Cfg_T. -/
def cfgTLayoutFanConfig : Layout where
  fields := [⟨.other 0, 6, 2, .raw⟩, ⟨.lutCtrl, 5, 1, .bool⟩, ⟨.other 1, 0, 5, .raw⟩]
  forced := 0x00#8

/-- `LAYOUT(SPIN_UP)` of Cfg_T; duration 0 is "bypass". -/
def cfgTLayoutSpinUp : Layout where
  fields := [⟨.other 0, 5, 3, .raw⟩, ⟨.strength, 3, 2, .raw⟩, ⟨.other 1, 2, 1, .raw⟩,
    ⟨.duration, 0, 2, .enum [0, 1, 2] 0⟩]
  forced := 0x00#8

/-- `LAYOUT(AVG_FILTER)` and `LAYOUT(BETA_COMP)` of Cfg_T: one raw byte. -/
def cfgTLayoutRaw : Layout where
  fields := [⟨.other 0, 0, 8, .raw⟩]
  forced := 0x00#8

/-- `DEFAULTS` of Cfg_T, 29 entries in list order. -/
def cfgTDefaults : List (BitVec 8 × BitVec 8) :=
  [(0x03#8, 0x00#8), (0x04#8, 0x08#8), (0x05#8, 0x46#8), (0x0F#8, 0x00#8), (0x16#8, 0x03#8),
   (0x18#8, 0x08#8), (0x48#8, 0xFF#8), (0x49#8, 0xFF#8), (0x4A#8, 0x20#8), (0x4B#8, 0x01#8),
   (0x4C#8, 0x00#8), (0x4F#8, 0x04#8)] ++
  (List.range 16).map (fun j => (0x50#8 + BitVec.ofNat 8 j, 0x00#8)) ++
  [(0xBF#8, 0x00#8)]

/-- The read-only addresses of Cfg_T. -/
def cfgTRoAddrs : List (BitVec 8) :=
  [0x00#8, 0x01#8, 0x02#8, 0x10#8, 0x46#8, 0x47#8, 0xFD#8, 0xFE#8, 0xFF#8]

/-- `Cfg_T` (95_test_vectors.md §0). The rates are those of 93_implementation_defined.md G3, "Informative
only"; no operation reads them. -/
def cfgT : Cfg where
  devAddr := 0x4C
  devAddrValid := [0x4C]
  config := 0x03#8
  alertMask := 0x16#8
  convRate := 0x04#8
  fanConfig := 0x4A#8
  spinUp := 0x4B#8
  avgFilter := 0xBF#8
  betaComp := 0x18#8
  fanSetting := 0x4C#8
  lutBase := 0x50#8
  lutHyst := 0x4F#8
  intHighLimit := 0x05#8
  oneShot := 0x0F#8
  extTemp := ⟨0x01#8, 0x10#8, .hiFirst, true⟩
  tach := ⟨0x47#8, 0x46#8, .loFirst, true⟩
  tachLimit := ⟨0x49#8, 0x48#8, .loFirst, false⟩
  attr := cfgTRoAddrs.map (fun a => (a, .ro)) ++ cfgTDefaults.map (fun e => (e.1, .rw))
  defaults := cfgTDefaults
  layoutConfig := cfgTLayoutConfig
  layoutAlertMask := cfgTLayoutAlertMask
  layoutConvRate := cfgTLayoutConvRate
  layoutFanConfig := cfgTLayoutFanConfig
  layoutSpinUp := cfgTLayoutSpinUp
  layoutAvgFilter := cfgTLayoutRaw
  layoutBetaComp := cfgTLayoutRaw
  standbyBit := 6
  lutCtrlBit := 5
  lutCtrlActive := true
  alertForced := 0x03#8
  convRateKmax := 9
  convRateTable := [⟨1, 16⟩, ⟨1, 8⟩, ⟨1, 4⟩, ⟨1, 2⟩, ⟨1, 1⟩, ⟨2, 1⟩, ⟨4, 1⟩, ⟨8, 1⟩, ⟨16, 1⟩, ⟨32, 1⟩]
  oneShotValue := 0x00#8

end Sys2Proof.Machine
end

