-- ==== Sys2Proof/Machine/State.lean ====
section
/-! DEFINITION. The machine's state as plain data (10_state.md), the reasons a step can stop, and the
state after reset. -/

namespace Sys2Proof.Machine

/-! ## The block -/

/-- R27: the sequencer is `IDLE`, or `BUSY(op, k)` with k the index of the next transaction or sleep. -/
inductive Sequencer where
  | idle
  | busy (op : Instr) (k : Nat)
  deriving DecidableEq, Repr

/-- R25: the result ports. -/
structure Results where
  status : Byte      -- `STATUS`
  r32 : Word32       -- `R32`
  rbHi : Byte        -- `RB_HI`
  rbLo : Byte        -- `RB_LO`
  rv : Bytes8        -- `RV[0..7]`
  rbuf : Bytes16     -- `RBUF[0..15]`
  deriving DecidableEq, Repr

/-- All result ports at zero: STATUS `OK` (0x00) and every other port as R25 leaves a port an operation
does not name. -/
def Results.zero : Results where
  status := 0#8
  r32 := 0#32
  rbHi := 0#8
  rbLo := 0#8
  rv := .replicate 8 0#8
  rbuf := .replicate 16 0#8

/-- A result port, as the host names it when it reads (R25, R256). -/
inductive Port where
  | status
  | r32
  | rbHi
  | rbLo
  | rv (k : Fin 8)
  | rbuf (k : Fin 16)
  deriving DecidableEq, Repr

/-! ## Faults of the spec: outcomes the block reports (R240, R241) -/

/-- The six faults of R240. They are results of an operation (R245), not stops of the machine. -/
inductive FaultCode where
  | illegalCommand     -- 0x80
  | busError           -- 0x81
  | invalidOperand     -- 0x82
  | programmerError    -- 0x83
  | lutLocked          -- 0x84
  | unmappedRegister   -- 0x85
  deriving DecidableEq, Repr

/-- R246: the sticky set `FAULTS`, one membership bit per fault. -/
structure FaultSet where
  illegalCommand : Bool
  busError : Bool
  invalidOperand : Bool
  programmerError : Bool
  lutLocked : Bool
  unmappedRegister : Bool
  deriving DecidableEq, Repr

/-- `FAULTS = ∅`. -/
def FaultSet.empty : FaultSet := ⟨false, false, false, false, false, false⟩

/-! ## The register space -/

/-- The bytes of `REG` (R29): sparse, in the canonical form of `Memory.wf` (Machine/Ops.lean). -/
abbrev Memory := List Host.Cell

/-- R30: `LATCH(p)` for each pair. -/
structure Latches where
  extTemp : Option (BitVec 8)
  tach : Option (BitVec 8)
  tachLimit : Option (BitVec 8)
  deriving DecidableEq, Repr

/-- Every latch empty (R34). -/
def Latches.empty : Latches := ⟨none, none, none⟩

/-- How a write transaction ended (R43). -/
inductive WriteOutcome where
  | ok         -- accepted
  | oneShot    -- accepted, and it starts one one-shot conversion (R48)
  | failed     -- transport failure, or a write to an RO register (R44, R52)
  | refused    -- a lookup-table write while the table governs (R46)
  deriving DecidableEq, Repr

/-- R35: an entry of the event history. -/
inductive Event where
  | read (a v : BitVec 8)                       -- a read of address a that gave byte v
  | readFailed (a : BitVec 8)                   -- a read of address a that failed
  | write (a v : BitVec 8) (o : WriteOutcome)   -- a write of byte v to address a
  | sleep (ms : BitVec 32)                      -- `Sleep(ms)` (R53)
  deriving DecidableEq, Repr

/-! ## The host and the environment -/

/-- R256: what the host may do while the block is IDLE. -/
inductive HostMove where
  | setOv (v : Bytes8)       -- set the operand port `OV`
  | setObuf (v : Bytes16)    -- set the operand port `OBUF`
  | issue (w : BitVec 64)    -- write the command port `CMD`, which starts an operation
  | read (p : Port)          -- read a result port
  deriving DecidableEq, Repr

/-- The environment's side of the draws: answers it has ready, then free values (entries 8, 9). -/
structure Env where
  answers : List BusAnswer   -- the next bus answers, first first
  served : Nat               -- how many answers have been used
  nanDraws : Nat             -- how many NaN patterns have been drawn
  deriving DecidableEq, Repr

/-! ## The state -/

/-- The machine: the block (R21 to R27), the register space (R29, R30), the bookkeeping (R35), the host's
pending moves (R256) and the environment. `cfg` is R28's parameter of the step relation, carried here and
written by nothing (entry 1). -/
structure State where
  cfg : Cfg
  seq : Sequencer
  cmd : Command                       -- `CMD`
  ov : Bytes8                         -- `OV`
  obuf : Bytes16                      -- `OBUF`
  results : Results
  resultsWritten : Bool               -- R33: whether the result ports hold a value
  mem : Memory                        -- `REG`
  latches : Latches
  history : List Event                -- oldest first
  faults : FaultSet                   -- `FAULTS`
  moves : List HostMove               -- the host's pending moves, first first
  received : List (Port × BitVec 32)  -- what the host has read, oldest first
  env : Env
  deriving DecidableEq, Repr

/-- Why the machine stops with a fault. No instruction raises one. -/
inductive Fault where
  /-- Raised by a host read of a result port before the first operation has completed (R33: "a fault of
  the model"). Safe. -/
  | portUnwritten (p : Port)
  /-- Raised by `step` in a state whose sequencer is BUSY: "the model gives the host no such move" (R27).
  No run reaches one. Safe. -/
  | hostMoveWhileBusy
  deriving DecidableEq, Repr

/-- Why a step has no meaning. No instruction raises one. -/
inductive Refusal where
  /-- Raised by an arm of `exec` without a meaning; there is none. Safe. -/
  | notModelled (mnemonic : String)
  /-- Raised by `step` when the configuration is ill-formed: "Such a configuration has no run" (R28, R247).
  Safe. -/
  | illFormedConfig
  deriving DecidableEq, Repr

/-! ## Reset -/

/-- The machine after reset with configuration `c`: the sequencer is IDLE and no result port holds a value
(R33, R270), and the register space is as `CleanPowerOn` has it (R34): nothing is listed in `mem`, so every
RW address reads its default, and every latch is empty. -/
def State.resetWith (c : Cfg) : State where
  cfg := c
  seq := .idle
  cmd := 0#64
  ov := .replicate 8 0#8
  obuf := .replicate 16 0#8
  results := .zero
  resultsWritten := false
  mem := []
  latches := .empty
  history := []
  faults := .empty
  moves := []
  received := []
  env := ⟨[], 0, 0⟩

/-- The machine after reset (entries 2 to 9, 18). -/
def State.reset : State := State.resetWith cfgT

end Sys2Proof.Machine
end

