-- ==== Sys2Proof/Machine/Operands.lean ====
section
/-! DEFINITION. What an operation looks up: the configuration's registers, attributes, defaults, pairs and
layouts (R8, R72), and the slots of the operand ports (R24). -/

namespace Sys2Proof.Machine

/-! ## Bit and byte helpers -/

/-- `b[i] = x` written into byte b: bit i set to x (R10). -/
def setBit (b : Byte) (i : Fin 8) (x : Bool) : Byte :=
  if x then b ||| (1#8 <<< i.val) else b &&& ~~~(1#8 <<< i.val)

/-- Bit i of a byte (R10). -/
def bitOf (b : Byte) (i : Fin 8) : Bool := b.getLsbD i.val

/-- `HI ++ LO`: the 16-bit value of a pair (R49, R69). -/
def pairValue (hi lo : Byte) : BitVec 16 := hi ++ lo

/-- `clamp(x, lo, hi) = min(max(x, lo), hi)` on naturals (R10). -/
def clampNat (x lo hi : Nat) : Nat := min (max x lo) hi

/-- `clamp(x, lo, hi)` on integers (R10). -/
def clampInt (x lo hi : Int) : Int := min (max x lo) hi

/-- The smaller of two bytes, read as unsigned. -/
def minByte (a b : Byte) : Byte := if a.toNat ≤ b.toNat then a else b

/-- A byte vector of eight slots from a list; missing slots are 0 (R66, R102). -/
def bytes8 (l : List Byte) : Bytes8 := Vector.ofFn fun k => l.getD k.val 0#8

/-- A byte vector of sixteen slots from a list; missing slots are 0. -/
def bytes16 (l : List Byte) : Bytes16 := Vector.ofFn fun k => l.getD k.val 0#8

/-- Slot k of `OV`, 0 past its end (R24). -/
def ovSlot (v : Bytes8) (k : Nat) : Byte := v.toList.getD k 0#8

/-- Slot j of `OBUF`, 0 past its end (R24). -/
def obufSlot (v : Bytes16) (j : Nat) : Byte := v.toList.getD j 0#8

/-! ## The configuration's registers (R8) -/

/-- `ATTR(a)` (R8): an address the map does not name is UNMAPPED. -/
def attrOf (c : Cfg) (a : Addr) : Attr := (c.attr.lookup a).getD .unmapped

/-- `DEFAULTS(a)` (R8, R222); 0 for an address without an entry, which a well-formed `Cfg` has only where no
RW register is (entry 3). -/
def defaultOf (c : Cfg) (a : Addr) : Byte := (c.defaults.lookup a).getD 0#8

/-- What an unlisted address of `mem` reads as: its default (R34, CleanPowerOn; entry 3). -/
def background (c : Cfg) (k : Nat) : Byte := defaultOf c (BitVec.ofNat 8 k)

/-- The parameters of pair p (R45). -/
def pairCfg (c : Cfg) : Pair → PairCfg
  | .extTemp => c.extTemp
  | .tach => c.tach
  | .tachLimit => c.tachLimit

/-- The address of the pair accessed first in `PAIR_ORDER(p)`. -/
def firstAddr (p : PairCfg) : Addr :=
  match p.order with
  | .hiFirst => p.hi
  | .loFirst => p.lo

/-- The address of the pair accessed second in `PAIR_ORDER(p)`. -/
def secondAddr (p : PairCfg) : Addr :=
  match p.order with
  | .hiFirst => p.lo
  | .loFirst => p.hi

/-- `a ∈ p`. -/
def inPair (p : PairCfg) (a : Addr) : Bool := a == p.hi || a == p.lo

/-- How far past `LUT_BASE` the table's j-th byte lies: the temperature of entry i = j / 2 at `LUT_STRIDE * i`, its
speed in the register after it (R70, R170). At `LUT_STRIDE = 2` it is j. -/
def lutOffset (l : Literals) (j : Nat) : Nat := l.lutStride * (j / 2) + j % 2

/-- The register of the table's j-th byte: `LUT_BASE + j` at the source's stride (R170). -/
def lutAddr (c : Cfg) (j : Nat) : Addr := c.lutBase + BitVec.ofNat 8 (lutOffset c.lit j)

/-- How many registers the table has: a temperature and a speed for each of `LUT_ENTRIES` entries (R7, R170). -/
def lutLength (c : Cfg) : Nat := 2 * c.lit.lutEntries

/-- The table's registers, ascending: T0, S0, ..., T7, S7 (R170, R171). -/
def lutAddrs (c : Cfg) : List Addr := (List.range (lutLength c)).map (lutAddr c)

/-- Whether a is a register of the table, `LUT_BASE .. LUT_BASE + 15` at the source's literals (R43). -/
def isLutAddr (c : Cfg) (a : Addr) : Bool := (lutAddrs c).contains a

/-! ## Layouts (R72) and conversion rates (R108) -/

/-- The layout an id selects (R72); none for an id outside 0..6. -/
def layoutOf (c : Cfg) (ls : Byte) : Option Layout :=
  match ls with
  | 0#8 => some c.layoutConfig
  | 1#8 => some c.layoutAlertMask
  | 2#8 => some c.layoutConvRate
  | 3#8 => some c.layoutFanConfig
  | 4#8 => some c.layoutSpinUp
  | 5#8 => some c.layoutAvgFilter
  | 6#8 => some c.layoutBetaComp
  | _ => none

/-- The rate of conversion-rate code k: `CONV_RATE_TABLE[min(k, KMAX)]` (R108). No operation reads it. -/
def convRateOf (c : Cfg) (k : Nat) : Option Rate := c.convRateTable[min k c.convRateKmax]?

end Sys2Proof.Machine
end

