-- ==== Sys2Proof/Machine/F32.lean ====
section
/-! DEFINITION. IEEE 754 binary32 (R11, 93_implementation_defined.md G1; entry 20). A finite value is held
exactly, as an integer number of units of 2^-149; the two infinities are held as plus and minus 2^128,
which lie beyond every finite value, so that comparing and clamping read them right. -/

namespace Sys2Proof.Machine

/-- The sign bit. -/
def f32Sign (b : Word32) : Bool := b.getLsbD 31

/-- The biased exponent field, bits 30..23. -/
def f32Exp (b : Word32) : Nat := b.toNat / 2 ^ 23 % 256

/-- The fraction field, bits 22..0. -/
def f32Frac (b : Word32) : Nat := b.toNat % 2 ^ 23

/-- `isNaN(x)` (R11). -/
def isNaN (b : Word32) : Bool := f32Exp b == 255 && f32Frac b != 0

/-- Whether x is a real number: neither a NaN nor an infinity. -/
def f32Finite (b : Word32) : Bool := f32Exp b != 255

/-- 1.0 in units of 2^-149. -/
def f32One : Nat := 2 ^ 149

/-- The magnitude of a value that is no NaN, in units of 2^-149. -/
def f32Mag (b : Word32) : Nat :=
  if f32Exp b = 0 then f32Frac b else (2 ^ 23 + f32Frac b) * 2 ^ (f32Exp b - 1)

/-- The value of a pattern that is no NaN, in units of 2^-149; -0.0 and +0.0 are both 0 (R11). -/
def f32Val (b : Word32) : Int := if f32Sign b then -(f32Mag b : Int) else (f32Mag b : Int)

/-- `x ≤ y` on binary32 (R11): false when an operand is a NaN. -/
def f32Le (x y : Word32) : Bool := !isNaN x && !isNaN y && decide (f32Val x ≤ f32Val y)

/-- num/den rounded to a natural number, to nearest, ties to even (R11). -/
def roundHalfEven (num den : Nat) : Nat :=
  let q := num / den
  let r := num % den
  if 2 * r < den then q else if den < 2 * r then q + 1 else q + q % 2

/-- How far a magnitude of m units is shifted to leave a 24-bit significand; 0 in the lowest binades. -/
def f32Shift (m : Nat) : Nat := if m < 2 ^ 24 then 0 else Nat.log2 m - 23

/-- The magnitude bits of the binary32 nearest to num/den (R11), infinity past the largest finite value. -/
def f32RoundMag (num den : Nat) : Nat :=
  let n := num * f32One
  let k := f32Shift (n / den)
  min (k * 2 ^ 23 + roundHalfEven n (den * 2 ^ k)) (255 * 2 ^ 23)

/-- `f32(q)` for the exact rational q of the given sign and magnitude num/den (R11). -/
def f32OfRatio (neg : Bool) (num den : Nat) : Word32 :=
  BitVec.ofNat 32 ((if neg then 2 ^ 31 else 0) + f32RoundMag num den)

/-- The NaN pattern with the given sign and payload; payload 0, which would spell an infinity, becomes 1
(R73, R153). Every NaN pattern is one of these. -/
def nanBits (sign : Bool) (payload : BitVec 23) : Word32 :=
  BitVec.ofNat 32 ((if sign then 2 ^ 31 else 0) + 255 * 2 ^ 23 +
    (if payload.toNat = 0 then 1 else payload.toNat))

end Sys2Proof.Machine
end

