-- ==== Sys2Proof/Machine/Flags.lean ====
section
/-! DEFINITION. The outcome codes, which take the place of flags (R26, R240): the five statuses, the six
faults, and the fault mark (R246). -/

namespace Sys2Proof.Machine

/-- `DiodeStatus` of the modern temperature decoder (R26, R141). -/
inductive DiodeStatus where
  | ok
  | openCircuit
  | shortCircuit
  deriving DecidableEq, Repr

/-- STATUS `OK` (R240). -/
def statusOk : Byte := 0x00#8

/-- STATUS `OPEN_CIRCUIT` (R240). -/
def statusOpenCircuit : Byte := 0x01#8

/-- STATUS `SHORT_CIRCUIT` (R240). -/
def statusShortCircuit : Byte := 0x02#8

/-- STATUS `REJECTED` (R240). -/
def statusRejected : Byte := 0x03#8

/-- STATUS `MISMATCH` (R240). -/
def statusMismatch : Byte := 0x04#8

/-- The status a temperature reading writes (R142). -/
def diodeCode : DiodeStatus → Byte
  | .ok => statusOk
  | .openCircuit => statusOpenCircuit
  | .shortCircuit => statusShortCircuit

/-- The status VALIDATE writes for a count of n mismatches (R223). -/
def validateCode (n : Nat) : Byte := if n = 0 then statusOk else statusMismatch

/-- The code of a fault (R240). -/
def faultCode : FaultCode → Byte
  | .illegalCommand => 0x80#8
  | .busError => 0x81#8
  | .invalidOperand => 0x82#8
  | .programmerError => 0x83#8
  | .lutLocked => 0x84#8
  | .unmappedRegister => 0x85#8

/-- Whether `FAULTS` holds a fault's code (R246). -/
def hasFault (f : FaultSet) : FaultCode → Bool
  | .illegalCommand => f.illegalCommand
  | .busError => f.busError
  | .invalidOperand => f.invalidOperand
  | .programmerError => f.programmerError
  | .lutLocked => f.lutLocked
  | .unmappedRegister => f.unmappedRegister

/-- `FAULTS` with a fault's code added (R246). -/
def addFault (f : FaultSet) : FaultCode → FaultSet
  | .illegalCommand => { f with illegalCommand := true }
  | .busError => { f with busError := true }
  | .invalidOperand => { f with invalidOperand := true }
  | .programmerError => { f with programmerError := true }
  | .lutLocked => { f with lutLocked := true }
  | .unmappedRegister => { f with unmappedRegister := true }

end Sys2Proof.Machine
end

