-- ==== Sys2Proof/Machine/Ops.lean ====
section
/-! DEFINITION. The named operations: the bytes of the register space, the environment's answers, the
pair latches, the bus transactions `MemRead`, `MemWrite` and `Sleep` (R42, R43, R53), what a fault does
(R243), the frame every operation runs in (R25, R27), and the host's own moves (R256). -/

namespace Sys2Proof.Machine

/-! ## Memory: the bytes of `REG` in one canonical form -/

/-- The byte at address k: the listed one, else what an unlisted address reads as. -/
def Memory.read (bg : Nat → Byte) : Memory → Nat → Byte
  | [], k => bg k
  | (x, v) :: m, k => if x = k then v else Memory.read bg m k

/-- The memory without an entry at k. -/
def Memory.drop (k : Nat) : Memory → Memory
  | [] => []
  | (x, v) :: m => if x = k then Memory.drop k m else (x, v) :: Memory.drop k m

/-- The memory with byte v listed at k, addresses rising. -/
def Memory.put (k : Nat) (v : Byte) : Memory → Memory
  | [] => [(k, v)]
  | (x, u) :: m =>
    if k < x then (k, v) :: (x, u) :: m
    else if k = x then (k, v) :: m
    else (x, u) :: Memory.put k v m

/-- Write byte v at address k; writing what an unlisted address reads as removes the entry. -/
def Memory.write (bg : Nat → Byte) (m : Memory) (k : Nat) (v : Byte) : Memory :=
  if v = bg k then Memory.drop k m else Memory.put k v m

/-- The canonical form: addresses strictly rising, no entry equal to what an unlisted address reads as. -/
def Memory.wf (bg : Nat → Byte) : Memory → Bool
  | [] => true
  | (x, v) :: m => m.all (fun e => decide (x < e.1)) && v != bg x && Memory.wf bg m

/-- `REG[a]` (R29). -/
def regAt (s : State) (a : Addr) : Byte := Memory.read (background s.cfg) s.mem a.toNat

/-- `REG[a] <- v` (R29). -/
def setReg (s : State) (a : Addr) (v : Byte) : State :=
  { s with mem := Memory.write (background s.cfg) s.mem a.toNat v }

/-- A launch state without the premise CleanPowerOn: the RW contents are the parameter REG0, given as writes over the
defaults (R34). What the pair latches then hold R34 does not say; that every latch is empty is the model's choice
(DESIGN CHOICE, entry 3). -/
def launchWith (c : Cfg) (reg0 : List (BitVec 8 × BitVec 8)) : State :=
  reg0.foldl (fun s e => setReg s e.1 e.2) (State.resetWith c)

/-- `LutGoverns(REG)`: bit LUT_CTRL_BIT of FAN_CONFIG is LUT_CTRL_ACTIVE (R43). -/
def lutGoverns (s : State) : Bool :=
  bitOf (regAt s s.cfg.fanConfig) s.cfg.lutCtrlBit == s.cfg.lutCtrlActive

/-! ## The environment's draws (entries 8, 9) -/

/-- The environment's k-th answer from now: the one it has ready, else a free value. -/
def Env.at (e : Env) (k : Nat) : BusAnswer := (e.answers[k]?).getD (Config.freeAnswer (e.served + k))

/-- The environment with its next answer used. -/
def Env.pop (e : Env) : Env := { e with answers := e.answers.tail, served := e.served + 1 }

/-- The environment with one NaN pattern drawn. -/
def Env.popNaN (e : Env) : Env := { e with nanDraws := e.nanDraws + 1 }

/-- The next NaN pattern (R73, R153): a free value, always a NaN. -/
def Env.nan (e : Env) : Word32 :=
  nanBits (Config.freeNaNSign e.nanDraws) (Config.freeNaNPayload e.nanDraws)

/-! ## Pair latches (R30, R45) -/

/-- `LATCH(p)`. -/
def latchOf (l : Latches) : Pair → Option (BitVec 8)
  | .extTemp => l.extTemp
  | .tach => l.tach
  | .tachLimit => l.tachLimit

/-- `LATCH(p) <- v`. -/
def setLatch (l : Latches) (p : Pair) (v : Option (BitVec 8)) : Latches :=
  match p with
  | .extTemp => { l with extTemp := v }
  | .tach => { l with tach := v }
  | .tachLimit => { l with tachLimit := v }

/-- The three pairs, in the order of R45. -/
def allPairs : List Pair := [.extTemp, .tach, .tachLimit]

/-- `LATCH(p) <- none` for every pair p with a ∈ p (R42, R45(d)). -/
def clearLatches (c : Cfg) (l : Latches) (a : Addr) : Latches :=
  allPairs.foldl (fun l p => if inPair (pairCfg c p) a then setLatch l p none else l) l

/-- The byte a read of a finds latched: a is the second byte of a pair p and `LATCH(p) = some b` (R42). -/
def latchedByte (c : Cfg) (l : Latches) (a : Addr) : Option (BitVec 8) :=
  allPairs.findSome? fun p => if secondAddr (pairCfg c p) == a then latchOf l p else none

/-- The latches after a read of a that was not served from a latch: each latching pair whose first byte is a
latches the other byte of the sample, `other p` (R30, R42, R45(b)). -/
def fillLatches (c : Cfg) (l : Latches) (a : Addr) (other : Pair → Byte) : Latches :=
  allPairs.foldl
    (fun l p =>
      if (pairCfg c p).latching && firstAddr (pairCfg c p) == a then setLatch l p (some (other p)) else l)
    l

/-! ## How an operation proceeds -/

/-- An operation's progress: a value and the state, or `raise F(info)` (R12, R243). -/
inductive Res (α : Type) where
  | ok (v : α) (s : State)
  | raise (f : FaultCode) (info : Word32) (s : State)

/-- Go on with the value, unless a fault was raised: "no later transaction or sleep of that operation is
performed" (R243). -/
def Res.bind {α β : Type} (r : Res α) (k : α → State → Res β) : Res β :=
  match r with
  | .ok v s => k v s
  | .raise f info s => .raise f info s

/-- `BUSY(op, k)` with k one higher (R27). -/
def nextIndex : Sequencer → Sequencer
  | .idle => .idle
  | .busy op k => .busy op (k + 1)

/-- An event entered in the history (R35), after which the sequencer is at the next transaction (R27). -/
def record (s : State) (e : Event) : State :=
  { s with history := s.history ++ [e], seq := nextIndex s.seq }

/-- A transaction to a reached the bus: latches of pairs that hold a are cleared (R45(d)). -/
def touch (s : State) (a : Addr) : State := { s with latches := clearLatches s.cfg s.latches a }

/-- The environment's next answer is used. -/
def useAnswer (s : State) : State := { s with env := s.env.pop }

/-! ## Bus transactions -/

/-- The byte an access to a gives when no latch serves it: a draw for an RO register, else `REG[a]` (R42). -/
def plainByte (s : State) (a : Addr) (d : BusAnswer) : Byte :=
  if attrOf s.cfg a = .ro then d.byte else regAt s a

/-- The other byte of the same sample (R42, R45(b)): a draw for an RO register; for an RW register, what the
register space holds at the pair's second address (entry 11). Where one RO address is the first byte of two latching
pairs, both latches get the one byte drawn, although R42 writes a draw for each pair (DESIGN CHOICE, entry 14). -/
def otherByte (s : State) (a : Addr) (d : BusAnswer) (p : Pair) : Byte :=
  if attrOf s.cfg a = .ro then d.second else regAt s (secondAddr (pairCfg s.cfg p))

/-- A read that did not fail (R42): the latched byte, which consumes the latch, or the plain byte, which fills
the latch of each latching pair whose first byte this is. -/
def readByte (s : State) (a : Addr) (d : BusAnswer) : Res Byte :=
  match latchedByte s.cfg s.latches a with
  | some b => .ok b (record (touch s a) (.read a b))
  | none =>
    let v := plainByte s a d
    let t := touch s a
    .ok v (record { t with latches := fillLatches s.cfg t.latches a (otherByte s a d) } (.read a v))

/-- `MemRead(a, 1)` (R42). -/
def memRead (s : State) (a : Addr) : Res Byte :=
  if attrOf s.cfg a = .unmapped then .raise .unmappedRegister (a.setWidth 32) s
  else if (s.env.at 0).fails then
    .raise .busError (a.setWidth 32) (record (touch (useAnswer s) a) (.readFailed a))
  else readByte (useAnswer s) a (s.env.at 0)

/-- A write that did not fail (R43): refused for a table register while the table governs (R46); old or new byte
for FAN_SETTING while the table governs (R46); else stored. -/
def writeByte (s : State) (a : Addr) (v : Byte) (d : BusAnswer) : Res Unit :=
  if isLutAddr s.cfg a && lutGoverns s then
    .raise .lutLocked (a.setWidth 32) (record (touch s a) (.write a v .refused))
  else if a = s.cfg.fanSetting ∧ lutGoverns s then
    .ok () (record (setReg (touch s a) a (if d.takesNew then v else regAt s a)) (.write a v .ok))
  else
    .ok () (record (setReg (touch s a) a v) (.write a v (if a = s.cfg.oneShot then .oneShot else .ok)))

/-- `MemWrite(a, 1, v)` (R43, R44, R52). -/
def memWrite (s : State) (a : Addr) (v : Byte) : Res Unit :=
  match attrOf s.cfg a with
  | .unmapped => .raise .unmappedRegister (a.setWidth 32) s
  | .ro => .raise .busError (a.setWidth 32) (record (touch s a) (.write a v .failed))
  | .rw =>
    if (s.env.at 0).fails then
      .raise .busError (a.setWidth 32)
        (record (setReg (touch (useAnswer s) a) a (if (s.env.at 0).takesNew then v else regAt s a))
          (.write a v .failed))
    else writeByte (useAnswer s) a v (s.env.at 0)

/-- `Sleep(ms)` (R53): recorded, and it ends successfully. -/
def sleep (s : State) (ms : Word32) : State := record s (.sleep ms)

/-- Reads of the given addresses, in order, stopping at the first fault (R47, R243). -/
def readList (s : State) : List Addr → Res (List Byte)
  | [] => .ok [] s
  | a :: as => (memRead s a).bind fun v s => (readList s as).bind fun vs s => .ok (v :: vs) s

/-- Writes of the given bytes, in order, stopping at the first fault (R47, R243). -/
def writeList (s : State) : List (BitVec 8 × BitVec 8) → Res Unit
  | [] => .ok () s
  | e :: es => (memWrite s e.1 e.2).bind fun _ s => writeList s es

/-- `ReadPair(p)` (R194): two consecutive reads in `PAIR_ORDER(p)`; answers (hi, lo). -/
def readPair (s : State) (p : Pair) : Res (Byte × Byte) :=
  let c := pairCfg s.cfg p
  match c.order with
  | .hiFirst => (memRead s c.hi).bind fun hi s => (memRead s c.lo).bind fun lo s => .ok (hi, lo) s
  | .loFirst => (memRead s c.lo).bind fun lo s => (memRead s c.hi).bind fun hi s => .ok (hi, lo) s

/-- `WritePair(p, hi, lo)` (R195): two consecutive writes in `PAIR_ORDER(p)`. -/
def writePair (s : State) (p : Pair) (hi lo : Byte) : Res Unit :=
  let c := pairCfg s.cfg p
  match c.order with
  | .hiFirst => writeList s [(c.hi, hi), (c.lo, lo)]
  | .loFirst => writeList s [(c.lo, lo), (c.hi, hi)]

/-! ## Results -/

/-- The result ports of an operation that ends with STATUS OK and a scalar in R32 (R25). -/
def okWord (x : Word32) : Results := { Results.zero with status := statusOk, r32 := x }

/-- The result ports of an operation that ends with STATUS OK and nothing else (R25). -/
def okNone : Results := { Results.zero with status := statusOk }

/-! ## Ending an operation -/

/-- What a fault does (R243, R246): STATUS holds its code and R32 its information, the other result ports are
zero, the sequencer is IDLE, and the code joins `FAULTS`. Effects already performed stay. -/
def takeFault (s : State) (f : FaultCode) (info : Word32) : State :=
  { s with
    results := { Results.zero with status := faultCode f, r32 := info }
    resultsWritten := true
    faults := addFault s.faults f
    seq := .idle }

/-- An operation completes (R25, R27): it writes all result ports and the sequencer is IDLE. -/
def finish (s : State) (r : Results) : State :=
  { s with results := r, resultsWritten := true, seq := .idle }

/-- The state in which an operation starts: `BUSY(op, 0)` (R27). -/
def start (s : State) (i : Instr) : State := { s with seq := .busy i 0 }

/-- The state an operation's progress ends in: completed or abandoned with its fault. -/
def ended : Res Results → State
  | .ok r s => finish s r
  | .raise f info s => takeFault s f info

/-- Run an operation's body from IDLE back to IDLE (R27). Every operation ends in a next state: a fault of
the spec is a result (R245). -/
def perform (s : State) (i : Instr) (body : State → Res Results) : Host.Outcome State Fault Refusal :=
  .next (ended (body (start s i)))

/-! ## Host moves (R256) -/

/-- The host's write of the command port (R23). -/
def setCommand (s : State) (w : Command) : State := { s with cmd := w }

/-- An illegal command (R64, R243): no transaction; the information is `CMD[31:0]`. -/
def illegalCommand (s : State) : State := takeFault s .illegalCommand (s.cmd.setWidth 32)

/-- The value a host read of a port gives, zero-extended (R25). -/
def portValue (r : Results) : Port → Word32
  | .status => r.status.setWidth 32
  | .r32 => r.r32
  | .rbHi => r.rbHi.setWidth 32
  | .rbLo => r.rbLo.setWidth 32
  | .rv k => (r.rv[k]).setWidth 32
  | .rbuf k => (r.rbuf[k]).setWidth 32

/-- A host read of a result port: a fault of the model before the first operation has completed (R33), else
the host receives the value (R256). -/
def hostRead (s : State) (p : Port) : Host.Outcome State Fault Refusal :=
  if s.resultsWritten then .next { s with received := s.received ++ [(p, portValue s.results p)] }
  else .fault (.portUnwritten p)

end Sys2Proof.Machine
end

