-- ==== Sys2Proof/Machine/Temperature.lean ====
section
/-! DEFINITION. The temperature codecs: TEMP_DECODE, TEMP_ENCODE, LTEMP_DECODE and LTEMP_ENCODE
(42_temperature.md, R140 to R153). Values are exact: eighths of a degree in the modern codec, units of
2^-149 (Machine/F32.lean) on the binary32 side. -/

namespace Sys2Proof.Machine

/-! ## Modern codec -/

/-- The `DiodeStatus` of a byte pair: the sentinels compare the whole lsb byte (R141). -/
def diodeStatus (l : Literals) (msb lsb : Byte) : DiodeStatus :=
  if msb = l.sentinelMsb ∧ lsb = l.openLsb then .openCircuit
  else if msb = l.sentinelMsb ∧ lsb = l.shortLsb then .shortCircuit
  else .ok

/-- `8 * (sext_8(msb) + zext_3(lsb[7:5]) * 0.125)` (R141): the reading in eighths of a degree. -/
def tempEighths (msb lsb : Byte) : Int := 8 * msb.toInt + (lsb.toNat / 32 : Nat)

/-- The binary32 pattern of c eighths of a degree, which is exact (R141). -/
def f32OfEighths (c : Int) : Word32 := f32OfRatio (decide (c < 0)) c.natAbs 8

/-- The modern reading of a byte pair (R141, R142, R153): R32 and STATUS, and the state with a NaN pattern
drawn when the pair is a sentinel. -/
def readTemp (msb lsb : Byte) (s : State) : Res (Word32 × Byte) :=
  match diodeStatus s.cfg.lit msb lsb with
  | .ok => .ok (f32OfEighths (tempEighths msb lsb), statusOk) s
  | d => .ok (s.env.nan, diodeCode d) { s with env := s.env.popNaN }

/-- `c = floor(8 * clamp(v, TEMP_MIN, TEMP_MAX))` (R143), for a v that is no NaN. The bounds are real numbers in every
well-formed configuration (entry 27). -/
def tempGrid (l : Literals) (v : Word32) : Int :=
  8 * clampInt (f32Val v) (f32Val l.tempMin) (f32Val l.tempMax) / (f32One : Int)

/-- `temp_encode` of a v that is no NaN (R143), with the sentinel guard (R144): (msb, lsb). The guard's 0x20 is no literal
of R7 and stays, whatever `OPEN_LSB` and `SHORT_LSB` are (DESIGN CHOICE, entry 27). -/
def tempEncode (l : Literals) (v : Word32) : Byte × Byte :=
  let c := tempGrid l v
  let msb := BitVec.ofInt 8 (c / 8)
  let lsb := BitVec.ofNat 8 ((c % 8).toNat * 32)
  if msb = l.sentinelMsb ∧ lsb = l.openLsb then (msb, 0x20#8) else (msb, lsb)

/-! ## Legacy codec -/

/-- The fraction of a flag byte in hundredths of a degree (R68, R148). -/
def legacyFraction (l : Literals) (frac : Byte) : Nat :=
  (if frac.getLsbD 7 then l.legacyWeight7 else 0) + (if frac.getLsbD 6 then l.legacyWeight6 else 0) +
  (if frac.getLsbD 5 then l.legacyWeight5 else 0)

/-- `ltemp_decode` (R148): the exact sum, rounded once to binary32. -/
def ltempDecode (l : Literals) (whole frac : Byte) : Word32 :=
  f32OfRatio false (100 * whole.toNat + legacyFraction l frac) 100

/-- The legacy encoder's upper clamp, f32(255.9): the largest representable value (R150, D15). -/
def legacyMax (l : Literals) : Word32 := ltempDecode l 0xFF#8 0xE0#8

/-- One step of the cascade (R150) on a remainder in units of 2^-149/100: whether the flag is set, and the
remainder after its weight is subtracted. The threshold is a real number in every well-formed configuration
(entry 27). -/
def legacyStep (r : Int) (threshold : Word32) (weight : Nat) : Bool × Int :=
  if 100 * f32Val threshold < r then (true, r - weight * f32One) else (false, r)

/-- The flags of a remainder (R150): bit 7, bit 6, bit 5. -/
def legacyFlags (l : Literals) (r : Int) : Bool × Bool × Bool :=
  let (b7, r) := legacyStep r l.legacyThreshold7 l.legacyWeight7
  let (b6, r) := legacyStep r l.legacyThreshold6 l.legacyWeight6
  let (b5, _) := legacyStep r l.legacyThreshold5 l.legacyWeight5
  (b7, b6, b5)

/-- The fraction byte `b7<<7 | b6<<6 | b5<<5` (R150). -/
def flagByte (b : Bool × Bool × Bool) : Byte :=
  BitVec.ofNat 8 ((if b.1 then 128 else 0) + (if b.2.1 then 64 else 0) + (if b.2.2 then 32 else 0))

/-- `ltemp_encode` of a v that is no NaN (R150): (whole, frac). -/
def ltempEncode (l : Literals) (v : Word32) : Byte × Byte :=
  let x := clampInt (f32Val v) 0 (f32Val (legacyMax l))
  let w := x / (f32One : Int)
  (BitVec.ofInt 8 w, flagByte (legacyFlags l (100 * (x - w * f32One))))

/-! ## Operations -/

/-- The result ports of an encoder: the byte pair in RB_HI and RB_LO (R145, R151). -/
def okPair (p : Byte × Byte) : Results :=
  { Results.zero with status := statusOk, rbHi := p.1, rbLo := p.2 }

/-- An encoder's body: a NaN raises INVALID_OPERAND(0) (R143, R150). -/
def encodeTempBody (enc : Literals → Word32 → Byte × Byte) (v : Word32) (s : State) : Res Results :=
  if isNaN v then .raise .invalidOperand 0#32 s else .ok (okPair (enc s.cfg.lit v)) s

/-- TEMP_DECODE's body (R142). -/
def tempDecodeBody (msb lsb : Byte) (s : State) : Res Results :=
  (readTemp msb lsb s).bind fun x s => .ok { Results.zero with status := x.2, r32 := x.1 } s

/-- LTEMP_DECODE's body (R149). -/
def ltempDecodeBody (whole frac : Byte) (s : State) : Res Results :=
  .ok (okWord (ltempDecode s.cfg.lit whole frac)) s

/-- TEMP_DECODE: decode a modern temperature byte pair (R142). -/
def execTempDecode (msb lsb : Byte) (s : State) : Host.Outcome State Fault Refusal :=
  perform s (.tempDecode msb lsb) (tempDecodeBody msb lsb)

/-- TEMP_ENCODE: encode a binary32 temperature into a modern byte pair (R145). -/
def execTempEncode (v : Word32) (s : State) : Host.Outcome State Fault Refusal :=
  perform s (.tempEncode v) (encodeTempBody tempEncode v)

/-- LTEMP_DECODE: decode a legacy temperature byte pair (R149). -/
def execLtempDecode (whole frac : Byte) (s : State) : Host.Outcome State Fault Refusal :=
  perform s (.ltempDecode whole frac) (ltempDecodeBody whole frac)

/-- LTEMP_ENCODE: encode a binary32 temperature into a legacy byte pair (R151). -/
def execLtempEncode (v : Word32) (s : State) : Host.Outcome State Fault Refusal :=
  perform s (.ltempEncode v) (encodeTempBody ltempEncode v)

end Sys2Proof.Machine
end

