-- ==== Sys2Proof/Machine/CfgCheck.lean ====
section
/-! DEFINITION. When a configuration is well-formed: R28 items 1 to 7, the layout rules of R101, the known default
of TACH_LIMIT (R31, R224), its place in `DEFAULTS` (R45(a)), and the conversion-rate table's order (R108),
and the literals' domain (R7). A configuration that fails has no run (R247). -/

namespace Sys2Proof.Machine

/-! ## Layouts (R101) -/

/-- Whether bit i lies in field f. -/
def fieldHasBit (f : BitField) (i : Nat) : Bool := decide (f.lo ≤ i) && decide (i < f.lo + f.w)

/-- R101: a field lies in the byte, and its kind fits its width: `Bool` has w = 1; an `Enum`'s codes are in
`0 .. 2^w - 1` and its fallback is one of them. -/
def fieldWf (f : BitField) : Bool :=
  decide (1 ≤ f.w) && decide (f.lo + f.w ≤ 8) &&
  match f.kind with
  | .bool => f.w == 1
  | .raw => true
  | .enum codes fb => codes.all (fun c => decide (c < 2 ^ f.w)) && codes.contains fb

/-- How many fields hold bit i, one more when `FORCED` does. -/
def bitOwners (l : Layout) (i : Nat) : Nat :=
  l.fields.countP (fun f => fieldHasBit f i) + (if l.forced.getLsbD i then 1 else 0)

/-- R101 item 1: fields overlap neither one another nor FORCED. -/
def layoutDisjoint (l : Layout) : Bool := (List.range 8).all fun i => decide (bitOwners l i ≤ 1)

/-- R101 item 2: the union of the fields and FORCED is all of bits 7..0. -/
def layoutCovers (l : Layout) : Bool := (List.range 8).all fun i => decide (1 ≤ bitOwners l i)

/-- R101: at most eight fields, each well-formed, disjoint and covering. -/
def layoutWf (l : Layout) : Bool :=
  decide (l.fields.length ≤ 8) && l.fields.all fieldWf && layoutDisjoint l && layoutCovers l

/-- How many bits of a byte are set. -/
def popCount (b : Byte) : Nat := (List.range 8).countP fun i => b.getLsbD i

/-- R101 item 3: ALERT_MASK forces exactly two bits, those of `ALERT_FORCED`. -/
def alertMaskWf (c : Cfg) : Bool :=
  c.layoutAlertMask.forced == c.alertForced && popCount c.alertForced == 2

/-- Whether a layout has a `Bool` field of the given name at bit i (R101 items 4 and 5). -/
def hasBoolAt (l : Layout) (n : FieldName) (i : Nat) : Bool :=
  l.fields.any fun f => f.name == n && f.lo == i && f.kind == .bool

/-- Whether an `Enum` of n codes recognises exactly `0 .. k`, with fallback k (R101 item 6). -/
def isRateEnum (n k : Nat) : FieldKind → Bool
  | .enum codes fb =>
    (List.range n).all (fun x => codes.contains x == decide (x ≤ k)) && fb == k
  | .bool => false
  | .raw => false

/-- R101 item 6: CONV_RATE has the `Enum` field `rate` with `R = 0 .. KMAX` and `fb = KMAX`, wide enough for exactly
`CONV_RATE_CODES` codes: width 4 for the source's 16 (R7). -/
def convRateWf (c : Cfg) : Bool :=
  c.layoutConvRate.fields.any fun f =>
    f.name == .rate && 2 ^ f.w == c.lit.convRateCodes && isRateEnum c.lit.convRateCodes c.convRateKmax f.kind

/-- Whether a kind is an `Enum`. -/
def isEnum : FieldKind → Bool
  | .enum _ _ => true
  | .bool => false
  | .raw => false

/-- R101 item 7: SPIN_UP has a `strength` field and an `Enum` field `duration` of width 2. -/
def spinUpWf (c : Cfg) : Bool :=
  c.layoutSpinUp.fields.any (fun f => f.name == .strength) &&
  c.layoutSpinUp.fields.any (fun f => f.name == .duration && f.w == 2 && isEnum f.kind)

/-- R28 item 7: every layout meets R101. -/
def layoutsWf (c : Cfg) : Bool :=
  [c.layoutConfig, c.layoutAlertMask, c.layoutConvRate, c.layoutFanConfig, c.layoutSpinUp,
    c.layoutAvgFilter, c.layoutBetaComp].all layoutWf &&
  alertMaskWf c && hasBoolAt c.layoutConfig .standby c.standbyBit.val &&
  hasBoolAt c.layoutFanConfig .lutCtrl c.lutCtrlBit.val && convRateWf c && spinUpWf c

/-! ## Addresses (R28) -/

/-- R28 item 1. -/
def devAddrWf (c : Cfg) : Bool := c.devAddrValid.contains c.devAddr

/-- R28 items 2 and 3: the measurement pairs are RO. -/
def roNames (c : Cfg) : List Addr := [c.extTemp.hi, c.extTemp.lo, c.tach.hi, c.tach.lo]

/-- R28 items 2 and 4: every other named register is RW. -/
def rwNames (c : Cfg) : List Addr :=
  [c.config, c.alertMask, c.convRate, c.fanConfig, c.spinUp, c.avgFilter, c.betaComp, c.fanSetting,
    c.lutBase, c.lutHyst, c.intHighLimit, c.oneShot, c.tachLimit.hi, c.tachLimit.lo]

/-- R28 items 2 to 4. -/
def namesWf (c : Cfg) : Bool :=
  (roNames c).all (fun a => attrOf c a == .ro) && (rwNames c).all (fun a => attrOf c a == .rw)

/-- R28 item 5: `DEFAULTS` lists every RW address exactly once, and nothing else (R8, R223; entry 15). -/
def defaultsWf (c : Cfg) : Bool :=
  c.attr.all (fun e => attrOf c e.1 != .rw || (c.defaults.map Prod.fst).count e.1 == 1) &&
  c.defaults.all (fun e => attrOf c e.1 == .rw)

/-- The two bytes of `TACH_LIMIT` default to 0xFF each, 0xFFFF together (R31, R224). -/
def tachLimitDefaultWf (c : Cfg) : Bool :=
  defaultOf c c.tachLimit.hi == 0xFF#8 && defaultOf c c.tachLimit.lo == 0xFF#8

/-- `DEFAULTS` lists the two bytes of `TACH_LIMIT` one after the other, in `PAIR_ORDER`, so that the operations that
follow the list access the pair as R45(a) asks of every operation (entry 26). -/
def tachLimitListedWf (c : Cfg) : Bool :=
  let as := c.defaults.map Prod.fst
  (as.zip as.tail).contains (firstAddr c.tachLimit, secondAddr c.tachLimit)

/-- R28 item 6: the table's registers are RW and do not pass 0xFF. The 16-byte ports hold at most eight entries (R24,
R25), and an entry's two bytes are two registers (R170; entry 17). -/
def lutWf (c : Cfg) : Bool :=
  decide (c.lit.lutEntries ≤ 8) && decide (2 ≤ c.lit.lutStride) &&
  (List.range (lutLength c)).all fun j =>
    decide (c.lutBase.toNat + lutOffset c.lit j < 256) && attrOf c (lutAddr c j) == .rw

/-! ## Literals (R7) -/

/-- The binary32 literals of R7. -/
def f32Literals (l : Literals) : List Word32 :=
  [l.intLimitMin, l.intLimitMax, l.tempMin, l.tempMax, l.legacyThreshold7, l.legacyThreshold6, l.legacyThreshold5]

/-- The literals lie where the formulas that read them give a value: the reciprocal divides by no 0 and its result
fits 32 bits (R10, R121), and every binary32 bound and threshold is a real number, the legacy clamp among them (R11
gives `floor` for finite values). R28 asks none of it: refusing the rest is the model's choice (DESIGN CHOICE,
entry 27). -/
def literalsWf (l : Literals) : Bool :=
  decide (1 ≤ l.tachMax) && decide (l.tachDivisor < 2 ^ 32) && (f32Literals l).all f32Finite &&
  f32Finite (legacyMax l)

/-- R108: the table has a rate for each code up to KMAX, and the rates strictly increase (entry 16). -/
def rateTableWf (c : Cfg) : Bool :=
  decide (c.convRateTable.length = c.convRateKmax + 1) &&
  c.convRateTable.all (fun r => decide (0 < r.den)) &&
  (List.range c.convRateKmax).all fun k =>
    match c.convRateTable[k]?, c.convRateTable[k + 1]? with
    | some r, some q => decide (r.num * q.den < q.num * r.den)
    | _, _ => false

/-- A well-formed configuration (R28): "The model refuses an ill-formed `Cfg`". Beyond R28's conditions it is asked for
what R31, R45(a), R108 and R224 say of it (entries 15, 16, 17, 26),
and its literals lie in their formulas' domain (entry 27). -/
def cfgWf (c : Cfg) : Bool :=
  devAddrWf c && namesWf c && defaultsWf c && tachLimitDefaultWf c && tachLimitListedWf c && lutWf c &&
    layoutsWf c && rateTableWf c && literalsWf c.lit

end Sys2Proof.Machine
end

