-- ==== Sys2Proof/Machine/Reciprocal.lean ====
section
/-! DEFINITION. The RPM / tachometer reciprocal converter: TACH_TO_RPM and RPM_TO_TACH
(41_reciprocal.md, R120 to R126). -/

namespace Sys2Proof.Machine

/-- `RPM_MIN = ⌊TACH_DIVISOR / TACH_MAX⌋ + 1` (R120). R10 gives no quotient for `TACH_MAX = 0`, which no well-formed
configuration has (entry 27). -/
def rpmMin (l : Literals) : Nat := l.tachDivisor / l.tachMax + 1

/-- `tach_to_rpm` (R121). R10 gives no quotient where the clamp ends at 0, which needs `TACH_MAX = 0`; no well-formed
configuration has it (entry 27). -/
def tachToRpm (l : Literals) (t : BitVec 16) : BitVec 32 :=
  BitVec.ofNat 32 (l.tachDivisor / clampNat t.toNat 1 l.tachMax)

/-- `rpm_to_tach` (R122). -/
def rpmToTach (l : Literals) (r : BitVec 32) : BitVec 16 :=
  BitVec.ofNat 16 (l.tachDivisor / clampNat r.toNat (rpmMin l) (2 ^ 32 - 1))

/-- TACH_TO_RPM's body (R123). -/
def tachToRpmBody (t : BitVec 16) (s : State) : Res Results := .ok (okWord (tachToRpm s.cfg.lit t)) s

/-- RPM_TO_TACH's body (R124). -/
def rpmToTachBody (r : BitVec 32) (s : State) : Res Results :=
  .ok (okWord ((rpmToTach s.cfg.lit r).setWidth 32)) s

/-- TACH_TO_RPM: convert a tachometer count to RPM (R123). -/
def execTachToRpm (t : BitVec 16) (s : State) : Host.Outcome State Fault Refusal :=
  perform s (.tachToRpm t) (tachToRpmBody t)

/-- RPM_TO_TACH: convert an RPM value to a tachometer count (R124). -/
def execRpmToTach (r : BitVec 32) (s : State) : Host.Outcome State Fault Refusal :=
  perform s (.rpmToTach r) (rpmToTachBody r)

end Sys2Proof.Machine
end

