-- ==== Sys2Proof/Machine/Accessors.lean ====
section
/-! DEFINITION. The high-level accessors: FAN_SPEED_GET, FAN_SPEED_SET, INT_LIMIT_SET, EXT_TEMP_READ,
FAN_RPM_GET, MIN_RPM_GET and MIN_RPM_SET (44_accessors.md, R190 to R200). -/

namespace Sys2Proof.Machine

/-- FAN_SPEED_GET's body (R191). -/
def fanSpeedGetBody (s : State) : Res Results :=
  (memRead s s.cfg.fanSetting).bind fun v s => .ok (okWord (v.setWidth 32)) s

/-- FAN_SPEED_SET's body (R192). -/
def fanSpeedSetBody (speed : Byte) (s : State) : Res Results :=
  (memWrite s s.cfg.fanSetting (minByte speed s.cfg.lit.fanSpeedMax)).bind fun _ s => .ok okNone s

/-- FAN_SPEED_GET: read the direct fan-speed register, raw (R191). -/
def execFanSpeedGet (s : State) : Host.Outcome State Fault Refusal := perform s .fanSpeedGet fanSpeedGetBody

/-- FAN_SPEED_SET: clamp and write the direct fan-speed register (R192). -/
def execFanSpeedSet (speed : Byte) (s : State) : Host.Outcome State Fault Refusal :=
  perform s (.fanSpeedSet speed) (fanSpeedSetBody speed)

/-- Whether INT_LIMIT_SET accepts v: `INT_LIMIT_MIN ≤ v` and `v ≤ INT_LIMIT_MAX`, both false for a NaN (R193). -/
def intLimitAccepts (l : Literals) (v : Word32) : Bool := f32Le l.intLimitMin v && f32Le v l.intLimitMax

/-- `trunc_8(floor(v))` (R193). -/
def floorByte (v : Word32) : Byte := BitVec.ofInt 8 (f32Val v / (f32One : Int))

/-- INT_LIMIT_SET's body (R193): REJECTED with no transaction, or the floor written. -/
def intLimitSetBody (v : Word32) (s : State) : Res Results :=
  if intLimitAccepts s.cfg.lit v then
    (memWrite s s.cfg.intHighLimit (floorByte v)).bind fun _ s => .ok okNone s
  else .ok { Results.zero with status := statusRejected } s

/-- INT_LIMIT_SET: set the internal-temperature high limit (R193). -/
def execIntLimitSet (v : Word32) (s : State) : Host.Outcome State Fault Refusal :=
  perform s (.intLimitSet v) (intLimitSetBody v)

/-- In standby (bit = 1, D27): trigger a one-shot conversion and sleep the settle time (R196). -/
def triggerIfStandby (c : Byte) (s : State) : Res Unit :=
  if bitOf c s.cfg.standbyBit then
    (memWrite s s.cfg.oneShot s.cfg.oneShotValue).bind fun _ s => .ok () (sleep s s.cfg.lit.settleMs)
  else .ok () s

/-- EXT_TEMP_READ's body (R196). -/
def extTempReadBody (s : State) : Res Results :=
  (memRead s s.cfg.config).bind fun c s =>
    (triggerIfStandby c s).bind fun _ s =>
      (readPair s .extTemp).bind fun p s =>
        (readTemp p.1 p.2 s).bind fun x s =>
          .ok { Results.zero with status := x.2, r32 := x.1, rbHi := p.1, rbLo := p.2 } s

/-- EXT_TEMP_READ: read and decode the external temperature (R196). -/
def execExtTempRead (s : State) : Host.Outcome State Fault Refusal :=
  perform s .extTempRead extTempReadBody

/-- FAN_RPM_GET's body (R197). -/
def fanRpmGetBody (s : State) : Res Results :=
  (readPair s .tach).bind fun p s =>
    .ok { okWord (tachToRpm s.cfg.lit (pairValue p.1 p.2)) with rbHi := p.1, rbLo := p.2 } s

/-- MIN_RPM_GET's body (R198). -/
def minRpmGetBody (s : State) : Res Results :=
  (readPair s .tachLimit).bind fun p s => .ok (okWord (tachToRpm s.cfg.lit (pairValue p.1 p.2))) s

/-- FAN_RPM_GET: read the tachometer and convert it to RPM, with the raw pair in RB_HI and RB_LO (R197). -/
def execFanRpmGet (s : State) : Host.Outcome State Fault Refusal := perform s .fanRpmGet fanRpmGetBody

/-- MIN_RPM_GET: read the tach-limit pair and convert it to RPM (R198). -/
def execMinRpmGet (s : State) : Host.Outcome State Fault Refusal := perform s .minRpmGet minRpmGetBody

/-- The high byte of a 16-bit count, `t[15:8]` (R199). -/
def highByte (t : BitVec 16) : Byte := t.extractLsb' 8 8

/-- The low byte of a 16-bit count, `t[7:0]` (R199). -/
def lowByte (t : BitVec 16) : Byte := t.extractLsb' 0 8

/-- MIN_RPM_SET's body (R199). -/
def minRpmSetBody (r : Word32) (s : State) : Res Results :=
  (writePair s .tachLimit (highByte (rpmToTach s.cfg.lit r)) (lowByte (rpmToTach s.cfg.lit r))).bind
    fun _ s => .ok okNone s

/-- MIN_RPM_SET: convert an RPM to a tach count and write the tach-limit pair (R199). -/
def execMinRpmSet (r : Word32) (s : State) : Host.Outcome State Fault Refusal :=
  perform s (.minRpmSet r) (minRpmSetBody r)

end Sys2Proof.Machine
end

