-- ==== Sys2Proof/Machine/BitField.lean ====
section
/-! DEFINITION. Scalar bitfield codecs: BF_DECODE and BF_ENCODE (40_bitfield_codec.md, R100 to R110). -/

namespace Sys2Proof.Machine

/-- The bit slice of field f: `b[f.lo + f.w - 1 : f.lo]` (R102). -/
def fieldSlice (f : BitField) (b : Byte) : Nat := b.toNat / 2 ^ f.lo % 2 ^ f.w

/-- The value of code x under a kind: an unrecognised `Enum` code becomes the fallback (R102). -/
def resolveCode : FieldKind → Nat → Nat
  | .bool, x => x
  | .raw, x => x
  | .enum codes fb, x => if codes.contains x then x else fb

/-- The field's value in byte b (R102). -/
def fieldValue (f : BitField) (b : Byte) : Nat := resolveCode f.kind (fieldSlice f b)

/-- `decode_L` (R102): one slot per field in layout order, unused slots 0. -/
def decodeLayout (l : Layout) (b : Byte) : Bytes8 :=
  bytes8 (l.fields.map fun f => BitVec.ofNat 8 (fieldValue f b))

/-- Whether a slot value lies in the field's domain (R105). -/
def inDomain (f : BitField) (x : Nat) : Bool :=
  decide (x < 2 ^ f.w) &&
  match f.kind with
  | .bool => true
  | .raw => true
  | .enum codes _ => codes.contains x

/-- The lowest slot, from slot k on, whose value is outside its field's domain (R105, R244). -/
def badSlot (v : Bytes8) : List BitField → Nat → Option Nat
  | [], _ => none
  | f :: fs, k => if inDomain f (ovSlot v k).toNat then badSlot v fs (k + 1) else some k

/-- The OR of `v[k] << fields[k].lo`, from slot k on, into x (R105). -/
def orSlots (v : Bytes8) : List BitField → Nat → Nat → Nat
  | [], _, x => x
  | f :: fs, k, x => orSlots v fs (k + 1) (x ||| ((ovSlot v k).toNat <<< f.lo))

/-- `encode_L` (R105): the failing slot, or the byte with FORCED set. -/
def encodeLayout (l : Layout) (v : Bytes8) : Except Nat Byte :=
  match badSlot v l.fields 0 with
  | some k => .error k
  | none => .ok (BitVec.ofNat 8 (orSlots v l.fields 0 l.forced.toNat))

/-- BF_DECODE's body (R103). -/
def bfDecodeBody (ls b : Byte) (s : State) : Res Results :=
  match layoutOf s.cfg ls with
  | none => .raise .programmerError (ls.setWidth 32) s
  | some l => .ok { Results.zero with status := statusOk, rv := decodeLayout l b } s

/-- BF_ENCODE's body (R104): PROGRAMMER_ERROR before INVALID_OPERAND (R244). -/
def bfEncodeBody (ls : Byte) (s : State) : Res Results :=
  match layoutOf s.cfg ls with
  | none => .raise .programmerError (ls.setWidth 32) s
  | some l =>
    match encodeLayout l s.ov with
    | .error k => .raise .invalidOperand (BitVec.ofNat 32 k) s
    | .ok b => .ok (okWord (b.setWidth 32)) s

/-- BF_DECODE: decode one register byte under a layout (R103). -/
def execBfDecode (ls b : Byte) (s : State) : Host.Outcome State Fault Refusal :=
  perform s (.bfDecode ls b) (bfDecodeBody ls b)

/-- BF_ENCODE: encode the field-value vector OV into a register byte (R104). -/
def execBfEncode (ls : Byte) (s : State) : Host.Outcome State Fault Refusal :=
  perform s (.bfEncode ls) (bfEncodeBody ls)

end Sys2Proof.Machine
end

