-- ==== Sys2Proof/Machine/Lut.lean ====
section
/-! DEFINITION. The lookup-table manager: LUT_READ, LUT_WRITE, LUT_HYST_READ and LUT_HYST_WRITE
(43_lut.md, R170 to R177). -/

namespace Sys2Proof.Machine

/-- `lut_clamp(j, b)` (R173): a temperature at even j, a speed at odd j. -/
def lutClamp (l : Literals) (j : Nat) (b : Byte) : Byte :=
  minByte b (if j % 2 = 0 then l.lutTempMax else l.lutSpeedMax)

/-- The writes of LUT_WRITE: clamped entries, ascending (R172). -/
def lutWrites (c : Cfg) (image : Bytes16) : List (BitVec 8 × BitVec 8) :=
  (List.range (lutLength c)).map fun j => (lutAddr c j, lutClamp c.lit j (obufSlot image j))

/-- LUT_READ's body (R171). -/
def lutReadBody (s : State) : Res Results :=
  (readList s (lutAddrs s.cfg)).bind fun vs s =>
    .ok { Results.zero with status := statusOk, rbuf := bytes16 vs } s

/-- LUT_WRITE's body (R172). -/
def lutWriteBody (s : State) : Res Results :=
  (writeList s (lutWrites s.cfg s.obuf)).bind fun _ s => .ok okNone s

/-- LUT_HYST_READ's body (R174). -/
def lutHystReadBody (s : State) : Res Results :=
  (memRead s s.cfg.lutHyst).bind fun v s => .ok (okWord (v.setWidth 32)) s

/-- LUT_HYST_WRITE's body (R175). -/
def lutHystWriteBody (b : Byte) (s : State) : Res Results :=
  (memWrite s s.cfg.lutHyst b).bind fun _ s => .ok okNone s

/-- LUT_READ: read the eight entries (R171). -/
def execLutRead (s : State) : Host.Outcome State Fault Refusal := perform s .lutRead lutReadBody

/-- LUT_WRITE: clamp and write the eight entries (R172). -/
def execLutWrite (s : State) : Host.Outcome State Fault Refusal := perform s .lutWrite lutWriteBody

/-- LUT_HYST_READ: read the hysteresis byte (R174). -/
def execLutHystRead (s : State) : Host.Outcome State Fault Refusal :=
  perform s .lutHystRead lutHystReadBody

/-- LUT_HYST_WRITE: write the hysteresis byte (R175). -/
def execLutHystWrite (b : Byte) (s : State) : Host.Outcome State Fault Refusal :=
  perform s (.lutHystWrite b) (lutHystWriteBody b)

end Sys2Proof.Machine
end

