-- ==== Sys2Proof/Machine/RegisterMap.lean ====
section
/-! DEFINITION. The register-map operations: REG_READ, REG_WRITE, RESET_DEFAULTS and VALIDATE
(45_register_ops.md, R220 to R225). -/

namespace Sys2Proof.Machine

/-- REG_READ's body (R220). -/
def regReadBody (a : Byte) (s : State) : Res Results :=
  (memRead s a).bind fun v s => .ok (okWord (v.setWidth 32)) s

/-- REG_WRITE's body (R221). -/
def regWriteBody (a b : Byte) (s : State) : Res Results := (memWrite s a b).bind fun _ s => .ok okNone s

/-- REG_READ: read one register (R220). -/
def execRegRead (a : Byte) (s : State) : Host.Outcome State Fault Refusal :=
  perform s (.regRead a) (regReadBody a)

/-- REG_WRITE: write one register (R221). -/
def execRegWrite (a b : Byte) (s : State) : Host.Outcome State Fault Refusal :=
  perform s (.regWrite a b) (regWriteBody a b)

/-- The writes of RESET_DEFAULTS (R222): FAN_CONFIG's default with the table released, every other default in
list order, FAN_CONFIG's default. -/
def resetWrites (c : Cfg) : List (BitVec 8 × BitVec 8) :=
  (c.fanConfig, setBit (defaultOf c c.fanConfig) c.lutCtrlBit (!c.lutCtrlActive)) ::
    c.defaults.filter (fun e => e.1 != c.fanConfig) ++ [(c.fanConfig, defaultOf c c.fanConfig)]

/-- RESET_DEFAULTS's body (R222). -/
def resetDefaultsBody (s : State) : Res Results :=
  (writeList s (resetWrites s.cfg)).bind fun _ s => .ok okNone s

/-- RESET_DEFAULTS: write the register-default table (R222). -/
def execResetDefaults (s : State) : Host.Outcome State Fault Refusal :=
  perform s .resetDefaults resetDefaultsBody

/-- How many of the bytes read differ from their defaults (R223). -/
def mismatches (defaults : List (BitVec 8 × BitVec 8)) (vs : List Byte) : Nat :=
  (defaults.zip vs).countP fun e => e.1.2 != e.2

/-- The result ports for a count of n mismatches (R223). -/
def countResults (n : Nat) : Results :=
  { Results.zero with status := validateCode n, r32 := BitVec.ofNat 32 n }

/-- VALIDATE's body (R223). -/
def validateBody (s : State) : Res Results :=
  (readList s (s.cfg.defaults.map Prod.fst)).bind fun vs s =>
    .ok (countResults (mismatches s.cfg.defaults vs)) s

/-- VALIDATE: compare every RW register with its default (R223). -/
def execValidate (s : State) : Host.Outcome State Fault Refusal := perform s .validate validateBody

end Sys2Proof.Machine
end

