-- ==== Sys2Proof/Machine/Dispatch.lean ====
section
/-! DEFINITION. The dispatch: one arm per operation of the opcode map (R63), each one direct call of its
meaning. -/

namespace Sys2Proof.Machine

/-- The meaning of an operation. -/
def exec (i : Instr) (s : State) : Host.Outcome State Fault Refusal :=
  match i with
  | .bfDecode ls b => Sys2Proof.Machine.execBfDecode ls b s
  | .bfEncode ls => Sys2Proof.Machine.execBfEncode ls s
  | .tachToRpm t => Sys2Proof.Machine.execTachToRpm t s
  | .rpmToTach r => Sys2Proof.Machine.execRpmToTach r s
  | .tempDecode msb lsb => Sys2Proof.Machine.execTempDecode msb lsb s
  | .tempEncode v => Sys2Proof.Machine.execTempEncode v s
  | .ltempDecode whole frac => Sys2Proof.Machine.execLtempDecode whole frac s
  | .ltempEncode v => Sys2Proof.Machine.execLtempEncode v s
  | .lutRead => Sys2Proof.Machine.execLutRead s
  | .lutWrite => Sys2Proof.Machine.execLutWrite s
  | .lutHystRead => Sys2Proof.Machine.execLutHystRead s
  | .lutHystWrite b => Sys2Proof.Machine.execLutHystWrite b s
  | .fanSpeedGet => Sys2Proof.Machine.execFanSpeedGet s
  | .fanSpeedSet speed => Sys2Proof.Machine.execFanSpeedSet speed s
  | .intLimitSet v => Sys2Proof.Machine.execIntLimitSet v s
  | .extTempRead => Sys2Proof.Machine.execExtTempRead s
  | .fanRpmGet => Sys2Proof.Machine.execFanRpmGet s
  | .minRpmGet => Sys2Proof.Machine.execMinRpmGet s
  | .minRpmSet r => Sys2Proof.Machine.execMinRpmSet r s
  | .regRead a => Sys2Proof.Machine.execRegRead a s
  | .regWrite a b => Sys2Proof.Machine.execRegWrite a b s
  | .resetDefaults => Sys2Proof.Machine.execResetDefaults s
  | .validate => Sys2Proof.Machine.execValidate s

end Sys2Proof.Machine
end

