-- ==== Sys2Proof/Machine/Step.lean ====
section
/-! DEFINITION. One step: the host's next move (R256). Issuing a command runs one whole operation, from IDLE
to IDLE (R27, R47). -/

namespace Sys2Proof.Machine

/-- The host issues the word w (R23, R256): the operation it decodes to, or ILLEGAL_COMMAND (R64). -/
def issue (w : Command) (s : State) : Host.Outcome State Fault Refusal :=
  match decode w with
  | .ok i => exec i (setCommand s w)
  | .error _ => .next (illegalCommand (setCommand s w))

/-- One move of the host while the block is IDLE (R256). -/
def hostMove (m : HostMove) (s : State) : Host.Outcome State Fault Refusal :=
  match m with
  | .setOv v => .next { s with ov := v }
  | .setObuf v => .next { s with obuf := v }
  | .issue w => issue w s
  | .read p => hostRead s p

/-- One step. An ill-formed configuration has no run (R28, R247); a BUSY block takes no move (R27); with no
move pending the block waits in IDLE (R270, R278). -/
def step (s : State) : Host.Outcome State Fault Refusal :=
  if cfgWf s.cfg then
    match s.seq, s.moves with
    | .busy _ _, _ => .fault .hostMoveWhileBusy
    | .idle, [] => .next s
    | .idle, m :: ms => hostMove m { s with moves := ms }
  else .refused .illFormedConfig

/-- The state with a table row's word as the host's next move, the block IDLE to take it (entry 6). -/
def State.withFetchWord (s : State) (nbits w : Nat) : State :=
  { s with seq := .idle, moves := .issue (tableWord nbits w) :: s.moves }

end Sys2Proof.Machine
end

