-- ==== Sys2Proof/Machine/Assembler.lean ====
section
/-! DEFINITION. The assembler's lines as structured data (R66): commands, the directives `.ov`, `.obuf` and
`.reg`, and the pseudo-instructions `LUT_FILL` and `NOP`, with the host moves each stands for. -/

namespace Sys2Proof.Machine

/-- One line of a program (R66). -/
inductive AsmLine where
  | command (i : Instr)                 -- `MNEMONIC operand, operand`
  | ov (vs : List (BitVec 8))           -- `.ov v0, ..., v7`; missing trailing values are 0
  | obuf (vs : List (BitVec 8))         -- `.obuf b0, ..., b15`
  | reg (a v : BitVec 8)                -- `.reg a, v`: sets `REG[a]` in a start state
  | lutFill (t sp : BitVec 8)           -- `LUT_FILL t, s`
  | nop                                 -- `NOP`
  deriving DecidableEq, Repr

/-- `t, s, t, s, ...`: the image `LUT_FILL` loads (R66). -/
def lutFillImage (t sp : BitVec 8) : Bytes16 :=
  Vector.ofFn fun j => if j.val % 2 = 0 then t else sp

/-- The host moves a line stands for (R66). -/
def asmMoves (c : Cfg) : AsmLine → List HostMove
  | .command i => [.issue (encode i)]
  | .ov vs => [.setOv (bytes8 vs)]
  | .obuf vs => [.setObuf (bytes16 vs)]
  | .reg _ _ => []
  | .lutFill t sp => [.setObuf (lutFillImage t sp), .issue (encode .lutWrite)]
  | .nop => [.issue (encode (.regRead c.config))]

/-- A line's effect on the start state: `.reg` sets `REG[a]`, any other line adds its moves (R66). -/
def asmLine (s : State) (x : AsmLine) : State :=
  match x with
  | .reg a v => setReg s a v
  | x => { s with moves := s.moves ++ asmMoves s.cfg x }

/-- A start state with a program's lines taken in order (R66). -/
def assemble (s : State) (p : List AsmLine) : State := p.foldl asmLine s

end Sys2Proof.Machine
end

