-- ==== Sys2Proof/Safety.lean ====
section
/-! DEFINITION. The terms claims are stated in: what the environment and the configuration are assumed to
do, the launch premise, the final observation, the frames of operations, and the invariant of the machine. -/

namespace Sys2Proof.Machine

/-! ## Premises -/

/-- The literals are the ones the source states (R7). -/
abbrev sourceLiterals (s : State) : Prop := s.cfg.lit = Literals.source

/-- The environment fails none of the next n transactions ("provided that no bus error occurs"). -/
abbrev answersOk (s : State) (n : Nat) : Prop := ∀ k, k < n → (s.env.at k).fails = false

/-- The environment fails the transaction after n that succeed. -/
abbrev failsAfter (s : State) (n : Nat) : Prop := answersOk s n ∧ (s.env.at n).fails = true

/-- The named registers of R8 other than the table's. -/
def otherNames (c : Cfg) : List Addr :=
  [c.config, c.alertMask, c.convRate, c.fanConfig, c.spinUp, c.avgFilter, c.betaComp, c.fanSetting,
    c.lutHyst, c.intHighLimit, c.oneShot, c.extTemp.hi, c.extTemp.lo, c.tach.hi, c.tach.lo,
    c.tachLimit.hi, c.tachLimit.lo]

/-- Every register a rule names, each once: the others of R8 and the table's. -/
def namedAddrs (c : Cfg) : List Addr := otherNames c ++ lutAddrs c

/-- No two names are one address. R28 does not ask it (entry 14); laws that need it say so. -/
abbrev namesDistinct (c : Cfg) : Prop := (namedAddrs c).Nodup

/-- R34: the launch premise `CleanPowerOn`. RO registers are draws, so it says nothing of them. -/
def cleanPowerOn (s : State) : Prop :=
  (∀ a, attrOf s.cfg a = .rw → regAt s a = defaultOf s.cfg a) ∧ s.latches = Latches.empty

/-- R246: `FAULTS = ∅`. -/
abbrev noFaults (s : State) : Prop := s.faults = FaultSet.empty

/-! ## Observation (R278) -/

/-- The final observation of a run (R278). -/
structure Observation where
  results : Option Results   -- none where no operation has completed
  rwRegs : List (BitVec 8 × BitVec 8)
  history : List Event
  faults : FaultSet
  deriving DecidableEq, Repr

/-- What a run's end shows (R278): result ports, the RW part of `REG`, the history, and `FAULTS`. R278 does not say what
the result ports of a run without an operation are; the model shows none, since they hold no value (R33; DESIGN CHOICE,
entry 4). -/
def observe (s : State) : Observation where
  results := if s.resultsWritten then some s.results else none
  rwRegs := s.cfg.defaults.map fun e => (e.1, regAt s e.1)
  history := s.history
  faults := s.faults

/-! ## Encodings -/

/-- The command bits an operation's decoding reads: OP, RSV and the operand fields of R63's table. -/
def usedMask : Instr → BitVec 64
  | .bfDecode _ _ => 0x00000000FFFFFFFF#64
  | .bfEncode _ => 0x00000000FF00FFFF#64
  | .tachToRpm _ => 0x0000FFFFFF0000FF#64
  | .rpmToTach _ => 0xFFFFFFFFFF0000FF#64
  | .tempDecode _ _ => 0x00000000FFFFFFFF#64
  | .tempEncode _ => 0xFFFFFFFFFF0000FF#64
  | .ltempDecode _ _ => 0x00000000FFFFFFFF#64
  | .ltempEncode _ => 0xFFFFFFFFFF0000FF#64
  | .lutRead => 0x00000000FF0000FF#64
  | .lutWrite => 0x00000000FF0000FF#64
  | .lutHystRead => 0x00000000FF0000FF#64
  | .lutHystWrite _ => 0x00000000FF00FFFF#64
  | .fanSpeedGet => 0x00000000FF0000FF#64
  | .fanSpeedSet _ => 0x00000000FF00FFFF#64
  | .intLimitSet _ => 0xFFFFFFFFFF0000FF#64
  | .extTempRead => 0x00000000FF0000FF#64
  | .fanRpmGet => 0x00000000FF0000FF#64
  | .minRpmGet => 0x00000000FF0000FF#64
  | .minRpmSet _ => 0xFFFFFFFFFF0000FF#64
  | .regRead _ => 0x00000000FF00FFFF#64
  | .regWrite _ _ => 0x00000000FFFFFFFF#64
  | .resetDefaults => 0x00000000FF0000FF#64
  | .validate => 0x00000000FF0000FF#64

/-! ## Frames -/

/-- The ports, the configuration and the host's side are as before: no operation writes any of them. -/
structure SamePorts (s t : State) : Prop where
  cfg : t.cfg = s.cfg
  cmd : t.cmd = s.cmd
  ov : t.ov = s.ov
  obuf : t.obuf = s.obuf
  moves : t.moves = s.moves
  received : t.received = s.received

/-- The register space and its transactions are as before: the operation performed none. -/
structure NoTransaction (s t : State) : Prop where
  mem : t.mem = s.mem
  latches : t.latches = s.latches
  history : t.history = s.history
  answers : t.env.answers = s.env.answers
  served : t.env.served = s.env.served

/-- Whether an operation may perform a bus transaction; the codecs and converters perform none (R100, R121,
R142, R145, R149, R151). -/
def usesBus : Instr → Bool
  | .bfDecode _ _ => false
  | .bfEncode _ => false
  | .tachToRpm _ => false
  | .rpmToTach _ => false
  | .tempDecode _ _ => false
  | .tempEncode _ => false
  | .ltempDecode _ _ => false
  | .ltempEncode _ => false
  | .lutRead => true
  | .lutWrite => true
  | .lutHystRead => true
  | .lutHystWrite _ => true
  | .fanSpeedGet => true
  | .fanSpeedSet _ => true
  | .intLimitSet _ => true
  | .extTempRead => true
  | .fanRpmGet => true
  | .minRpmGet => true
  | .minRpmSet _ => true
  | .regRead _ => true
  | .regWrite _ _ => true
  | .resetDefaults => true
  | .validate => true

/-- The latches of pairs that hold none of the given addresses are as before. -/
def latchesOutside (s t : State) (as : List Addr) : Prop :=
  ∀ p, (∀ a, a ∈ as → inPair (pairCfg s.cfg p) a = false) → latchOf t.latches p = latchOf s.latches p

/-- Every register but the given addresses reads as before. -/
def regsOutside (s t : State) (as : List Addr) : Prop := ∀ a, a ∉ as → regAt t a = regAt s a

/-- The registers EXT_TEMP_READ stores to (R196): ONE_SHOT when the byte it reads from CONFIG has the standby bit
set, none otherwise. -/
def extTempStores (s : State) : List Addr :=
  match memRead (start s .extTempRead) s.cfg.config with
  | .ok c _ => if bitOf c s.cfg.standbyBit then [s.cfg.oneShot] else []
  | .raise _ _ _ => []

/-- The code is one of R240's table. -/
def listedStatus (x : Byte) : Prop :=
  x ∈ [0x00#8, 0x01#8, 0x02#8, 0x03#8, 0x04#8, 0x80#8, 0x81#8, 0x82#8, 0x83#8, 0x84#8, 0x85#8]

/-- Every result port but STATUS and R32 is zero (R243). -/
structure OtherPortsZero (r : Results) : Prop where
  rbHi : r.rbHi = 0#8
  rbLo : r.rbLo = 0#8
  rv : r.rv = .replicate 8 0#8
  rbuf : r.rbuf = .replicate 16 0#8

/-! ## The invariant -/

/-- The bytes listed in `mem` are in canonical form, and only RW addresses are listed (R29). -/
structure MemInv (s : State) : Prop where
  canonical : Memory.wf (background s.cfg) s.mem = true
  onlyRw : ∀ e, e ∈ s.mem → e.1 < 256 ∧ attrOf s.cfg (BitVec.ofNat 8 e.1) = .rw

/-- A latch is held only by a latching pair, and a latched byte of an RW pair is the register's (R30, R45). -/
structure LatchInv (s : State) : Prop where
  latching : ∀ p, (latchOf s.latches p).isSome → (pairCfg s.cfg p).latching = true
  coherent : ∀ p b, latchOf s.latches p = some b → attrOf s.cfg (secondAddr (pairCfg s.cfg p)) = .rw →
    b = regAt s (secondAddr (pairCfg s.cfg p))

/-- Once written, STATUS is a code of R240; a fault code is in `FAULTS` and goes with zeroed ports (R243, R246). -/
structure ResultInv (s : State) : Prop where
  listed : s.resultsWritten = true → listedStatus s.results.status
  fault : s.resultsWritten = true → s.results.status.getLsbD 7 = true →
    OtherPortsZero s.results ∧ ∃ f, s.results.status = faultCode f ∧ hasFault s.faults f = true

/-- The invariant every step keeps: the sequencer is IDLE between operations (R27), and the three above. -/
structure MachineInv (s : State) : Prop where
  idle : s.seq = .idle
  mem : MemInv s
  latch : LatchInv s
  result : ResultInv s

end Sys2Proof.Machine
end

