-- ==== Sys2Proof/Certificates/Slice0/Obligations.lean ====
section
/-! DEFINITION. The statements for the provers, each about the machine and none about a program. -/

open Sys2Proof Sys2Proof.Machine

/-! ## Encoding (30_encoding.md) -/

/-- R60, R62, R63: decoding the encoding of any operation gives it back, with every operand at every value. Derived:
the command format is the spec's own decision (R60, R62, R63; D2, D3). -/
def Obligations.DecodeOfEncode : Prop := ∀ i : Instr, decode (encode i) = .ok i

/-- R62, R63, R65: a word decodes to an operation exactly when, with the fields the operation does not use masked
off, it is the operation's encoding. So RSV = 0x00, OP and the used fields decide, and nothing else. Derived:
the spec's decisions D2, D3, D5. -/
def Obligations.DecodeReadsExactlyTheUsedBits : Prop :=
  ∀ (w : BitVec 64) (i : Instr), decode w = .ok i ↔ w &&& usedMask i = encode i

/-- One word of each family, written out from R60 and R63, and three words of R64. Derived: the spec's decisions D2,
D3, D4; the names of the decoding errors are the model's. -/
def Obligations.SpecWordsDecode : Prop :=
  decode 0x0000000000FF0101#64 = .ok (.bfDecode 0x01#8 0xFF#8) ∧
  decode 0xFFFF151800000010#64 = .ok (.tachToRpm 5400#16) ∧
  decode 0x0000000000601920#64 = .ok (.tempDecode 0x19#8 0x60#8) ∧
  decode 0x0000000000000433#64 = .ok (.lutHystWrite 4#8) ∧
  decode 0x000003E800000046#64 = .ok (.minRpmSet 1000#32) ∧
  decode 0x0000000000105051#64 = .ok (.regWrite 0x50#8 0x10#8) ∧
  decode 0x0000000000000000#64 = .error .zeroOpcode ∧
  decode 0x0000000001000350#64 = .error .reservedBits ∧
  decode 0x00000000000000E0#64 = .error .extensionOpcode

/-- R23, R256: when the host's next move issues a word that decodes to i, the step is i's meaning in the state with
that move taken and the word in CMD. Derived: the host's pending moves as a list, and one operation a step, are
the model's choices (log entries 6, 7). -/
def Obligations.StepRunsDecodedInstruction : Prop :=
  ∀ (s : State) (w : BitVec 64) (ms : List HostMove) (i : Instr),
    cfgWf s.cfg = true → s.seq = .idle → s.moves = .issue w :: ms → decode w = .ok i →
    step s = exec i { s with moves := ms, cmd := w }

/-- R64: a word with RSV ≠ 0x00 or an OP that is no operation's performs no transaction, writes ILLEGAL_COMMAND and
CMD[31:0], zeroes the other result ports, and leaves OV, OBUF and what the host has received; OP = 0x00 and OP
in 0xE0 to 0xFF are no operation's. Derived: R64 is the spec's decision D4, the fault entry D39. -/
def Obligations.IllegalCommandReported : Prop :=
  (∀ (s : State) (w : BitVec 64) (ms : List HostMove),
    cfgWf s.cfg = true → s.seq = .idle → s.moves = .issue w :: ms →
    (cmdRsv w ≠ 0x00#8 ∨ ∀ i : Instr, i.opcode ≠ cmdOp w) →
    ∃ t, step s = .next t ∧ t.results.status = 0x80#8 ∧ t.results.r32 = w.extractLsb' 0 32 ∧
      OtherPortsZero t.results ∧ NoTransaction s t ∧ t.seq = .idle ∧ t.cmd = w ∧ t.moves = ms ∧
      t.resultsWritten = true ∧ t.faults = addFault s.faults .illegalCommand ∧
      t.ov = s.ov ∧ t.obuf = s.obuf ∧ t.received = s.received ∧ t.cfg = s.cfg) ∧
  ∀ w : BitVec 64, cmdOp w = 0x00#8 ∨ 0xE0 ≤ (cmdOp w).toNat → ∀ i : Instr, i.opcode ≠ cmdOp w

/-! ## The whole machine -/

/-- R243, R245: every operation ends in a next state, whatever the state and the operands; a fault is a result.
Derived: the spec's decisions D38, D39; one operation a step is log entry 7. -/
def Obligations.EveryOperationEndsInANextState : Prop :=
  ∀ (i : Instr) (s : State), ∃ t, exec i s = .next t ∧ t.seq = .idle ∧ t.resultsWritten = true

/-- The invariant `MachineInv`: IDLE between operations (R27), memory in canonical form with only RW addresses
listed (R29), latches held only by latching pairs and coherent (R30, R45), and result ports as R240, R243 and
R246 leave them. Every step keeps it. Derived: it rests on the spec's decisions D6, D10, D11, D38, D39 and on
log entries 3 (what an unlisted byte reads as) and 11. -/
def Obligations.StepKeepsInv : Prop := ∀ s t : State, MachineInv s → step s = .next t → MachineInv t

/-- `MachineInv` holds after reset, whatever the configuration. Derived: the reset state rests on log entries 2 to
5. -/
def Obligations.ResetHasInv : Prop := (∀ c : Cfg, MachineInv (State.resetWith c)) ∧ MachineInv State.reset

/-- R33, R34, R270: after reset the sequencer is IDLE, no result port holds a value, every latch is empty, every RW
register holds its default (the premise CleanPowerOn, the model's choice of log entry 3), and the history and
FAULTS are empty. Derived: the spec's decisions D34, D48; that the RW registers hold their defaults is the
model's choice of the premise CleanPowerOn (log entry 3). -/
def Obligations.ResetLeavesIdleAndDefaults : Prop :=
  ∀ c : Cfg, (State.resetWith c).seq = .idle ∧ (State.resetWith c).resultsWritten = false ∧
    cleanPowerOn (State.resetWith c) ∧ (State.resetWith c).history = [] ∧ noFaults (State.resetWith c)

/-- R28, R247: an ill-formed configuration has no run. Derived: the spec's decision D31; that the step refuses is
log entry 21, and what is asked beyond R28's conditions is log entries 15, 16, 17, 26 and 27. -/
def Obligations.IllFormedConfigHasNoRun : Prop :=
  ∀ s : State, cfgWf s.cfg = false → step s = .refused .illFormedConfig

/-- R33, R256: a host read of a port is a fault of the model before the first operation has completed, and gives the
port's value after; setting OV or OBUF changes that port alone. Derived: the spec's decisions D37, D48; that the
read stops the machine is log entry 4, the list of moves log entries 6 and 18. -/
def Obligations.HostPortMoves : Prop :=
  ∀ (s : State) (ms : List HostMove), cfgWf s.cfg = true → s.seq = .idle →
    (∀ p, s.moves = .read p :: ms → s.resultsWritten = false → step s = .fault (.portUnwritten p)) ∧
    (∀ p, s.moves = .read p :: ms → s.resultsWritten = true →
      step s = .next { s with moves := ms, received := s.received ++ [(p, portValue s.results p)] }) ∧
    (∀ v, s.moves = .setOv v :: ms → step s = .next { s with moves := ms, ov := v }) ∧
    (∀ v, s.moves = .setObuf v :: ms → step s = .next { s with moves := ms, obuf := v })

/-- R28, R35, R246: no step writes the configuration, clears a fault mark, or takes an event out of the history;
result ports once written stay written. Derived: the spec's decisions D31, D37, D39. -/
def Obligations.StepKeepsCfgMarksAndHistory : Prop :=
  ∀ s t : State, step s = .next t →
    t.cfg = s.cfg ∧ (∀ f, hasFault s.faults f = true → hasFault t.faults f = true) ∧
    s.history <+: t.history ∧ (s.resultsWritten = true → t.resultsWritten = true)

/-- R21, R35, R65: two states that agree on the configuration, the registers, the latches and the environment, and
on OV for BF_ENCODE and OBUF for LUT_WRITE, give the same results, registers, latches and new events, whatever
else they hold: earlier results, history, fault marks, command port, unread operand ports. Derived: the spec
marks R21 as derived; the environment's answers as state are log entry 8. -/
def Obligations.ResultsDependOnlyOnTheirInputs : Prop :=
  ∀ (i : Instr) (s s' : State), s'.cfg = s.cfg → s'.mem = s.mem → s'.latches = s.latches → s'.env = s.env →
    ((∃ ls, i = .bfEncode ls) → s'.ov = s.ov) → (i = .lutWrite → s'.obuf = s.obuf) →
    ∃ t t', exec i s = .next t ∧ exec i s' = .next t' ∧ t'.results = t.results ∧ t'.mem = t.mem ∧
      t'.latches = t.latches ∧ t'.env = t.env ∧
      ∃ es, t.history = s.history ++ es ∧ t'.history = s'.history ++ es

/-- R240, R243, R246: an operation that ends with bit 7 of STATUS set was abandoned with one of the six faults, its
other ports are zero and the code joins FAULTS; one that ends with bit 7 clear leaves FAULTS alone. Derived: the
spec's decision D39. -/
def Obligations.FaultEntryZeroesPortsAndMarks : Prop :=
  ∀ (i : Instr) (s t : State), exec i s = .next t →
    (t.results.status.getLsbD 7 = true → OtherPortsZero t.results ∧
      ∃ f, t.results.status = faultCode f ∧ t.faults = addFault s.faults f) ∧
    (t.results.status.getLsbD 7 = false → t.faults = s.faults)

/-- R240: each code is written only by the operations of its row, for a well-formed configuration whose names are
distinct registers; and no other code is ever written. Derived: the spec's decision D6; that names are distinct
registers is a premise R28 does not ask for (log entry 14). -/
def Obligations.StatusCodesAndTheirWriters : Prop :=
  ∀ (i : Instr) (s t : State), cfgWf s.cfg = true → namesDistinct s.cfg → exec i s = .next t →
    listedStatus t.results.status ∧ t.results.status ≠ 0x80#8 ∧
    (t.results.status = 0x01#8 ∨ t.results.status = 0x02#8 →
      (∃ m l, i = .tempDecode m l) ∨ i = .extTempRead) ∧
    (t.results.status = 0x03#8 → ∃ v, i = .intLimitSet v) ∧
    (t.results.status = 0x04#8 → i = .validate) ∧
    (t.results.status = 0x81#8 → usesBus i = true) ∧
    (t.results.status = 0x82#8 → (∃ ls, i = .bfEncode ls) ∨ (∃ v, i = .tempEncode v) ∨ ∃ v, i = .ltempEncode v) ∧
    (t.results.status = 0x83#8 → (∃ ls b, i = .bfDecode ls b) ∨ ∃ ls, i = .bfEncode ls) ∧
    (t.results.status = 0x84#8 → i = .lutWrite ∨ ∃ a b, i = .regWrite a b) ∧
    (t.results.status = 0x85#8 → (∃ a, i = .regRead a) ∨ ∃ a b, i = .regWrite a b)

/-! ## Frames -/

/-- R100: BF_DECODE, BF_ENCODE, TACH_TO_RPM, RPM_TO_TACH, TEMP_DECODE, TEMP_ENCODE, LTEMP_DECODE and LTEMP_ENCODE
change no operand port, no register, no latch and no event, and use no bus answer. Derived: read from the
operations' pseudocode. -/
def Obligations.CodecsPerformNoTransaction : Prop :=
  ∀ (i : Instr) (s t : State), usesBus i = false → exec i s = .next t → SamePorts s t ∧ NoTransaction s t

/-- R42: LUT_READ, LUT_HYST_READ, FAN_SPEED_GET, FAN_RPM_GET, MIN_RPM_GET, REG_READ and VALIDATE change no operand
port and no register, and only latches of pairs that hold an address they read. Derived: the spec's decisions
D11, D33 (log entries 12, 22). -/
def Obligations.ReadsLeaveRegistersUnchanged : Prop :=
  ∀ (s t : State),
    (exec .lutRead s = .next t →
      SamePorts s t ∧ regsOutside s t [] ∧ latchesOutside s t (lutAddrs s.cfg)) ∧
    (exec .lutHystRead s = .next t →
      SamePorts s t ∧ regsOutside s t [] ∧ latchesOutside s t [s.cfg.lutHyst]) ∧
    (exec .fanSpeedGet s = .next t →
      SamePorts s t ∧ regsOutside s t [] ∧ latchesOutside s t [s.cfg.fanSetting]) ∧
    (exec .fanRpmGet s = .next t →
      SamePorts s t ∧ regsOutside s t [] ∧ latchesOutside s t [s.cfg.tach.hi, s.cfg.tach.lo]) ∧
    (exec .minRpmGet s = .next t →
      SamePorts s t ∧ regsOutside s t [] ∧ latchesOutside s t [s.cfg.tachLimit.hi, s.cfg.tachLimit.lo]) ∧
    (∀ a, exec (.regRead a) s = .next t →
      SamePorts s t ∧ regsOutside s t [] ∧ latchesOutside s t [a]) ∧
    (exec .validate s = .next t →
      SamePorts s t ∧ regsOutside s t [] ∧ latchesOutside s t (s.cfg.defaults.map Prod.fst))

/-- R43: LUT_WRITE, LUT_HYST_WRITE, FAN_SPEED_SET, INT_LIMIT_SET, EXT_TEMP_READ, MIN_RPM_SET, REG_WRITE and
RESET_DEFAULTS change no operand port, no register but those they store to (ONE_SHOT for EXT_TEMP_READ in
standby; none outside standby, and none for a limit INT_LIMIT_SET does not accept), and only latches of pairs
that hold an address they access. Derived: the spec's decisions D11, D33 (log entries 12, 22). -/
def Obligations.WritesLeaveOtherRegistersUnchanged : Prop :=
  ∀ (s t : State),
    (exec .lutWrite s = .next t → SamePorts s t ∧
      regsOutside s t ((lutWrites s.cfg s.obuf).map Prod.fst) ∧
      latchesOutside s t ((lutWrites s.cfg s.obuf).map Prod.fst)) ∧
    (∀ b, exec (.lutHystWrite b) s = .next t →
      SamePorts s t ∧ regsOutside s t [s.cfg.lutHyst] ∧ latchesOutside s t [s.cfg.lutHyst]) ∧
    (∀ v, exec (.fanSpeedSet v) s = .next t →
      SamePorts s t ∧ regsOutside s t [s.cfg.fanSetting] ∧ latchesOutside s t [s.cfg.fanSetting]) ∧
    (∀ v, exec (.intLimitSet v) s = .next t → SamePorts s t ∧
      regsOutside s t (if intLimitAccepts s.cfg.lit v then [s.cfg.intHighLimit] else []) ∧
      latchesOutside s t (if intLimitAccepts s.cfg.lit v then [s.cfg.intHighLimit] else [])) ∧
    (exec .extTempRead s = .next t → SamePorts s t ∧ regsOutside s t (extTempStores s) ∧
      latchesOutside s t [s.cfg.config, s.cfg.oneShot, s.cfg.extTemp.hi, s.cfg.extTemp.lo]) ∧
    (∀ r, exec (.minRpmSet r) s = .next t → SamePorts s t ∧
      regsOutside s t [s.cfg.tachLimit.hi, s.cfg.tachLimit.lo] ∧
      latchesOutside s t [s.cfg.tachLimit.hi, s.cfg.tachLimit.lo]) ∧
    (∀ a b, exec (.regWrite a b) s = .next t →
      SamePorts s t ∧ regsOutside s t [a] ∧ latchesOutside s t [a]) ∧
    (exec .resetDefaults s = .next t → SamePorts s t ∧
      regsOutside s t ((resetWrites s.cfg).map Prod.fst) ∧
      latchesOutside s t ((resetWrites s.cfg).map Prod.fst))

/-! ## Register reads and writes (20_memory.md, R220, R221) -/

/-- R42, R220: REG_READ of an RW register gives the byte held, and records the read. Derived: the spec's decisions
D30, D32, D33. -/
def Obligations.RegReadReturnsHeldByte : Prop :=
  ∀ (s : State) (a : Addr), attrOf s.cfg a = .rw → answersOk s 1 → LatchInv s →
    ∃ t, exec (.regRead a) s = .next t ∧
      t.results = { Results.zero with r32 := (regAt s a).setWidth 32 } ∧
      t.history = s.history ++ [.read a (regAt s a)] ∧ t.faults = s.faults

/-- R42, R45: REG_READ of an RO register no latch serves gives the environment's byte; it fills the latch of each
latching pair whose first byte it is with the other byte of the same sample, and clears any other latch of a
pair that holds the address. Derived: the spec's decisions D10, D11, D32; the environment's answers as state are
log entry 8, and that two pairs with one first byte latch one drawn byte is log entry 14. -/
def Obligations.RegReadOfReadOnlyIsDraw : Prop :=
  ∀ (s : State) (a : Addr), attrOf s.cfg a = .ro → answersOk s 1 →
    (∀ p, secondAddr (pairCfg s.cfg p) = a → latchOf s.latches p = none) →
    ∃ t, exec (.regRead a) s = .next t ∧
      t.results = { Results.zero with r32 := (s.env.at 0).byte.setWidth 32 } ∧
      ∀ p, inPair (pairCfg s.cfg p) a = true → latchOf t.latches p =
        if (pairCfg s.cfg p).latching = true ∧ firstAddr (pairCfg s.cfg p) = a then some (s.env.at 0).second
        else none

/-- R42, R45(b), R45(d): REG_READ of the second byte of a pair whose latch holds b gives b and clears the latch.
Derived: the spec's decisions D10, D11. -/
def Obligations.RegReadConsumesLatch : Prop :=
  ∀ (s : State) (p : Pair) (b : Byte), attrOf s.cfg (secondAddr (pairCfg s.cfg p)) ≠ .unmapped →
    answersOk s 1 → latchOf s.latches p = some b →
    (∀ q, q ≠ p → secondAddr (pairCfg s.cfg q) ≠ secondAddr (pairCfg s.cfg p)) →
    ∃ t, exec (.regRead (secondAddr (pairCfg s.cfg p))) s = .next t ∧
      t.results = { Results.zero with r32 := b.setWidth 32 } ∧ latchOf t.latches p = none

/-- R45(b): for a latching RO pair, reading the two bytes in PAIR_ORDER gives the two bytes of one sample. Derived:
the spec's decision D10; the environment's answers as state are log entry 8. -/
def Obligations.LatchedPairIsOneSample : Prop :=
  ∀ (s : State) (p : Pair), namesDistinct s.cfg → (pairCfg s.cfg p).latching = true →
    attrOf s.cfg (firstAddr (pairCfg s.cfg p)) = .ro → attrOf s.cfg (secondAddr (pairCfg s.cfg p)) = .ro →
    answersOk s 2 →
    ∃ t u, exec (.regRead (firstAddr (pairCfg s.cfg p))) s = .next t ∧
      exec (.regRead (secondAddr (pairCfg s.cfg p))) t = .next u ∧
      t.results.r32 = (s.env.at 0).byte.setWidth 32 ∧ u.results.r32 = (s.env.at 0).second.setWidth 32

/-- R42, R43, R220, R221: an access to an UNMAPPED address is no transaction and reports UNMAPPED_REGISTER. Derived:
the spec's decision D32; that no event is recorded is log entry 19. -/
def Obligations.UnmappedAccessFaults : Prop :=
  ∀ (s : State) (a b : Addr), attrOf s.cfg a = .unmapped →
    ∀ i, i = .regRead a ∨ i = .regWrite a b →
      ∃ t, exec i s = .next t ∧
        t.results = { Results.zero with status := 0x85#8, r32 := a.setWidth 32 } ∧ NoTransaction s t ∧
        t.faults = addFault s.faults .unmappedRegister

/-- R42, R52, R174, R191, R220: a REG_READ, LUT_HYST_READ or FAN_SPEED_GET whose read fails reports BUS_ERROR with
the register's address, changes no register, and clears the latches of pairs that hold the address. Derived: the
spec's decisions D7, D11, D39. -/
def Obligations.FailedReadReportsBusError : Prop :=
  ∀ (s : State) (a : Addr), attrOf s.cfg a ≠ .unmapped → failsAfter s 0 →
    ∀ i, i = .regRead a ∨ (i = .lutHystRead ∧ a = s.cfg.lutHyst) ∨ (i = .fanSpeedGet ∧ a = s.cfg.fanSetting) →
    ∃ t, exec i s = .next t ∧
      t.results = { Results.zero with status := 0x81#8, r32 := a.setWidth 32 } ∧ t.mem = s.mem ∧
      t.history = s.history ++ [.readFailed a] ∧ t.faults = addFault s.faults .busError ∧
      ∀ p, inPair (pairCfg s.cfg p) a = true → latchOf t.latches p = none

/-- R43, R46, R221: REG_WRITE of an RW register that is neither locked nor a governed FAN_SETTING stores the byte,
records the write (as a one-shot trigger for ONE_SHOT, R48), and clears the latches of pairs that hold it. Of
FAN_SETTING while the table governs, STATUS is OK too, and the register holds the old byte or the new one.
Derived: the spec's decisions D11, D22, D25, D30, D33; how the event is recorded is log entry 19. -/
def Obligations.RegWriteStoresByte : Prop :=
  ∀ (s : State) (a b : Addr), attrOf s.cfg a = .rw → answersOk s 1 →
    ((lutGoverns s = false ∨ (isLutAddr s.cfg a = false ∧ a ≠ s.cfg.fanSetting)) →
      ∃ t, exec (.regWrite a b) s = .next t ∧ t.results = Results.zero ∧ regAt t a = b ∧
        t.history = s.history ++ [.write a b (if a = s.cfg.oneShot then .oneShot else .ok)] ∧
        t.faults = s.faults ∧ ∀ p, inPair (pairCfg s.cfg p) a = true → latchOf t.latches p = none) ∧
    (lutGoverns s = true → isLutAddr s.cfg a = false → a = s.cfg.fanSetting →
      ∃ t, exec (.regWrite a b) s = .next t ∧ t.results = Results.zero ∧
        (regAt t a = regAt s a ∨ regAt t a = b) ∧ (∀ x, x ≠ a → regAt t x = regAt s x) ∧
        t.history = s.history ++ [.write a b .ok] ∧
        t.faults = s.faults ∧ ∀ p, inPair (pairCfg s.cfg p) a = true → latchOf t.latches p = none)

/-- R44: REG_WRITE of an RO register is rejected: BUS_ERROR, no register changed, the failure recorded. Derived: the
spec's decision D8; that it uses no answer of the environment is log entry 10. -/
def Obligations.ReadOnlyWriteRejected : Prop :=
  ∀ (s : State) (a b : Addr), attrOf s.cfg a = .ro →
    ∃ t, exec (.regWrite a b) s = .next t ∧
      t.results = { Results.zero with status := 0x81#8, r32 := a.setWidth 32 } ∧ t.mem = s.mem ∧
      t.history = s.history ++ [.write a b .failed] ∧ t.faults = addFault s.faults .busError

/-- R43, R52, R175, R192, R193, R221: a REG_WRITE of an RW register, a LUT_HYST_WRITE, a FAN_SPEED_SET or an
accepted INT_LIMIT_SET whose write fails reports BUS_ERROR with the register's address, leaves the register with
the old or the new byte, and changes no other. Derived: the spec's decisions D7, D39. -/
def Obligations.FailedWriteLeavesOldOrNew : Prop :=
  ∀ (s : State) (a b : Addr), attrOf s.cfg a = .rw → failsAfter s 0 →
    ∀ i, i = .regWrite a b ∨ (i = .lutHystWrite b ∧ a = s.cfg.lutHyst) ∨
      (∃ v, i = .fanSpeedSet v ∧ a = s.cfg.fanSetting ∧ b = minByte v s.cfg.lit.fanSpeedMax) ∨
      (∃ v, i = .intLimitSet v ∧ a = s.cfg.intHighLimit ∧ intLimitAccepts s.cfg.lit v = true ∧
        b = floorByte v) →
    ∃ t, exec i s = .next t ∧
      t.results = { Results.zero with status := 0x81#8, r32 := a.setWidth 32 } ∧
      (regAt t a = regAt s a ∨ regAt t a = b) ∧ (∀ x, x ≠ a → regAt t x = regAt s x) ∧
      t.history = s.history ++ [.write a b .failed] ∧ t.faults = addFault s.faults .busError

/-- R46: REG_WRITE of a table register while the table governs raises LUT_LOCKED with its address and changes no
register. Derived: the spec's decisions D22, D25; that the refused write is recorded is log entry 19. -/
def Obligations.TableRegisterWriteLocked : Prop :=
  ∀ (s : State) (a b : Addr), attrOf s.cfg a = .rw → answersOk s 1 → isLutAddr s.cfg a = true →
    lutGoverns s = true →
    ∃ t, exec (.regWrite a b) s = .next t ∧
      t.results = { Results.zero with status := 0x84#8, r32 := a.setWidth 32 } ∧ t.mem = s.mem ∧
      t.history = s.history ++ [.write a b .refused] ∧ t.faults = addFault s.faults .lutLocked

/-! ## Bitfield codecs (40_bitfield_codec.md) -/

/-- R102: BF_DECODE writes, for each field of the layout in order, the byte's bits `lo + w - 1 .. lo`, an
unrecognised Enum code replaced by the fallback; unused slots are 0. Every byte decodes, and two bytes that
differ in FORCED bits alone decode alike. -/
def Obligations.BfDecodeGivesFieldValues : Prop :=
  ∀ (s : State) (ls b : Byte) (l : Layout), layoutOf s.cfg ls = some l → layoutWf l = true →
    ∃ t, exec (.bfDecode ls b) s = .next t ∧ t.results = { Results.zero with rv := t.results.rv } ∧
      (∀ k : Fin 8, (t.results.rv[k]).toNat =
        match l.fields[k.val]? with
        | none => 0
        | some f =>
          let x := (b.extractLsb' f.lo f.w).toNat
          match f.kind with
          | .enum codes fb => if x ∈ codes then x else fb
          | .bool => x
          | .raw => x) ∧
      ∀ b' : Byte, b' ||| l.forced = b ||| l.forced →
        ∃ t', exec (.bfDecode ls b') s = .next t' ∧ t'.results = t.results

/-- R104, R105: BF_ENCODE of a vector in the fields' domains gives the byte that has the always-set bits and, in
each field's bits, the field's value. Derived: the spec's decision D18. -/
def Obligations.BfEncodeAssemblesFields : Prop :=
  ∀ (s : State) (ls : Byte) (l : Layout), layoutOf s.cfg ls = some l → layoutWf l = true →
    (∀ (k : Nat) (f : BitField), l.fields[k]? = some f → inDomain f (ovSlot s.ov k).toNat = true) →
    ∃ t b, exec (.bfEncode ls) s = .next t ∧
      t.results = { Results.zero with r32 := (b : Byte).setWidth 32 } ∧ b &&& l.forced = l.forced ∧
      ∀ (k : Nat) (f : BitField), l.fields[k]? = some f →
        (b.extractLsb' f.lo f.w).toNat = (ovSlot s.ov k).toNat

/-- R103, R104, R105, R244: a layout id above 6 raises PROGRAMMER_ERROR with the id; else BF_ENCODE raises
INVALID_OPERAND with the lowest slot whose value is outside its field's domain. Derived: the spec's decisions
D18, D19, D39. -/
def Obligations.BitfieldOperandFaults : Prop :=
  (∀ (s : State) (ls b : Byte), 6 < ls.toNat → ∀ i, i = .bfDecode ls b ∨ i = .bfEncode ls →
    ∃ t, exec i s = .next t ∧
      t.results = { Results.zero with status := 0x83#8, r32 := ls.setWidth 32 } ∧
      t.faults = addFault s.faults .programmerError) ∧
  ∀ (s : State) (ls : Byte) (l : Layout) (k : Nat) (f : BitField), layoutOf s.cfg ls = some l →
    l.fields[k]? = some f → inDomain f (ovSlot s.ov k).toNat = false →
    (∀ j g, j < k → l.fields[j]? = some g → inDomain g (ovSlot s.ov j).toNat = true) →
    ∃ t, exec (.bfEncode ls) s = .next t ∧
      t.results = { Results.zero with status := 0x82#8, r32 := BitVec.ofNat 32 k } ∧
      t.faults = addFault s.faults .invalidOperand

/-- R106: for every well-formed layout, encoding what a byte decodes to gives a byte with the always-set bits set
and each field's bits as they were, an unrecognised Enum code replaced by its fallback (so the byte ORed with
FORCED when every code is recognised); and decoding what a vector in the domain encodes to gives the vector
back. Derived: the spec marks R106 as derived ("from rule R101, rule R102 and rule R105"). -/
def Obligations.LayoutRoundTrip : Prop :=
  ∀ l : Layout, layoutWf l = true →
    (∀ b : Byte, ∃ e, encodeLayout l (decodeLayout l b) = .ok e ∧ e &&& l.forced = l.forced ∧
      (∀ f ∈ l.fields, (e.extractLsb' f.lo f.w).toNat =
        match f.kind with
        | .enum codes fb =>
          if (b.extractLsb' f.lo f.w).toNat ∈ codes then (b.extractLsb' f.lo f.w).toNat else fb
        | .bool => (b.extractLsb' f.lo f.w).toNat
        | .raw => (b.extractLsb' f.lo f.w).toNat) ∧
      ((∀ f ∈ l.fields, ∀ codes fb, f.kind = .enum codes fb → (b.extractLsb' f.lo f.w).toNat ∈ codes) →
        e = b ||| l.forced)) ∧
    ∀ (v : Bytes8) (e : Byte), encodeLayout l v = .ok e →
      (∀ k : Fin 8, l.fields.length ≤ k.val → v[k] = 0#8) → decodeLayout l e = v

/-! ## Reciprocal converter (41_reciprocal.md) -/

/-- R121, R123: OP = 0x10 takes the count from CMD[47:32]; TACH_TO_RPM clamps it to [1, 65535] and gives ⌊5 400 000
/ count⌋, in [82, 5 400 000], with STATUS OK, no transaction and no error path. -/
def Obligations.TachToRpmResult : Prop :=
  (∀ w : BitVec 64, cmdRsv w = 0x00#8 → cmdOp w = 0x10#8 → decode w = .ok (.tachToRpm (w.extractLsb' 32 16))) ∧
  ∀ (s : State) (x : BitVec 16), sourceLiterals s →
    ∃ t, exec (.tachToRpm x) s = .next t ∧
      t.results = { Results.zero with status := 0x00#8, r32 := t.results.r32 } ∧
      t.results.r32.toNat = 5400000 / max x.toNat 1 ∧ 82 ≤ t.results.r32.toNat ∧
      t.results.r32.toNat ≤ 5400000 ∧ t.faults = s.faults ∧ NoTransaction s t

/-- R124: OP = 0x11 takes the RPM from CMD[63:32]; RPM_TO_TACH gives ⌊5 400 000 / max(RPM, 83)⌋ with STATUS OK and
no fault: 65060 up to 83, 1 at 5 400 000, 0 beyond it. -/
def Obligations.RpmToTachResult : Prop :=
  (∀ w : BitVec 64, cmdRsv w = 0x00#8 → cmdOp w = 0x11#8 → decode w = .ok (.rpmToTach (w.extractLsb' 32 32))) ∧
  ∀ (s : State) (r : BitVec 32), sourceLiterals s →
    ∃ t, exec (.rpmToTach r) s = .next t ∧
      t.results = { Results.zero with status := 0x00#8, r32 := t.results.r32 } ∧
      t.results.r32.toNat = 5400000 / max r.toNat 83 ∧ t.faults = s.faults

/-- R125: the laws (a) to (d) of the converter pair, (c) with the first RPM that breaks it. Derived: the spec marks
R125 as derived ("from rule R121 and rule R122"). -/
def Obligations.ReciprocalLaws : Prop :=
  let rpm := fun t : BitVec 16 => (tachToRpm Literals.source t).toNat
  let tach := fun r : BitVec 32 => rpmToTach Literals.source r
  (∀ t u : BitVec 16, t.toNat ≤ u.toNat → rpm u ≤ rpm t) ∧
  (∀ r q : BitVec 32, r.toNat ≤ q.toNat → (tach q).toNat ≤ (tach r).toNat) ∧
  (∀ r : BitVec 32, 83 ≤ r.toNat → r.toNat ≤ 5400000 → r.toNat ≤ rpm (tach r)) ∧
  (∀ r : BitVec 32, 82 ≤ r.toNat → r.toNat ≤ 3318 →
    rpm (tach r) ≤ r.toNat + 1 ∧ r.toNat ≤ rpm (tach r) + 1) ∧
  rpm (tach 3319#32) = 3321 ∧
  (∀ r : BitVec 32, 5400000 < r.toNat → rpm (tach r) = 5400000)

/-! ## Temperature codecs (42_temperature.md) -/

/-- R11: rounding a rational to binary32 gives no NaN, and a value nearest to it among all patterns that are no NaN
(the infinities counted as plus and minus 2^128); of two equally near ones, the even pattern. Derived: binary32
as integers, with the infinities as plus and minus 2^128, is the model's (PRESUMED, log entry 20). -/
def Obligations.RoundingIsNearestEven : Prop :=
  ∀ (neg : Bool) (num den : Nat) (x : Word32), 0 < den → isNaN x = false →
    let q : Int := (if neg then -1 else 1) * num * f32One
    let r := f32OfRatio neg num den
    isNaN r = false ∧ |den * f32Val r - q| ≤ |den * f32Val x - q| ∧
      (|den * f32Val r - q| = |den * f32Val x - q| → f32Val x ≠ f32Val r → r.getLsbD 0 = false)

/-- R141, R142, R153: TEMP_DECODE of the pairs (0x7F, 0x00) and (0x7F, 0xE0) reports the circuit fault, with a NaN
in R32 whatever the pattern drawn; of any other pair it ends with OK, and R32 is a binary32 that is exactly the
signed whole degrees plus the top three bits of lsb in eighths. No transaction is performed. Derived: the spec
marks R141's lsb cases as derived, and R153 is its decision D40 (log entry 9). -/
def Obligations.TempDecodeResult : Prop :=
  ∀ (s : State) (msb lsb : Byte), sourceLiterals s →
    ∃ t, exec (.tempDecode msb lsb) s = .next t ∧ t.faults = s.faults ∧ NoTransaction s t ∧
      t.results = { Results.zero with status := t.results.status, r32 := t.results.r32 } ∧
      if msb = 0x7F#8 ∧ lsb = 0x00#8 then t.results.status = 0x01#8 ∧ isNaN t.results.r32 = true
      else if msb = 0x7F#8 ∧ lsb = 0xE0#8 then t.results.status = 0x02#8 ∧ isNaN t.results.r32 = true
      else t.results.status = 0x00#8 ∧ isNaN t.results.r32 = false ∧
        8 * f32Val t.results.r32 = (8 * msb.toInt + (lsb.extractLsb' 5 3).toNat) * f32One

/-- R143, R144, R145: TEMP_ENCODE of a v that is no NaN ends with OK and the pair of c = ⌊8 · clamp(v, -64.0,
127.75)⌋: msb = c div 8, lsb = (c mod 8) << 5, but (0x7F, 0x20) for (0x7F, 0x00). Derived: the floor is the
spec's decision D41 (C1), the guard its decision D12 (log entry 23). -/
def Obligations.TempEncodeFloorsToEighths : Prop :=
  ∀ (s : State) (v : Word32), sourceLiterals s → isNaN v = false →
    let one : Int := f32One
    let x : Int := max (-64 * one) (min (f32Val v) (127 * one + 3 * one / 4))
    ∃ (t : State) (c : Int), exec (.tempEncode v) s = .next t ∧ -512 ≤ c ∧ c ≤ 1022 ∧
      c * one ≤ 8 * x ∧ 8 * x < (c + 1) * one ∧
      t.results = { Results.zero with
        rbHi := BitVec.ofInt 8 (c / 8)
        rbLo := if c = 1016 then 0x20#8 else BitVec.ofNat 8 ((c % 8).toNat * 32) }

/-- R143, R150, R241: an encoder given a NaN reports INVALID_OPERAND with slot 0. Derived: the spec's decision D13.
-/
def Obligations.EncodersRejectNaN : Prop :=
  ∀ (s : State) (v : Word32), isNaN v = true → ∀ i, i = .tempEncode v ∨ i = .ltempEncode v →
    ∃ t, exec i s = .next t ∧ t.results = { Results.zero with status := 0x82#8 } ∧
      t.faults = addFault s.faults .invalidOperand

/-- R144: every v in [127.0, 127.125) encodes to (0x7F, 0x20), which decodes to 127.125; no v encodes to a sentinel
pair. Derived: R144 is the spec's decision D12, its short-circuit claim derived. -/
def Obligations.SentinelGuard : Prop :=
  (∀ v : Word32, isNaN v = false → 127 * f32One ≤ f32Val v → 8 * f32Val v < 1017 * f32One →
    tempEncode Literals.source v = (0x7F#8, 0x20#8)) ∧
  8 * f32Val (f32OfEighths (tempEighths 0x7F#8 0x20#8)) = 1017 * f32One ∧
  ∀ v : Word32, isNaN v = false → tempEncode Literals.source v ≠ (0x7F#8, 0x00#8) ∧
    tempEncode Literals.source v ≠ (0x7F#8, 0xE0#8)

/-- R146: for msb in [-64, 127] and lsb with bits 4..0 clear that are no sentinel, TEMP_ENCODE of what TEMP_DECODE
gives is the pair. Derived: the spec marks R146 as derived ("from rule R141 and rule R143"). -/
def Obligations.ModernRoundTrip : Prop :=
  ∀ (s : State) (msb lsb : Byte), sourceLiterals s → -64 ≤ msb.toInt → lsb.extractLsb' 0 5 = 0#5 →
    ¬(msb = 0x7F#8 ∧ (lsb = 0x00#8 ∨ lsb = 0xE0#8)) →
    ∃ t u, exec (.tempDecode msb lsb) s = .next t ∧ exec (.tempEncode t.results.r32) t = .next u ∧
      u.results = { Results.zero with rbHi := msb, rbLo := lsb }

/-- R148, R149: LTEMP_DECODE ends with OK, and R32 is the exact sum of the unsigned whole degrees and the flags'
weights, rounded once to binary32. Derived: the spec's decisions D14, D16 (log entries 23, 24). -/
def Obligations.LtempDecodeRoundsOnce : Prop :=
  ∀ (s : State) (whole frac : Byte), sourceLiterals s →
    let hundredths := 100 * whole.toNat + (if frac.getLsbD 7 then 50 else 0) +
      (if frac.getLsbD 6 then 25 else 0) + (if frac.getLsbD 5 then 15 else 0)
    ∃ t, exec (.ltempDecode whole frac) s = .next t ∧
      t.results = { Results.zero with r32 := f32OfRatio false hundredths 100 }

/-- R150, R151: LTEMP_ENCODE of a v that is no NaN ends with OK and the clamped value's whole degrees and the flags
of the cascade, each flag's weight subtracted before the next test. Derived: the spec's decision D15 (log
entries 23, 24). -/
def Obligations.LtempEncodeCascades : Prop :=
  ∀ (s : State) (v : Word32), sourceLiterals s → isNaN v = false →
    ∃ t w r, exec (.ltempEncode v) s = .next t ∧
      max 0 (min (f32Val v) (f32Val 0x437FE666#32)) = w * f32One + r ∧ 0 ≤ r ∧ r < f32One ∧
      let b7 : Bool := decide (f32Val 0x3EE147AE#32 < r)
      let r6 : Int := if b7 then r - f32One / 2 else r
      let b6 : Bool := decide (f32Val 0x3E428F5C#32 < r6)
      let r5 : Int := if b6 then r6 - f32One / 4 else r6
      let b5 : Bool := decide (f32Val 0x3D8F5C29#32 < r5)
      t.results = { Results.zero with rbHi := BitVec.ofInt 8 w, rbLo := flagByte (b7, b6, b5) }

/-- R152: the legacy codec reports no circuit status, and LTEMP_ENCODE of what LTEMP_DECODE gives is the pair, for
every whole byte and every fraction byte with bits 4..0 clear. Derived: the spec marks R152's law as derived
("from rule R148 and rule R150"). -/
def Obligations.LegacyRoundTrip : Prop :=
  ∀ (s : State) (whole frac : Byte), sourceLiterals s →
    (∃ t, exec (.ltempDecode whole frac) s = .next t ∧ t.results.status = 0x00#8) ∧
    (frac.extractLsb' 0 5 = 0#5 →
      ∃ t u, exec (.ltempDecode whole frac) s = .next t ∧ exec (.ltempEncode t.results.r32) t = .next u ∧
        u.results = { Results.zero with rbHi := whole, rbLo := frac })

/-! ## Lookup table (43_lut.md) -/

/-- R52, R171, R243: LUT_READ reads the sixteen registers in ascending order and returns the bytes held. A read that
fails ends it with BUS_ERROR and its address, RBUF zeroed, no later read performed and no register changed.
Derived: the order is the spec's decision D21 (log entry 23), the stop its decisions D7, D39. -/
def Obligations.LutReadReturnsTable : Prop :=
  ∀ s : State, sourceLiterals s → cfgWf s.cfg = true → LatchInv s →
    let reads := fun n : Nat => (List.range n).map fun j =>
      Event.read (s.cfg.lutBase + BitVec.ofNat 8 j) (regAt s (s.cfg.lutBase + BitVec.ofNat 8 j))
    (answersOk s 16 →
      ∃ t, exec .lutRead s = .next t ∧ t.results = { Results.zero with rbuf := t.results.rbuf } ∧
        (∀ j : Fin 16, t.results.rbuf[j] = regAt s (s.cfg.lutBase + BitVec.ofNat 8 j.val)) ∧
        t.history = s.history ++ reads 16) ∧
    ∀ n : Fin 16, failsAfter s n.val →
      ∃ t, exec .lutRead s = .next t ∧
        t.results = { Results.zero with
          status := 0x81#8, r32 := (s.cfg.lutBase + BitVec.ofNat 8 n.val).setWidth 32 } ∧
        t.history = s.history ++ reads n.val ++ [.readFailed (s.cfg.lutBase + BitVec.ofNat 8 n.val)] ∧
        t.mem = s.mem ∧ t.faults = addFault s.faults .busError

/-- R172, R173: with the table released, LUT_WRITE stores each temperature clamped to 85 and each speed clamped to
0x63. Its transactions are the sixteen writes of the clamped bytes to LUT_BASE + j for j = 0 to 15, in that
order. Derived: the order is the spec's decision D21 (log entry 23); how a write is recorded is log entry 19. -/
def Obligations.LutWriteStoresClampedTable : Prop :=
  ∀ s : State, sourceLiterals s → cfgWf s.cfg = true → isLutAddr s.cfg s.cfg.fanConfig = false →
    answersOk s 16 → lutGoverns s = false →
    let clamped := fun j : Fin 16 => min (s.obuf[j]).toNat (if j.val % 2 = 0 then 85 else 99)
    ∃ t, exec .lutWrite s = .next t ∧ t.results = Results.zero ∧ t.faults = s.faults ∧
      (∀ j : Fin 16, (regAt t (s.cfg.lutBase + BitVec.ofNat 8 j.val)).toNat = clamped j) ∧
      t.history = s.history ++ (List.finRange 16).map fun j =>
        .write (s.cfg.lutBase + BitVec.ofNat 8 j.val) (BitVec.ofNat 8 (clamped j))
          (if s.cfg.lutBase + BitVec.ofNat 8 j.val = s.cfg.oneShot then .oneShot else .ok)

/-- R52, R172, R243: LUT_WRITE stops at its first failing write: the registers before it hold their new values, the
failing one its old or new value, those after it their old values; BUS_ERROR with its address. While the table
governs it stops at LUT_BASE with LUT_LOCKED and no register changes. Derived: the spec's decisions D7, D22,
D39. -/
def Obligations.LutWriteStopsAtItsFault : Prop :=
  ∀ s : State, sourceLiterals s → cfgWf s.cfg = true → isLutAddr s.cfg s.cfg.fanConfig = false →
    (∀ n : Fin 16, failsAfter s n.val → lutGoverns s = false →
      ∃ t, exec .lutWrite s = .next t ∧
        t.results = { Results.zero with
          status := 0x81#8, r32 := (s.cfg.lutBase + BitVec.ofNat 8 n.val).setWidth 32 } ∧
        (∀ j : Fin 16, j < n → (regAt t (s.cfg.lutBase + BitVec.ofNat 8 j.val)).toNat =
          min (s.obuf[j]).toNat (if j.val % 2 = 0 then 85 else 99)) ∧
        (regAt t (s.cfg.lutBase + BitVec.ofNat 8 n.val) = regAt s (s.cfg.lutBase + BitVec.ofNat 8 n.val) ∨
          (regAt t (s.cfg.lutBase + BitVec.ofNat 8 n.val)).toNat =
            min (s.obuf[n]).toNat (if n.val % 2 = 0 then 85 else 99)) ∧
        ∀ j : Fin 16, n < j → regAt t (s.cfg.lutBase + BitVec.ofNat 8 j.val) =
          regAt s (s.cfg.lutBase + BitVec.ofNat 8 j.val)) ∧
    (answersOk s 1 → lutGoverns s = true →
      ∃ t, exec .lutWrite s = .next t ∧
        t.results = { Results.zero with status := 0x84#8, r32 := s.cfg.lutBase.setWidth 32 } ∧
        t.mem = s.mem)

/-- R177: LUT_WRITE then LUT_READ returns every byte of OBUF clamped. Derived: the spec marks R177 as derived. -/
def Obligations.LutWriteThenRead : Prop :=
  ∀ s : State, sourceLiterals s → cfgWf s.cfg = true → isLutAddr s.cfg s.cfg.fanConfig = false →
    LatchInv s → answersOk s 32 → lutGoverns s = false →
    ∃ t u, exec .lutWrite s = .next t ∧ exec .lutRead t = .next u ∧
      u.results = { Results.zero with rbuf := u.results.rbuf } ∧
      ∀ j : Fin 16, (u.results.rbuf[j]).toNat = min (s.obuf[j]).toNat (if j.val % 2 = 0 then 85 else 99)

/-- R174, R191: LUT_HYST_READ and FAN_SPEED_GET return the byte their register holds, raw, with STATUS OK. When the
read fails they report BUS_ERROR with their register's address. Derived: the spec's decisions D7, D24, D39, D42
(log entry 23). -/
def Obligations.HystAndFanSpeedReadRaw : Prop :=
  ∀ s : State, cfgWf s.cfg = true →
    (answersOk s 1 → LatchInv s →
      (∃ t, exec .lutHystRead s = .next t ∧
        t.results = { Results.zero with r32 := (regAt s s.cfg.lutHyst).setWidth 32 }) ∧
      (∃ t, exec .fanSpeedGet s = .next t ∧
        t.results = { Results.zero with r32 := (regAt s s.cfg.fanSetting).setWidth 32 })) ∧
    (failsAfter s 0 →
      (∃ t, exec .lutHystRead s = .next t ∧
        t.results = { Results.zero with status := 0x81#8, r32 := s.cfg.lutHyst.setWidth 32 } ∧
        t.faults = addFault s.faults .busError) ∧
      (∃ t, exec .fanSpeedGet s = .next t ∧
        t.results = { Results.zero with status := 0x81#8, r32 := s.cfg.fanSetting.setWidth 32 } ∧
        t.faults = addFault s.faults .busError))

/-- R175: LUT_HYST_WRITE stores its byte unclamped, whether or not the table governs. A write that fails reports
BUS_ERROR with LUT_HYST's address, and the register holds the old or the new byte. Derived: the spec's decisions
D7, D24, D39 (log entry 23). -/
def Obligations.LutHystWriteStoresRaw : Prop :=
  ∀ (s : State) (v : Byte), cfgWf s.cfg = true → namesDistinct s.cfg →
    (answersOk s 1 →
      ∃ t, exec (.lutHystWrite v) s = .next t ∧ t.results = Results.zero ∧ regAt t s.cfg.lutHyst = v ∧
        t.history = s.history ++ [.write s.cfg.lutHyst v .ok]) ∧
    (failsAfter s 0 →
      ∃ t, exec (.lutHystWrite v) s = .next t ∧
        t.results = { Results.zero with status := 0x81#8, r32 := s.cfg.lutHyst.setWidth 32 } ∧
        t.faults = addFault s.faults .busError ∧
        (regAt t s.cfg.lutHyst = regAt s s.cfg.lutHyst ∨ regAt t s.cfg.lutHyst = v) ∧
        t.history = s.history ++ [.write s.cfg.lutHyst v .failed])

/-! ## Accessors (44_accessors.md) -/

/-- R192: OP = 0x41 takes the speed from CMD[15:8]; FAN_SPEED_SET stores min(speed, 32) with STATUS OK. While the
table governs STATUS is still OK, and the register holds the old byte or min(speed, 32). A write that fails
reports BUS_ERROR with FAN_SETTING's address. -/
def Obligations.FanSpeedSetResult : Prop :=
  (∀ w : BitVec 64, cmdRsv w = 0x00#8 → cmdOp w = 0x41#8 → decode w = .ok (.fanSpeedSet (w.extractLsb' 8 8))) ∧
  ∀ (s : State) (v : Byte), sourceLiterals s → cfgWf s.cfg = true → isLutAddr s.cfg s.cfg.fanSetting = false →
    (answersOk s 1 → lutGoverns s = false →
      ∃ t, exec (.fanSpeedSet v) s = .next t ∧ t.results = Results.zero ∧ t.faults = s.faults ∧
        (regAt t s.cfg.fanSetting).toNat = min v.toNat 32) ∧
    (answersOk s 1 → lutGoverns s = true →
      ∃ t, exec (.fanSpeedSet v) s = .next t ∧ t.results = Results.zero ∧ t.faults = s.faults ∧
        (regAt t s.cfg.fanSetting = regAt s s.cfg.fanSetting ∨
          (regAt t s.cfg.fanSetting).toNat = min v.toNat 32)) ∧
    (failsAfter s 0 →
      ∃ t, exec (.fanSpeedSet v) s = .next t ∧
        t.results = { Results.zero with status := 0x81#8, r32 := s.cfg.fanSetting.setWidth 32 } ∧
        t.faults = addFault s.faults .busError)

/-- R193: INT_LIMIT_SET stores the truncated limit when it is no NaN and lies in [0.0, 85.0], and else reports
REJECTED with no transaction. When the write of an accepted limit fails it reports BUS_ERROR with
INT_HIGH_LIMIT's address, and the register holds its old byte or the truncated limit. Derived: the inclusive
bounds and the NaN case are the spec's decision D26, the failing write its decisions D7, D39. -/
def Obligations.IntLimitSetAcceptsOrRejects : Prop :=
  ∀ (s : State) (v : Word32), sourceLiterals s → cfgWf s.cfg = true → namesDistinct s.cfg →
    let limitHeld := fun t : State => ((regAt t s.cfg.intHighLimit).toNat * f32One : Int) ≤ f32Val v ∧
      f32Val v < ((regAt t s.cfg.intHighLimit).toNat + 1) * f32One
    ((isNaN v = false ∧ 0 ≤ f32Val v ∧ f32Val v ≤ 85 * f32One) →
      (answersOk s 1 → ∃ t, exec (.intLimitSet v) s = .next t ∧ t.results = Results.zero ∧ limitHeld t) ∧
      (failsAfter s 0 → ∃ t, exec (.intLimitSet v) s = .next t ∧
        t.results = { Results.zero with status := 0x81#8, r32 := s.cfg.intHighLimit.setWidth 32 } ∧
        t.faults = addFault s.faults .busError ∧
        (regAt t s.cfg.intHighLimit = regAt s s.cfg.intHighLimit ∨ limitHeld t))) ∧
    (¬(isNaN v = false ∧ 0 ≤ f32Val v ∧ f32Val v ≤ 85 * f32One) →
      ∃ t, exec (.intLimitSet v) s = .next t ∧
        t.results = { Results.zero with status := 0x03#8 } ∧ NoTransaction s t)

/-- R45, R52, R194, R196, R243: EXT_TEMP_READ reads CONFIG; in standby it writes ONE_SHOT_VALUE to ONE_SHOT and
sleeps the settle time; then it reads the EXT_TEMP pair in PAIR_ORDER, of one sample when the pair latches, and
reports the decoded reading with the raw bytes. A transaction that fails ends it with BUS_ERROR and its address,
and nothing later is performed: at the read of CONFIG; at the trigger, with no sleep and ONE_SHOT old or new; at
the first byte; at the second. Derived: the spec's decisions D7, D10, D27, D28, D39 (log entry 23); the
environment's answers as state are log entry 8. -/
def Obligations.ExtTempReadSequence : Prop :=
  ∀ s : State, sourceLiterals s → cfgWf s.cfg = true → namesDistinct s.cfg →
    let standby := (regAt s s.cfg.config).getLsbD s.cfg.standbyBit.val
    let n := if standby then 2 else 1
    let x := (s.env.at n).byte
    let y := if s.cfg.extTemp.latching then (s.env.at n).second else (s.env.at (n + 1)).byte
    let hi := if s.cfg.extTemp.order = .hiFirst then x else y
    let lo := if s.cfg.extTemp.order = .hiFirst then y else x
    let before := s.history ++ [.read s.cfg.config (regAt s s.cfg.config)] ++
      if standby then [.write s.cfg.oneShot s.cfg.oneShotValue .oneShot, .sleep 50#32] else []
    let failedAt := fun (t : State) (a : Addr) =>
      t.results = { Results.zero with status := 0x81#8, r32 := a.setWidth 32 } ∧
        t.faults = addFault s.faults .busError
    (answersOk s (n + 2) → ∃ t, exec .extTempRead s = .next t ∧
      t.results = { Results.zero with
        status := t.results.status, r32 := t.results.r32, rbHi := hi, rbLo := lo } ∧
      (if hi = 0x7F#8 ∧ (lo = 0x00#8 ∨ lo = 0xE0#8) then
        t.results.status = (if lo = 0x00#8 then 0x01#8 else 0x02#8) ∧ isNaN t.results.r32 = true
      else t.results.status = 0x00#8 ∧ t.results.r32 = f32OfEighths (tempEighths hi lo)) ∧
      t.history = before ++ [.read (firstAddr s.cfg.extTemp) x, .read (secondAddr s.cfg.extTemp) y] ∧
      (standby = true → regAt t s.cfg.oneShot = s.cfg.oneShotValue)) ∧
    (failsAfter s 0 → ∃ t, exec .extTempRead s = .next t ∧ failedAt t s.cfg.config ∧
      t.history = s.history ++ [.readFailed s.cfg.config] ∧ t.mem = s.mem) ∧
    (standby = true → failsAfter s 1 → ∃ t, exec .extTempRead s = .next t ∧ failedAt t s.cfg.oneShot ∧
      t.history = s.history ++ [.read s.cfg.config (regAt s s.cfg.config),
        .write s.cfg.oneShot s.cfg.oneShotValue .failed] ∧
      (regAt t s.cfg.oneShot = regAt s s.cfg.oneShot ∨ regAt t s.cfg.oneShot = s.cfg.oneShotValue)) ∧
    (failsAfter s n → ∃ t, exec .extTempRead s = .next t ∧ failedAt t (firstAddr s.cfg.extTemp) ∧
      t.history = before ++ [.readFailed (firstAddr s.cfg.extTemp)] ∧
      (standby = true → regAt t s.cfg.oneShot = s.cfg.oneShotValue)) ∧
    (failsAfter s (n + 1) → ∃ t, exec .extTempRead s = .next t ∧ failedAt t (secondAddr s.cfg.extTemp) ∧
      t.history = before ++ [.read (firstAddr s.cfg.extTemp) x, .readFailed (secondAddr s.cfg.extTemp)] ∧
      (standby = true → regAt t s.cfg.oneShot = s.cfg.oneShotValue))

/-- R45, R52, R194, R197, R243: FAN_RPM_GET reads the TACH pair in PAIR_ORDER, of one sample when the pair latches,
converts the count, and returns the raw bytes. A read that fails ends it with BUS_ERROR and its address, and no
later read is performed. Derived: the spec's decisions D7, D10, D28, D39; the environment's answers as state are
log entry 8. -/
def Obligations.FanRpmGetConvertsPair : Prop :=
  ∀ s : State, sourceLiterals s → cfgWf s.cfg = true → namesDistinct s.cfg →
    let one := firstAddr s.cfg.tach
    let two := secondAddr s.cfg.tach
    let x := (s.env.at 0).byte
    let y := if s.cfg.tach.latching then (s.env.at 0).second else (s.env.at 1).byte
    let hi := if s.cfg.tach.order = .hiFirst then x else y
    let lo := if s.cfg.tach.order = .hiFirst then y else x
    (answersOk s 2 → ∃ t, exec .fanRpmGet s = .next t ∧
      t.results = { Results.zero with
        r32 := BitVec.ofNat 32 (5400000 / max (hi.toNat * 256 + lo.toNat) 1), rbHi := hi, rbLo := lo } ∧
      t.history = s.history ++ [.read one x, .read two y]) ∧
    (failsAfter s 0 → ∃ t, exec .fanRpmGet s = .next t ∧
      t.results = { Results.zero with status := 0x81#8, r32 := one.setWidth 32 } ∧
      t.history = s.history ++ [.readFailed one] ∧ t.faults = addFault s.faults .busError) ∧
    (failsAfter s 1 → ∃ t, exec .fanRpmGet s = .next t ∧
      t.results = { Results.zero with status := 0x81#8, r32 := two.setWidth 32 } ∧
      t.history = s.history ++ [.read one x, .readFailed two] ∧ t.faults = addFault s.faults .busError)

/-- R198: OP = 0x45 is MIN_RPM_GET; it reads the TACH_LIMIT pair in PAIR_ORDER and gives ⌊5 400 000 / count⌋, a
count of 0 as 1, with STATUS OK; or BUS_ERROR with the address of the read that fails. -/
def Obligations.MinRpmGetConvertsPair : Prop :=
  (∀ w : BitVec 64, cmdRsv w = 0x00#8 → cmdOp w = 0x45#8 → decode w = .ok .minRpmGet) ∧
  ∀ s : State, sourceLiterals s → cfgWf s.cfg = true → LatchInv s →
    let one := firstAddr s.cfg.tachLimit
    let two := secondAddr s.cfg.tachLimit
    let count := (regAt s s.cfg.tachLimit.hi).toNat * 256 + (regAt s s.cfg.tachLimit.lo).toNat
    (answersOk s 2 → ∃ t, exec .minRpmGet s = .next t ∧
      t.results = { Results.zero with status := 0x00#8, r32 := BitVec.ofNat 32 (5400000 / max count 1) } ∧
      t.history = s.history ++ [.read one (regAt s one), .read two (regAt s two)]) ∧
    (failsAfter s 0 → ∃ t, exec .minRpmGet s = .next t ∧
      t.results = { Results.zero with status := 0x81#8, r32 := one.setWidth 32 } ∧
      t.history = s.history ++ [.readFailed one]) ∧
    (failsAfter s 1 → ∃ t, exec .minRpmGet s = .next t ∧
      t.results = { Results.zero with status := 0x81#8, r32 := two.setWidth 32 } ∧
      t.history = s.history ++ [.read one (regAt s one), .readFailed two])

/-- R199: OP = 0x46 is MIN_RPM_SET with the RPM in CMD[63:32]; it writes the high and low byte of ⌊5 400 000 /
max(RPM, 83)⌋ to the TACH_LIMIT pair in PAIR_ORDER, with STATUS OK. A write that fails ends it with BUS_ERROR
and its address: at the first, the second is not performed; at the second, the pair holds the first's new byte
and the second's old or new one. -/
def Obligations.MinRpmSetWritesCount : Prop :=
  (∀ w : BitVec 64, cmdRsv w = 0x00#8 → cmdOp w = 0x46#8 → decode w = .ok (.minRpmSet (w.extractLsb' 32 32))) ∧
  ∀ (s : State) (r : Word32), sourceLiterals s → cfgWf s.cfg = true → namesDistinct s.cfg →
    let one := firstAddr s.cfg.tachLimit
    let two := secondAddr s.cfg.tachLimit
    let hi : Byte := BitVec.ofNat 8 (5400000 / max r.toNat 83 / 256)
    let lo : Byte := BitVec.ofNat 8 (5400000 / max r.toNat 83 % 256)
    let x := if s.cfg.tachLimit.order = .hiFirst then hi else lo
    let y := if s.cfg.tachLimit.order = .hiFirst then lo else hi
    (answersOk s 2 → ∃ t, exec (.minRpmSet r) s = .next t ∧ t.results = Results.zero ∧
      regAt t s.cfg.tachLimit.hi = hi ∧ regAt t s.cfg.tachLimit.lo = lo ∧
      t.history = s.history ++ [.write one x .ok, .write two y .ok]) ∧
    (failsAfter s 0 → ∃ t, exec (.minRpmSet r) s = .next t ∧
      t.results = { Results.zero with status := 0x81#8, r32 := one.setWidth 32 } ∧
      regAt t two = regAt s two ∧ t.history = s.history ++ [.write one x .failed]) ∧
    (failsAfter s 1 → ∃ t, exec (.minRpmSet r) s = .next t ∧
      t.results = { Results.zero with status := 0x81#8, r32 := two.setWidth 32 } ∧
      regAt t one = x ∧ (regAt t two = regAt s two ∨ regAt t two = y) ∧
      t.history = s.history ++ [.write one x .ok, .write two y .failed])

/-- R199, R200: MIN_RPM_SET stores the converted count in the TACH_LIMIT pair, and MIN_RPM_GET after it gives
`tach_to_rpm(rpm_to_tach(r))`, exactly 1000 for r = 1000. Derived: the spec marks R200 as derived. -/
def Obligations.MinRpmSetThenGet : Prop :=
  ∀ (s : State) (r : Word32), sourceLiterals s → cfgWf s.cfg = true → namesDistinct s.cfg → answersOk s 4 →
    ∃ t u, exec (.minRpmSet r) s = .next t ∧ exec .minRpmGet t = .next u ∧ t.results = Results.zero ∧
      (regAt t s.cfg.tachLimit.hi).toNat * 256 + (regAt t s.cfg.tachLimit.lo).toNat =
        5400000 / max r.toNat 83 ∧
      u.results = { Results.zero with
        r32 := tachToRpm Literals.source (rpmToTach Literals.source r) } ∧
      (r = 1000#32 → u.results.r32 = 1000#32)

/-! ## Register map (45_register_ops.md) -/

/-- R34, R52, R222, R224, R243: RESET_DEFAULTS first writes FAN_CONFIG's default with the table released, then every
other default in list order, then FAN_CONFIG's default; every RW register then holds its default, the TACH_LIMIT
pair 0xFFFF, whose bytes were written one after the other in PAIR_ORDER. A write that fails ends it with
BUS_ERROR and its address: the registers written before hold the bytes written, the failing one its old or new
byte, the others their old ones. Derived: the order is the spec's decision D29, the stop its decisions D7, D39;
that the pair stands together in the list is log entry 26. -/
def Obligations.ResetDefaultsEstablishesDefaults : Prop :=
  ∀ s : State, cfgWf s.cfg = true → namesDistinct s.cfg →
    let fan := s.cfg.fanConfig
    let d' := setBit (defaultOf s.cfg fan) s.cfg.lutCtrlBit (!s.cfg.lutCtrlActive)
    let ws := [(fan, d')] ++ s.cfg.defaults.filter (fun e => e.1 != fan) ++ [(fan, defaultOf s.cfg fan)]
    let written := fun e : Addr × Byte => Event.write e.1 e.2 (if e.1 = s.cfg.oneShot then .oneShot else .ok)
    (answersOk s (s.cfg.defaults.length + 1) → ∃ t, exec .resetDefaults s = .next t ∧
      t.results = Results.zero ∧ t.faults = s.faults ∧ t.history = s.history ++ ws.map written ∧
      (∀ a, attrOf s.cfg a = .rw → regAt t a = defaultOf s.cfg a) ∧
      regAt t s.cfg.tachLimit.hi = 0xFF#8 ∧ regAt t s.cfg.tachLimit.lo = 0xFF#8 ∧
      ∃ pre post, ws.map Prod.fst =
        pre ++ [firstAddr s.cfg.tachLimit, secondAddr s.cfg.tachLimit] ++ post) ∧
    ∀ k e, ws[k]? = some e → failsAfter s k →
      ∃ t, exec .resetDefaults s = .next t ∧
        t.results = { Results.zero with status := 0x81#8, r32 := e.1.setWidth 32 } ∧
        t.faults = addFault s.faults .busError ∧
        t.history = s.history ++ (ws.take k).map written ++ [.write e.1 e.2 .failed] ∧
        (∀ w, w ∈ ws.take k → w.1 ≠ e.1 → regAt t w.1 = w.2) ∧
        (∀ a, a ≠ e.1 → a ∉ (ws.take k).map Prod.fst → regAt t a = regAt s a) ∧
        (regAt t e.1 = e.2 ∨ regAt t e.1 = if e.1 = fan ∧ 0 < k then d' else regAt s e.1)

/-- R223: OP = 0x53 is VALIDATE; it reads every listed register in order and returns how many differ from their
defaults, with STATUS OK for none and MISMATCH for any; or BUS_ERROR at the first failing read, and no count. -/
def Obligations.ValidateCountsMismatches : Prop :=
  (∀ w : BitVec 64, cmdRsv w = 0x00#8 → cmdOp w = 0x53#8 → decode w = .ok .validate) ∧
  ∀ s : State, cfgWf s.cfg = true → LatchInv s →
    (answersOk s s.cfg.defaults.length →
      let n := s.cfg.defaults.countP fun e => regAt s e.1 != e.2
      ∃ t, exec .validate s = .next t ∧
        t.results = { Results.zero with
          status := if n = 0 then 0x00#8 else 0x04#8, r32 := BitVec.ofNat 32 n } ∧
        t.history = s.history ++ s.cfg.defaults.map fun e => .read e.1 (regAt s e.1)) ∧
    ∀ k e, s.cfg.defaults[k]? = some e → failsAfter s k →
      ∃ t, exec .validate s = .next t ∧
        t.results = { Results.zero with status := 0x81#8, r32 := e.1.setWidth 32 } ∧
        t.history = s.history ++ (s.cfg.defaults.take k).map (fun e => .read e.1 (regAt s e.1)) ++
          [.readFailed e.1]

/-- R225: RESET_DEFAULTS then VALIDATE gives R32 = 0 and OK. Derived: the spec marks R225 as derived. -/
def Obligations.ResetThenValidatePasses : Prop :=
  ∀ s : State, cfgWf s.cfg = true → namesDistinct s.cfg → LatchInv s →
    answersOk s (2 * s.cfg.defaults.length + 1) →
    ∃ t u, exec .resetDefaults s = .next t ∧ exec .validate t = .next u ∧ u.results = Results.zero
end

