-- ==== Sys2Proof/Laws/State.lean ====
section
/-! SUPPORT. One lemma per field per update of the state, each true by rfl, so that no proof unfolds a
record update. -/

namespace Sys2Proof.Machine

@[simp] theorem setReg_cfg (s : State) (a : Addr) (v : Byte) :
    (setReg s a v).cfg = s.cfg := rfl
@[simp] theorem setReg_seq (s : State) (a : Addr) (v : Byte) :
    (setReg s a v).seq = s.seq := rfl
@[simp] theorem setReg_cmd (s : State) (a : Addr) (v : Byte) :
    (setReg s a v).cmd = s.cmd := rfl
@[simp] theorem setReg_ov (s : State) (a : Addr) (v : Byte) :
    (setReg s a v).ov = s.ov := rfl
@[simp] theorem setReg_obuf (s : State) (a : Addr) (v : Byte) :
    (setReg s a v).obuf = s.obuf := rfl
@[simp] theorem setReg_results (s : State) (a : Addr) (v : Byte) :
    (setReg s a v).results = s.results := rfl
@[simp] theorem setReg_resultsWritten (s : State) (a : Addr) (v : Byte) :
    (setReg s a v).resultsWritten = s.resultsWritten := rfl
@[simp] theorem setReg_mem (s : State) (a : Addr) (v : Byte) :
    (setReg s a v).mem = Memory.write (background s.cfg) s.mem a.toNat v := rfl
@[simp] theorem setReg_latches (s : State) (a : Addr) (v : Byte) :
    (setReg s a v).latches = s.latches := rfl
@[simp] theorem setReg_history (s : State) (a : Addr) (v : Byte) :
    (setReg s a v).history = s.history := rfl
@[simp] theorem setReg_faults (s : State) (a : Addr) (v : Byte) :
    (setReg s a v).faults = s.faults := rfl
@[simp] theorem setReg_moves (s : State) (a : Addr) (v : Byte) :
    (setReg s a v).moves = s.moves := rfl
@[simp] theorem setReg_received (s : State) (a : Addr) (v : Byte) :
    (setReg s a v).received = s.received := rfl
@[simp] theorem setReg_env (s : State) (a : Addr) (v : Byte) :
    (setReg s a v).env = s.env := rfl

@[simp] theorem record_cfg (s : State) (e : Event) :
    (record s e).cfg = s.cfg := rfl
@[simp] theorem record_seq (s : State) (e : Event) :
    (record s e).seq = nextIndex s.seq := rfl
@[simp] theorem record_cmd (s : State) (e : Event) :
    (record s e).cmd = s.cmd := rfl
@[simp] theorem record_ov (s : State) (e : Event) :
    (record s e).ov = s.ov := rfl
@[simp] theorem record_obuf (s : State) (e : Event) :
    (record s e).obuf = s.obuf := rfl
@[simp] theorem record_results (s : State) (e : Event) :
    (record s e).results = s.results := rfl
@[simp] theorem record_resultsWritten (s : State) (e : Event) :
    (record s e).resultsWritten = s.resultsWritten := rfl
@[simp] theorem record_mem (s : State) (e : Event) :
    (record s e).mem = s.mem := rfl
@[simp] theorem record_latches (s : State) (e : Event) :
    (record s e).latches = s.latches := rfl
@[simp] theorem record_history (s : State) (e : Event) :
    (record s e).history = s.history ++ [e] := rfl
@[simp] theorem record_faults (s : State) (e : Event) :
    (record s e).faults = s.faults := rfl
@[simp] theorem record_moves (s : State) (e : Event) :
    (record s e).moves = s.moves := rfl
@[simp] theorem record_received (s : State) (e : Event) :
    (record s e).received = s.received := rfl
@[simp] theorem record_env (s : State) (e : Event) :
    (record s e).env = s.env := rfl

@[simp] theorem touch_cfg (s : State) (a : Addr) :
    (touch s a).cfg = s.cfg := rfl
@[simp] theorem touch_seq (s : State) (a : Addr) :
    (touch s a).seq = s.seq := rfl
@[simp] theorem touch_cmd (s : State) (a : Addr) :
    (touch s a).cmd = s.cmd := rfl
@[simp] theorem touch_ov (s : State) (a : Addr) :
    (touch s a).ov = s.ov := rfl
@[simp] theorem touch_obuf (s : State) (a : Addr) :
    (touch s a).obuf = s.obuf := rfl
@[simp] theorem touch_results (s : State) (a : Addr) :
    (touch s a).results = s.results := rfl
@[simp] theorem touch_resultsWritten (s : State) (a : Addr) :
    (touch s a).resultsWritten = s.resultsWritten := rfl
@[simp] theorem touch_mem (s : State) (a : Addr) :
    (touch s a).mem = s.mem := rfl
@[simp] theorem touch_latches (s : State) (a : Addr) :
    (touch s a).latches = clearLatches s.cfg s.latches a := rfl
@[simp] theorem touch_history (s : State) (a : Addr) :
    (touch s a).history = s.history := rfl
@[simp] theorem touch_faults (s : State) (a : Addr) :
    (touch s a).faults = s.faults := rfl
@[simp] theorem touch_moves (s : State) (a : Addr) :
    (touch s a).moves = s.moves := rfl
@[simp] theorem touch_received (s : State) (a : Addr) :
    (touch s a).received = s.received := rfl
@[simp] theorem touch_env (s : State) (a : Addr) :
    (touch s a).env = s.env := rfl

@[simp] theorem useAnswer_cfg (s : State) :
    (useAnswer s).cfg = s.cfg := rfl
@[simp] theorem useAnswer_seq (s : State) :
    (useAnswer s).seq = s.seq := rfl
@[simp] theorem useAnswer_cmd (s : State) :
    (useAnswer s).cmd = s.cmd := rfl
@[simp] theorem useAnswer_ov (s : State) :
    (useAnswer s).ov = s.ov := rfl
@[simp] theorem useAnswer_obuf (s : State) :
    (useAnswer s).obuf = s.obuf := rfl
@[simp] theorem useAnswer_results (s : State) :
    (useAnswer s).results = s.results := rfl
@[simp] theorem useAnswer_resultsWritten (s : State) :
    (useAnswer s).resultsWritten = s.resultsWritten := rfl
@[simp] theorem useAnswer_mem (s : State) :
    (useAnswer s).mem = s.mem := rfl
@[simp] theorem useAnswer_latches (s : State) :
    (useAnswer s).latches = s.latches := rfl
@[simp] theorem useAnswer_history (s : State) :
    (useAnswer s).history = s.history := rfl
@[simp] theorem useAnswer_faults (s : State) :
    (useAnswer s).faults = s.faults := rfl
@[simp] theorem useAnswer_moves (s : State) :
    (useAnswer s).moves = s.moves := rfl
@[simp] theorem useAnswer_received (s : State) :
    (useAnswer s).received = s.received := rfl
@[simp] theorem useAnswer_env (s : State) :
    (useAnswer s).env = s.env.pop := rfl

@[simp] theorem sleep_cfg (s : State) (ms : Word32) :
    (sleep s ms).cfg = s.cfg := rfl
@[simp] theorem sleep_seq (s : State) (ms : Word32) :
    (sleep s ms).seq = nextIndex s.seq := rfl
@[simp] theorem sleep_cmd (s : State) (ms : Word32) :
    (sleep s ms).cmd = s.cmd := rfl
@[simp] theorem sleep_ov (s : State) (ms : Word32) :
    (sleep s ms).ov = s.ov := rfl
@[simp] theorem sleep_obuf (s : State) (ms : Word32) :
    (sleep s ms).obuf = s.obuf := rfl
@[simp] theorem sleep_results (s : State) (ms : Word32) :
    (sleep s ms).results = s.results := rfl
@[simp] theorem sleep_resultsWritten (s : State) (ms : Word32) :
    (sleep s ms).resultsWritten = s.resultsWritten := rfl
@[simp] theorem sleep_mem (s : State) (ms : Word32) :
    (sleep s ms).mem = s.mem := rfl
@[simp] theorem sleep_latches (s : State) (ms : Word32) :
    (sleep s ms).latches = s.latches := rfl
@[simp] theorem sleep_history (s : State) (ms : Word32) :
    (sleep s ms).history = s.history ++ [.sleep ms] := rfl
@[simp] theorem sleep_faults (s : State) (ms : Word32) :
    (sleep s ms).faults = s.faults := rfl
@[simp] theorem sleep_moves (s : State) (ms : Word32) :
    (sleep s ms).moves = s.moves := rfl
@[simp] theorem sleep_received (s : State) (ms : Word32) :
    (sleep s ms).received = s.received := rfl
@[simp] theorem sleep_env (s : State) (ms : Word32) :
    (sleep s ms).env = s.env := rfl

@[simp] theorem start_cfg (s : State) (i : Instr) :
    (start s i).cfg = s.cfg := rfl
@[simp] theorem start_seq (s : State) (i : Instr) :
    (start s i).seq = .busy i 0 := rfl
@[simp] theorem start_cmd (s : State) (i : Instr) :
    (start s i).cmd = s.cmd := rfl
@[simp] theorem start_ov (s : State) (i : Instr) :
    (start s i).ov = s.ov := rfl
@[simp] theorem start_obuf (s : State) (i : Instr) :
    (start s i).obuf = s.obuf := rfl
@[simp] theorem start_results (s : State) (i : Instr) :
    (start s i).results = s.results := rfl
@[simp] theorem start_resultsWritten (s : State) (i : Instr) :
    (start s i).resultsWritten = s.resultsWritten := rfl
@[simp] theorem start_mem (s : State) (i : Instr) :
    (start s i).mem = s.mem := rfl
@[simp] theorem start_latches (s : State) (i : Instr) :
    (start s i).latches = s.latches := rfl
@[simp] theorem start_history (s : State) (i : Instr) :
    (start s i).history = s.history := rfl
@[simp] theorem start_faults (s : State) (i : Instr) :
    (start s i).faults = s.faults := rfl
@[simp] theorem start_moves (s : State) (i : Instr) :
    (start s i).moves = s.moves := rfl
@[simp] theorem start_received (s : State) (i : Instr) :
    (start s i).received = s.received := rfl
@[simp] theorem start_env (s : State) (i : Instr) :
    (start s i).env = s.env := rfl

@[simp] theorem finish_cfg (s : State) (r : Results) :
    (finish s r).cfg = s.cfg := rfl
@[simp] theorem finish_seq (s : State) (r : Results) :
    (finish s r).seq = .idle := rfl
@[simp] theorem finish_cmd (s : State) (r : Results) :
    (finish s r).cmd = s.cmd := rfl
@[simp] theorem finish_ov (s : State) (r : Results) :
    (finish s r).ov = s.ov := rfl
@[simp] theorem finish_obuf (s : State) (r : Results) :
    (finish s r).obuf = s.obuf := rfl
@[simp] theorem finish_results (s : State) (r : Results) :
    (finish s r).results = r := rfl
@[simp] theorem finish_resultsWritten (s : State) (r : Results) :
    (finish s r).resultsWritten = true := rfl
@[simp] theorem finish_mem (s : State) (r : Results) :
    (finish s r).mem = s.mem := rfl
@[simp] theorem finish_latches (s : State) (r : Results) :
    (finish s r).latches = s.latches := rfl
@[simp] theorem finish_history (s : State) (r : Results) :
    (finish s r).history = s.history := rfl
@[simp] theorem finish_faults (s : State) (r : Results) :
    (finish s r).faults = s.faults := rfl
@[simp] theorem finish_moves (s : State) (r : Results) :
    (finish s r).moves = s.moves := rfl
@[simp] theorem finish_received (s : State) (r : Results) :
    (finish s r).received = s.received := rfl
@[simp] theorem finish_env (s : State) (r : Results) :
    (finish s r).env = s.env := rfl

@[simp] theorem takeFault_cfg (s : State) (f : FaultCode) (info : Word32) :
    (takeFault s f info).cfg = s.cfg := rfl
@[simp] theorem takeFault_seq (s : State) (f : FaultCode) (info : Word32) :
    (takeFault s f info).seq = .idle := rfl
@[simp] theorem takeFault_cmd (s : State) (f : FaultCode) (info : Word32) :
    (takeFault s f info).cmd = s.cmd := rfl
@[simp] theorem takeFault_ov (s : State) (f : FaultCode) (info : Word32) :
    (takeFault s f info).ov = s.ov := rfl
@[simp] theorem takeFault_obuf (s : State) (f : FaultCode) (info : Word32) :
    (takeFault s f info).obuf = s.obuf := rfl
@[simp] theorem takeFault_results (s : State) (f : FaultCode) (info : Word32) :
    (takeFault s f info).results = { Results.zero with status := faultCode f, r32 := info } := rfl
@[simp] theorem takeFault_resultsWritten (s : State) (f : FaultCode) (info : Word32) :
    (takeFault s f info).resultsWritten = true := rfl
@[simp] theorem takeFault_mem (s : State) (f : FaultCode) (info : Word32) :
    (takeFault s f info).mem = s.mem := rfl
@[simp] theorem takeFault_latches (s : State) (f : FaultCode) (info : Word32) :
    (takeFault s f info).latches = s.latches := rfl
@[simp] theorem takeFault_history (s : State) (f : FaultCode) (info : Word32) :
    (takeFault s f info).history = s.history := rfl
@[simp] theorem takeFault_faults (s : State) (f : FaultCode) (info : Word32) :
    (takeFault s f info).faults = addFault s.faults f := rfl
@[simp] theorem takeFault_moves (s : State) (f : FaultCode) (info : Word32) :
    (takeFault s f info).moves = s.moves := rfl
@[simp] theorem takeFault_received (s : State) (f : FaultCode) (info : Word32) :
    (takeFault s f info).received = s.received := rfl
@[simp] theorem takeFault_env (s : State) (f : FaultCode) (info : Word32) :
    (takeFault s f info).env = s.env := rfl

@[simp] theorem setCommand_cfg (s : State) (w : Command) :
    (setCommand s w).cfg = s.cfg := rfl
@[simp] theorem setCommand_seq (s : State) (w : Command) :
    (setCommand s w).seq = s.seq := rfl
@[simp] theorem setCommand_cmd (s : State) (w : Command) :
    (setCommand s w).cmd = w := rfl
@[simp] theorem setCommand_ov (s : State) (w : Command) :
    (setCommand s w).ov = s.ov := rfl
@[simp] theorem setCommand_obuf (s : State) (w : Command) :
    (setCommand s w).obuf = s.obuf := rfl
@[simp] theorem setCommand_results (s : State) (w : Command) :
    (setCommand s w).results = s.results := rfl
@[simp] theorem setCommand_resultsWritten (s : State) (w : Command) :
    (setCommand s w).resultsWritten = s.resultsWritten := rfl
@[simp] theorem setCommand_mem (s : State) (w : Command) :
    (setCommand s w).mem = s.mem := rfl
@[simp] theorem setCommand_latches (s : State) (w : Command) :
    (setCommand s w).latches = s.latches := rfl
@[simp] theorem setCommand_history (s : State) (w : Command) :
    (setCommand s w).history = s.history := rfl
@[simp] theorem setCommand_faults (s : State) (w : Command) :
    (setCommand s w).faults = s.faults := rfl
@[simp] theorem setCommand_moves (s : State) (w : Command) :
    (setCommand s w).moves = s.moves := rfl
@[simp] theorem setCommand_received (s : State) (w : Command) :
    (setCommand s w).received = s.received := rfl
@[simp] theorem setCommand_env (s : State) (w : Command) :
    (setCommand s w).env = s.env := rfl

/-! ## The whole update -/

@[simp] theorem finish_start (s : State) (i : Instr) (r : Results) : finish (start s i) r = finish s r := rfl
@[simp] theorem takeFault_start (s : State) (i : Instr) (f : FaultCode) (info : Word32) :
    takeFault (start s i) f info = takeFault s f info := rfl

/-! ## The environment -/

@[simp] theorem pop_at (e : Env) (k : Nat) : e.pop.at k = e.at (k + 1) := by
  simp [Env.at, Env.pop, Nat.add_comm, Nat.add_left_comm]
@[simp] theorem pop_nanDraws (e : Env) : e.pop.nanDraws = e.nanDraws := rfl
@[simp] theorem popNaN_at (e : Env) (k : Nat) : e.popNaN.at k = e.at k := rfl
@[simp] theorem popNaN_answers (e : Env) : e.popNaN.answers = e.answers := rfl
@[simp] theorem popNaN_served (e : Env) : e.popNaN.served = e.served := rfl

end Sys2Proof.Machine
end

