-- ==== Sys2Proof/Laws/Memory.lean ====
section
/-! SUPPORT. The laws of the register bytes: a read after a write, and the canonical form kept by every memory
operation. -/

namespace Sys2Proof.Machine

/-! ## Reading after writing -/

theorem Memory.read_put (bg : Nat → Byte) (m : Memory) (k : Nat) (v : Byte) (j : Nat) :
    Memory.read bg (Memory.put k v m) j = if k = j then v else Memory.read bg m j := by
  induction m with
  | nil => simp [Memory.put, Memory.read]
  | cons e m ih =>
    obtain ⟨x, u⟩ := e
    simp only [Memory.put]
    split
    · simp [Memory.read]
    · split
      · subst_vars
        simp only [Memory.read]
        split <;> rfl
      · simp only [Memory.read, ih]
        split <;> split <;> simp_all

theorem Memory.read_drop (bg : Nat → Byte) (m : Memory) (k j : Nat) :
    Memory.read bg (Memory.drop k m) j = if k = j then bg j else Memory.read bg m j := by
  induction m with
  | nil => simp [Memory.drop, Memory.read]
  | cons e m ih =>
    obtain ⟨x, u⟩ := e
    simp only [Memory.drop]
    split
    · subst_vars
      simp only [Memory.read, ih]
      split <;> rfl
    · simp only [Memory.read, ih]
      split <;> split <;> simp_all

/-- A write is read back at its address and changes no other. -/
theorem Memory.read_write (bg : Nat → Byte) (m : Memory) (k : Nat) (v : Byte) (j : Nat) :
    Memory.read bg (Memory.write bg m k v) j = if k = j then v else Memory.read bg m j := by
  unfold Memory.write
  split
  · rw [Memory.read_drop]
    split <;> simp_all
  · rw [Memory.read_put]

/-! ## The canonical form -/

theorem Memory.drop_subset (k : Nat) (m : Memory) : ∀ e, e ∈ Memory.drop k m → e ∈ m := by
  induction m with
  | nil => simp [Memory.drop]
  | cons e m ih =>
    intro e' h
    simp only [Memory.drop] at h
    split at h
    · exact List.mem_cons_of_mem _ (ih _ h)
    · rcases List.mem_cons.1 h with rfl | h
      · simp
      · exact List.mem_cons_of_mem _ (ih _ h)

theorem Memory.mem_put (k : Nat) (v : Byte) (m : Memory) : ∀ e, e ∈ Memory.put k v m → e = (k, v) ∨ e ∈ m := by
  induction m with
  | nil => simp [Memory.put]
  | cons e m ih =>
    obtain ⟨x, u⟩ := e
    intro e' h
    simp only [Memory.put] at h
    split at h
    · simpa using h
    · split at h
      · rcases List.mem_cons.1 h with h | h
        · exact .inl h
        · exact .inr (List.mem_cons_of_mem _ h)
      · rcases List.mem_cons.1 h with h | h
        · exact .inr (by simp [h])
        · exact (ih _ h).imp id (List.mem_cons_of_mem _)

theorem Memory.wf_drop (bg : Nat → Byte) (k : Nat) (m : Memory) (h : Memory.wf bg m = true) :
    Memory.wf bg (Memory.drop k m) = true := by
  induction m with
  | nil => rfl
  | cons e m ih =>
    obtain ⟨x, u⟩ := e
    simp only [Memory.wf, Bool.and_eq_true, List.all_eq_true, decide_eq_true_eq] at h
    simp only [Memory.drop]
    split
    · exact ih h.2
    · simp only [Memory.wf, Bool.and_eq_true, List.all_eq_true, decide_eq_true_eq]
      exact ⟨⟨fun e he => h.1.1 e (Memory.drop_subset _ _ e he), h.1.2⟩, ih h.2⟩

theorem Memory.wf_put (bg : Nat → Byte) (k : Nat) (v : Byte) (m : Memory) (hv : v ≠ bg k)
    (h : Memory.wf bg m = true) : Memory.wf bg (Memory.put k v m) = true := by
  induction m with
  | nil => simp [Memory.put, Memory.wf, hv]
  | cons e m ih =>
    obtain ⟨x, u⟩ := e
    have h0 := h
    simp only [Memory.wf, Bool.and_eq_true, List.all_eq_true, decide_eq_true_eq] at h
    obtain ⟨⟨h1, h2⟩, h3⟩ := h
    simp only [Memory.put]
    split
    next hlt =>
      simp only [Memory.wf, Bool.and_eq_true, List.all_eq_true, decide_eq_true_eq]
      refine ⟨⟨fun e he => ?_, by simpa using hv⟩, ⟨h1, h2⟩, h3⟩
      rcases List.mem_cons.1 he with rfl | he
      · exact hlt
      · exact hlt.trans (h1 e he)
    · split
      next hx =>
        subst hx
        simp only [Memory.wf, Bool.and_eq_true, List.all_eq_true, decide_eq_true_eq]
        exact ⟨⟨h1, by simpa using hv⟩, h3⟩
      next hlt hne =>
        simp only [Memory.wf, Bool.and_eq_true, List.all_eq_true, decide_eq_true_eq]
        refine ⟨⟨fun e he => ?_, h2⟩, ih h3⟩
        rcases Memory.mem_put _ _ _ e he with rfl | he
        · simp only
          omega
        · exact h1 e he

/-- Every write keeps the canonical form. -/
theorem Memory.wf_write (bg : Nat → Byte) (m : Memory) (k : Nat) (v : Byte) (h : Memory.wf bg m = true) :
    Memory.wf bg (Memory.write bg m k v) = true := by
  unfold Memory.write
  split
  · exact Memory.wf_drop bg k m h
  next hv => exact Memory.wf_put bg k v m hv h

/-- What a write can list: nothing but its own address and what was listed. -/
theorem Memory.mem_write (bg : Nat → Byte) (m : Memory) (k : Nat) (v : Byte) :
    ∀ e, e ∈ Memory.write bg m k v → e = (k, v) ∨ e ∈ m := by
  intro e h
  unfold Memory.write at h
  split at h
  · exact .inr (Memory.drop_subset _ _ _ h)
  · exact Memory.mem_put _ _ _ _ h

/-! ## Registers -/

/-- `REG[b]` after `REG[a] <- v`. -/
@[simp] theorem regAt_setReg (s : State) (a : Addr) (v : Byte) (b : Addr) :
    regAt (setReg s a v) b = if a = b then v else regAt s b := by
  unfold regAt setReg
  rw [Memory.read_write]
  simp only [BitVec.toNat_inj]

/-- Registers read the same in states of one configuration and one memory. -/
theorem regAt_congr {s t : State} (hc : t.cfg = s.cfg) (hm : t.mem = s.mem) (a : Addr) :
    regAt t a = regAt s a := by
  unfold regAt
  rw [hc, hm]

/-- The reset memory is in canonical form. -/
theorem resetWith_canonical (c : Cfg) : Memory.wf (background c) (State.resetWith c).mem = true := rfl

/-- A register reads its default at reset (R34, CleanPowerOn). -/
@[simp] theorem regAt_resetWith (c : Cfg) (a : Addr) : regAt (State.resetWith c) a = defaultOf c a := by
  simp [regAt, State.resetWith, Memory.read, background]

end Sys2Proof.Machine
end

