-- ==== Sys2Proof/Laws/Bus.lean ====
section
/-! SUPPORT. What a bus transaction can do: the latch laws, one lemma per case of `MemRead` and `MemWrite`
(R42, R43), and the frame every sequence of transactions keeps. -/

namespace Sys2Proof.Machine

/-! ## Latches -/

@[simp] theorem latchOf_setLatch (l : Latches) (p q : Pair) (v : Option (BitVec 8)) :
    latchOf (setLatch l p v) q = if p = q then v else latchOf l q := by
  cases p <;> cases q <;> rfl

/-- R45(d): exactly the latches of pairs that hold a are cleared. -/
theorem latchOf_clearLatches (c : Cfg) (l : Latches) (a : Addr) (p : Pair) :
    latchOf (clearLatches c l a) p = if inPair (pairCfg c p) a then none else latchOf l p := by
  simp only [clearLatches, allPairs, List.foldl]
  cases p <;> (split <;> split <;> split <;> simp_all)

/-- R42, R45(b): exactly the latching pairs whose first byte a is are filled. -/
theorem latchOf_fillLatches (c : Cfg) (l : Latches) (a : Addr) (other : Pair → Byte) (p : Pair) :
    latchOf (fillLatches c l a other) p =
      if (pairCfg c p).latching && firstAddr (pairCfg c p) == a then some (other p) else latchOf l p := by
  simp only [fillLatches, allPairs, List.foldl]
  cases p <;> (split <;> split <;> split <;> simp_all)

/-- A latched byte is that of some pair whose second byte the address is. -/
theorem latchedByte_some {c : Cfg} {l : Latches} {a : Addr} {b : BitVec 8} (h : latchedByte c l a = some b) :
    ∃ p, secondAddr (pairCfg c p) = a ∧ latchOf l p = some b := by
  obtain ⟨p, -, hp⟩ := List.exists_of_findSome?_eq_some h
  split at hp
  next hq => exact ⟨p, by simpa using hq, hp⟩
  · cases hp

/-- No byte is latched for an address that is no held pair's second byte. -/
theorem latchedByte_none {c : Cfg} {l : Latches} {a : Addr}
    (h : ∀ p, secondAddr (pairCfg c p) = a → latchOf l p = none) : latchedByte c l a = none := by
  rw [latchedByte, List.findSome?_eq_none_iff]
  intro p _
  split
  next hq => exact h p (by simpa using hq)
  · rfl

theorem inPair_first (p : PairCfg) : inPair p (firstAddr p) = true := by
  unfold inPair firstAddr
  split <;> simp

theorem inPair_second (p : PairCfg) : inPair p (secondAddr p) = true := by
  unfold inPair secondAddr
  split <;> simp

/-! ## Progress -/

/-- The state an operation's progress has reached. -/
def Res.state {α : Type} : Res α → State
  | .ok _ s => s
  | .raise _ _ s => s

@[simp] theorem Res.state_ok {α : Type} (v : α) (s : State) : (Res.ok v s).state = s := rfl
@[simp] theorem Res.state_raise {α : Type} (f : FaultCode) (i : Word32) (s : State) :
    (Res.raise f i s : Res α).state = s := rfl
@[simp] theorem Res.bind_ok {α β : Type} (v : α) (s : State) (k : α → State → Res β) :
    (Res.ok v s).bind k = k v s := rfl
@[simp] theorem Res.bind_raise {α β : Type} (f : FaultCode) (i : Word32) (s : State) (k : α → State → Res β) :
    (Res.raise f i s).bind k = .raise f i s := rfl

/-- A property of the state that a body keeps and its continuation keeps is kept by both in sequence. -/
theorem Res.bind_keeps {α β : Type} {R : State → State → Prop} (trans : ∀ {x y z}, R x y → R y z → R x z)
    {s : State} {r : Res α} {k : α → State → Res β} (hr : R s r.state)
    (hk : ∀ v t, r = .ok v t → R t (k v t).state) : R s (r.bind k).state := by
  cases r with
  | ok v t => exact trans hr (hk v t rfl)
  | raise f i t => exact hr

/-! ## The frame of transactions -/

/-- What no transaction and no sleep changes: everything but `REG`, the latches, the sequencer's index, the
history, which only grows, and the environment's answers. -/
structure BusFrame (s t : State) : Prop where
  cfg : t.cfg = s.cfg
  cmd : t.cmd = s.cmd
  ov : t.ov = s.ov
  obuf : t.obuf = s.obuf
  results : t.results = s.results
  resultsWritten : t.resultsWritten = s.resultsWritten
  faults : t.faults = s.faults
  moves : t.moves = s.moves
  received : t.received = s.received
  history : s.history <+: t.history

theorem BusFrame.refl (s : State) : BusFrame s s :=
  ⟨rfl, rfl, rfl, rfl, rfl, rfl, rfl, rfl, rfl, List.prefix_rfl⟩

theorem BusFrame.trans {s t u : State} (h : BusFrame s t) (g : BusFrame t u) : BusFrame s u :=
  ⟨g.cfg.trans h.cfg, g.cmd.trans h.cmd, g.ov.trans h.ov, g.obuf.trans h.obuf, g.results.trans h.results,
    g.resultsWritten.trans h.resultsWritten, g.faults.trans h.faults, g.moves.trans h.moves,
    g.received.trans h.received, h.history.trans g.history⟩

theorem sleep_frame (s : State) (ms : Word32) : BusFrame s (sleep s ms) :=
  ⟨rfl, rfl, rfl, rfl, rfl, rfl, rfl, rfl, rfl, List.prefix_append _ _⟩

/-! ## MemRead (R42), case by case -/

theorem memRead_unmapped {s : State} {a : Addr} (h : attrOf s.cfg a = .unmapped) :
    memRead s a = .raise .unmappedRegister (a.setWidth 32) s := by
  simp [memRead, h]

theorem memRead_fails {s : State} {a : Addr} (h : attrOf s.cfg a ≠ .unmapped) (hf : (s.env.at 0).fails = true) :
    memRead s a = .raise .busError (a.setWidth 32) (record (touch (useAnswer s) a) (.readFailed a)) := by
  simp [memRead, h, hf]

theorem memRead_latched {s : State} {a : Addr} {b : Byte} (h : attrOf s.cfg a ≠ .unmapped)
    (hf : (s.env.at 0).fails = false) (hl : latchedByte s.cfg s.latches a = some b) :
    memRead s a = .ok b (record (touch (useAnswer s) a) (.read a b)) := by
  simp [memRead, h, hf, readByte, hl]

/-- The state after a read that no latch served: the latches of pairs holding a are cleared, then those a read of
a first byte fills are filled. -/
def plainReadState (s : State) (a : Addr) : State :=
  { record (useAnswer s) (.read a (plainByte s a (s.env.at 0))) with
    latches := fillLatches s.cfg (clearLatches s.cfg s.latches a) a (otherByte s a (s.env.at 0)) }

theorem memRead_plain {s : State} {a : Addr} (h : attrOf s.cfg a ≠ .unmapped)
    (hf : (s.env.at 0).fails = false) (hl : latchedByte s.cfg s.latches a = none) :
    memRead s a = .ok (plainByte s a (s.env.at 0)) (plainReadState s a) := by
  simp only [memRead, h, if_false, hf, readByte, useAnswer_cfg, useAnswer_latches, hl]
  rfl

/-- The four ways a read can end (R42). -/
theorem memRead_cases (s : State) (a : Addr) :
    memRead s a = .raise .unmappedRegister (a.setWidth 32) s ∨
    memRead s a = .raise .busError (a.setWidth 32) (record (touch (useAnswer s) a) (.readFailed a)) ∨
    (∃ b, latchedByte s.cfg s.latches a = some b ∧
      memRead s a = .ok b (record (touch (useAnswer s) a) (.read a b))) ∨
    memRead s a = .ok (plainByte s a (s.env.at 0)) (plainReadState s a) := by
  by_cases h : attrOf s.cfg a = .unmapped
  · exact .inl (memRead_unmapped h)
  · cases hf : (s.env.at 0).fails with
    | true => exact .inr (.inl (memRead_fails h hf))
    | false =>
      cases hl : latchedByte s.cfg s.latches a with
      | none => exact .inr (.inr (.inr (memRead_plain h hf hl)))
      | some b => exact .inr (.inr (.inl ⟨b, rfl, memRead_latched h hf hl⟩))

theorem memRead_frame (s : State) (a : Addr) : BusFrame s (memRead s a).state := by
  rcases memRead_cases s a with h | h | ⟨b, -, h⟩ | h <;> rw [h]
  · exact BusFrame.refl s
  all_goals exact ⟨rfl, rfl, rfl, rfl, rfl, rfl, rfl, rfl, rfl, List.prefix_append _ _⟩

/-- A read changes no byte of `REG`. -/
theorem memRead_mem (s : State) (a : Addr) : (memRead s a).state.mem = s.mem := by
  rcases memRead_cases s a with h | h | ⟨b, -, h⟩ | h <;> rw [h] <;> rfl

/-- A read changes only latches of pairs that hold its address. -/
theorem memRead_latches (s : State) (a : Addr) (p : Pair) (hp : inPair (pairCfg s.cfg p) a = false) :
    latchOf (memRead s a).state.latches p = latchOf s.latches p := by
  have hq : firstAddr (pairCfg s.cfg p) ≠ a := by
    rintro rfl
    rw [inPair_first] at hp
    cases hp
  rcases memRead_cases s a with h | h | ⟨b, -, h⟩ | h <;> rw [h]
  · rfl
  · simp [latchOf_clearLatches, hp]
  · simp [latchOf_clearLatches, hp]
  · simp [plainReadState, latchOf_fillLatches, latchOf_clearLatches, hp, hq]

/-! ## MemWrite (R43), case by case -/

theorem memWrite_unmapped {s : State} {a : Addr} (v : Byte) (h : attrOf s.cfg a = .unmapped) :
    memWrite s a v = .raise .unmappedRegister (a.setWidth 32) s := by
  simp [memWrite, h]

theorem memWrite_ro {s : State} {a : Addr} (v : Byte) (h : attrOf s.cfg a = .ro) :
    memWrite s a v = .raise .busError (a.setWidth 32) (record (touch s a) (.write a v .failed)) := by
  simp [memWrite, h]

theorem memWrite_fails {s : State} {a : Addr} (v : Byte) (h : attrOf s.cfg a = .rw)
    (hf : (s.env.at 0).fails = true) :
    memWrite s a v = .raise .busError (a.setWidth 32)
      (record (setReg (touch (useAnswer s) a) a (if (s.env.at 0).takesNew then v else regAt s a))
        (.write a v .failed)) := by
  simp [memWrite, h, hf]

theorem memWrite_locked {s : State} {a : Addr} (v : Byte) (h : attrOf s.cfg a = .rw)
    (hf : (s.env.at 0).fails = false) (hl : isLutAddr s.cfg a = true) (hg : lutGoverns s = true) :
    memWrite s a v = .raise .lutLocked (a.setWidth 32)
      (record (touch (useAnswer s) a) (.write a v .refused)) := by
  have hg' : lutGoverns (useAnswer s) = true := hg
  simp [memWrite, h, hf, writeByte, hl, hg']

theorem memWrite_governed {s : State} {a : Addr} (v : Byte) (h : attrOf s.cfg a = .rw)
    (hf : (s.env.at 0).fails = false) (hl : isLutAddr s.cfg a = false) (ha : a = s.cfg.fanSetting)
    (hg : lutGoverns s = true) :
    memWrite s a v = .ok ()
      (record (setReg (touch (useAnswer s) a) a (if (s.env.at 0).takesNew then v else regAt s a))
        (.write a v .ok)) := by
  have hg' : lutGoverns (useAnswer s) = true := hg
  have hr : regAt (useAnswer s) s.cfg.fanSetting = regAt s s.cfg.fanSetting := rfl
  subst ha
  simp [memWrite, h, hf, writeByte, hl, hg', hr]

theorem memWrite_stores {s : State} {a : Addr} (v : Byte) (h : attrOf s.cfg a = .rw)
    (hf : (s.env.at 0).fails = false)
    (hg : lutGoverns s = false ∨ (isLutAddr s.cfg a = false ∧ a ≠ s.cfg.fanSetting)) :
    memWrite s a v = .ok ()
      (record (setReg (touch (useAnswer s) a) a v)
        (.write a v (if a = s.cfg.oneShot then .oneShot else .ok))) := by
  rcases hg with hg | ⟨hl, ha⟩
  · have hg' : lutGoverns (useAnswer s) = false := hg
    simp [memWrite, h, hf, writeByte, hg']
    rfl
  · simp [memWrite, h, hf, writeByte, hl, ha]
    rfl

/-- The six ways a write can end (R43). -/
theorem memWrite_cases (s : State) (a : Addr) (v : Byte) :
    memWrite s a v = .raise .unmappedRegister (a.setWidth 32) s ∨
    memWrite s a v = .raise .busError (a.setWidth 32) (record (touch s a) (.write a v .failed)) ∨
    (attrOf s.cfg a = .rw ∧ memWrite s a v = .raise .busError (a.setWidth 32)
      (record (setReg (touch (useAnswer s) a) a (if (s.env.at 0).takesNew then v else regAt s a))
        (.write a v .failed))) ∨
    memWrite s a v = .raise .lutLocked (a.setWidth 32)
      (record (touch (useAnswer s) a) (.write a v .refused)) ∨
    (attrOf s.cfg a = .rw ∧ memWrite s a v = .ok ()
      (record (setReg (touch (useAnswer s) a) a (if (s.env.at 0).takesNew then v else regAt s a))
        (.write a v .ok))) ∨
    (attrOf s.cfg a = .rw ∧ memWrite s a v = .ok ()
      (record (setReg (touch (useAnswer s) a) a v)
        (.write a v (if a = s.cfg.oneShot then .oneShot else .ok)))) := by
  cases h : attrOf s.cfg a with
  | unmapped => exact .inl (memWrite_unmapped v h)
  | ro => exact .inr (.inl (memWrite_ro v h))
  | rw =>
    cases hf : (s.env.at 0).fails with
    | true => exact .inr (.inr (.inl ⟨rfl, memWrite_fails v h hf⟩))
    | false =>
      cases hg : lutGoverns s with
      | false => exact .inr (.inr (.inr (.inr (.inr ⟨rfl, memWrite_stores v h hf (.inl hg)⟩))))
      | true =>
        cases hl : isLutAddr s.cfg a with
        | true => exact .inr (.inr (.inr (.inl (memWrite_locked v h hf hl hg))))
        | false =>
          by_cases ha : a = s.cfg.fanSetting
          · exact .inr (.inr (.inr (.inr (.inl ⟨rfl, memWrite_governed v h hf hl ha hg⟩))))
          · exact .inr (.inr (.inr (.inr (.inr ⟨rfl, memWrite_stores v h hf (.inr ⟨hl, ha⟩)⟩))))

theorem memWrite_frame (s : State) (a : Addr) (v : Byte) : BusFrame s (memWrite s a v).state := by
  rcases memWrite_cases s a v with h | h | ⟨-, h⟩ | h | ⟨-, h⟩ | ⟨-, h⟩ <;> rw [h]
  · exact BusFrame.refl s
  all_goals exact ⟨rfl, rfl, rfl, rfl, rfl, rfl, rfl, rfl, rfl, List.prefix_append _ _⟩

/-- A write's memory is the old one, or the old one with some byte written at its own RW address. -/
theorem memWrite_mem (s : State) (a : Addr) (v : Byte) :
    (memWrite s a v).state.mem = s.mem ∨
    (attrOf s.cfg a = .rw ∧ ∃ u, (memWrite s a v).state.mem = (setReg s a u).mem) := by
  rcases memWrite_cases s a v with h | h | ⟨hw, h⟩ | h | ⟨hw, h⟩ | ⟨hw, h⟩ <;> rw [h]
  · exact .inl rfl
  · exact .inl rfl
  · exact .inr ⟨hw, _, rfl⟩
  · exact .inl rfl
  · exact .inr ⟨hw, _, rfl⟩
  · exact .inr ⟨hw, _, rfl⟩

/-- A write changes no register but its own. -/
theorem memWrite_regAt (s : State) (a : Addr) (v : Byte) (b : Addr) (hb : b ≠ a) :
    regAt (memWrite s a v).state b = regAt s b := by
  have hc := (memWrite_frame s a v).cfg
  rcases memWrite_mem s a v with h | ⟨-, u, h⟩
  · exact regAt_congr hc h b
  · rw [regAt_congr (s := setReg s a u) hc h b, regAt_setReg, if_neg hb.symm]

/-- A write changes only latches of pairs that hold its address, and leaves no others' set. -/
theorem memWrite_latches (s : State) (a : Addr) (v : Byte) (p : Pair) :
    latchOf (memWrite s a v).state.latches p = latchOf s.latches p ∨
    (inPair (pairCfg s.cfg p) a = true ∧ latchOf (memWrite s a v).state.latches p = none) := by
  rcases memWrite_cases s a v with h | h | ⟨-, h⟩ | h | ⟨-, h⟩ | ⟨-, h⟩ <;> rw [h]
  · exact .inl rfl
  all_goals
    simp only [Res.state_raise, Res.state_ok, record_latches, setReg_latches, touch_latches, useAnswer_cfg,
      useAnswer_latches, latchOf_clearLatches]
    cases inPair (pairCfg s.cfg p) a <;> simp

/-! ## Sequences of transactions -/

theorem readList_frame (as : List Addr) : ∀ s, BusFrame s (readList s as).state := by
  induction as with
  | nil => exact BusFrame.refl
  | cons a as ih =>
    intro s
    exact Res.bind_keeps (R := BusFrame) BusFrame.trans (memRead_frame s a) fun v t _ =>
      Res.bind_keeps (R := BusFrame) BusFrame.trans (ih t) fun vs u _ => BusFrame.refl u

theorem readList_mem (as : List Addr) : ∀ s, (readList s as).state.mem = s.mem := by
  induction as with
  | nil => intro s; rfl
  | cons a as ih =>
    intro s
    exact Res.bind_keeps (R := fun x y => y.mem = x.mem) (fun h g => g.trans h) (memRead_mem s a) fun v t _ =>
      Res.bind_keeps (R := fun x y => y.mem = x.mem) (fun h g => g.trans h) (ih t) fun vs u _ => rfl

theorem writeList_frame (es : List (BitVec 8 × BitVec 8)) : ∀ s, BusFrame s (writeList s es).state := by
  induction es with
  | nil => exact BusFrame.refl
  | cons e es ih =>
    intro s
    exact Res.bind_keeps (R := BusFrame) BusFrame.trans (memWrite_frame s e.1 e.2) fun v t _ => ih t

/-- Writes change no register but those they address. -/
theorem writeList_regAt (es : List (BitVec 8 × BitVec 8)) :
    ∀ s b, b ∉ es.map Prod.fst → regAt (writeList s es).state b = regAt s b := by
  induction es with
  | nil => intro s b _; rfl
  | cons e es ih =>
    intro s b hb
    simp only [List.map_cons, List.mem_cons, not_or] at hb
    exact Res.bind_keeps (R := fun x y => regAt y b = regAt x b) (fun h g => g.trans h)
      (memWrite_regAt s e.1 e.2 b hb.1) fun v t _ => ih t b hb.2

theorem Res.bind_assoc {α β γ : Type} (r : Res α) (f : α → State → Res β) (g : β → State → Res γ) :
    (r.bind f).bind g = r.bind fun v s => (f v s).bind g := by
  cases r <;> rfl

/-- Writes of two lists, one after the other. -/
theorem writeList_append (es fs : List (BitVec 8 × BitVec 8)) :
    ∀ s, writeList s (es ++ fs) = (writeList s es).bind fun _ s => writeList s fs := by
  induction es with
  | nil => intro s; rfl
  | cons e es ih =>
    intro s
    simp only [List.cons_append, writeList, Res.bind_assoc, ih]

/-- Reads of two lists, one after the other. -/
theorem readList_append (as bs : List Addr) :
    ∀ s, readList s (as ++ bs) =
      (readList s as).bind fun vs s => (readList s bs).bind fun ws s => .ok (vs ++ ws) s := by
  induction as with
  | nil =>
    intro s
    simp only [List.nil_append, readList, Res.bind_ok]
    cases readList s bs <;> rfl
  | cons a as ih =>
    intro s
    simp only [List.cons_append, readList, Res.bind_assoc, ih, Res.bind_ok]

theorem readPair_eq (s : State) (p : Pair) :
    readPair s p = (memRead s (firstAddr (pairCfg s.cfg p))).bind fun x s' =>
      (memRead s' (secondAddr (pairCfg s.cfg p))).bind fun y s'' =>
        .ok (if (pairCfg s.cfg p).order = .hiFirst then (x, y) else (y, x)) s'' := by
  simp only [readPair, firstAddr, secondAddr]
  cases (pairCfg s.cfg p).order <;> simp

theorem readPair_frame (s : State) (p : Pair) : BusFrame s (readPair s p).state := by
  rw [readPair_eq]
  exact Res.bind_keeps (R := BusFrame) BusFrame.trans (memRead_frame s _) fun _ t _ =>
    Res.bind_keeps (R := BusFrame) BusFrame.trans (memRead_frame t _) fun _ u _ => BusFrame.refl u

theorem readPair_mem (s : State) (p : Pair) : (readPair s p).state.mem = s.mem := by
  rw [readPair_eq]
  exact Res.bind_keeps (R := fun x y => y.mem = x.mem) (fun h g => g.trans h) (memRead_mem s _) fun _ t _ =>
    Res.bind_keeps (R := fun x y => y.mem = x.mem) (fun h g => g.trans h) (memRead_mem t _) fun _ u _ => rfl

/-- The writes of `WritePair`, in `PAIR_ORDER(p)`. -/
def pairWrites (p : PairCfg) (hi lo : Byte) : List (BitVec 8 × BitVec 8) :=
  match p.order with
  | .hiFirst => [(p.hi, hi), (p.lo, lo)]
  | .loFirst => [(p.lo, lo), (p.hi, hi)]

theorem writePair_eq (s : State) (p : Pair) (hi lo : Byte) :
    writePair s p hi lo = writeList s (pairWrites (pairCfg s.cfg p) hi lo) := by
  simp only [writePair, pairWrites]
  cases (pairCfg s.cfg p).order <;> rfl

end Sys2Proof.Machine
end

