-- ==== Sys2Proof/Laws/Encoding.lean ====
section
/-! SUPPORT. The fields of a packed command word, and what decoding reads of a word. -/

namespace Sys2Proof

theorem toNat_append_eq {n m : Nat} (x : BitVec n) (y : BitVec m) :
    (x ++ y).toNat = x.toNat * 2 ^ m + y.toNat := by
  rw [BitVec.toNat_append, ← Nat.shiftLeft_add_eq_or_of_lt y.isLt, Nat.shiftLeft_eq]

theorem pack_toNat (op a b : BitVec 8) (w : BitVec 32) :
    (pack op a b w).toNat = op.toNat + 2 ^ 8 * a.toNat + 2 ^ 16 * b.toNat + 2 ^ 32 * w.toNat := by
  simp only [pack, toNat_append_eq, BitVec.toNat_ofNat]
  omega

@[simp] theorem cmdOp_pack (op a b : BitVec 8) (w : BitVec 32) : cmdOp (pack op a b w) = op := by
  have := op.isLt
  apply BitVec.eq_of_toNat_eq
  simp only [cmdOp, BitVec.extractLsb'_toNat, pack_toNat, Nat.shiftRight_eq_div_pow]
  omega

@[simp] theorem cmdA_pack (op a b : BitVec 8) (w : BitVec 32) : cmdA (pack op a b w) = a := by
  have := op.isLt
  have := a.isLt
  apply BitVec.eq_of_toNat_eq
  simp only [cmdA, BitVec.extractLsb'_toNat, pack_toNat, Nat.shiftRight_eq_div_pow]
  omega

@[simp] theorem cmdB_pack (op a b : BitVec 8) (w : BitVec 32) : cmdB (pack op a b w) = b := by
  have := op.isLt
  have := a.isLt
  have := b.isLt
  apply BitVec.eq_of_toNat_eq
  simp only [cmdB, BitVec.extractLsb'_toNat, pack_toNat, Nat.shiftRight_eq_div_pow]
  omega

@[simp] theorem cmdRsv_pack (op a b : BitVec 8) (w : BitVec 32) : cmdRsv (pack op a b w) = 0x00#8 := by
  have := op.isLt
  have := a.isLt
  have := b.isLt
  apply BitVec.eq_of_toNat_eq
  simp only [cmdRsv, BitVec.extractLsb'_toNat, pack_toNat, Nat.shiftRight_eq_div_pow, BitVec.toNat_ofNat]
  omega

@[simp] theorem cmdW_pack (op a b : BitVec 8) (w : BitVec 32) : cmdW (pack op a b w) = w := by
  have := op.isLt
  have := a.isLt
  have := b.isLt
  have := w.isLt
  apply BitVec.eq_of_toNat_eq
  simp only [cmdW, BitVec.extractLsb'_toNat, pack_toNat, Nat.shiftRight_eq_div_pow]
  omega

/-- `CMD[47:32]` is the low half of W (R62). -/
theorem cmdW16_eq (w : BitVec 64) : cmdW16 w = (cmdW w).setWidth 16 := by
  apply BitVec.eq_of_toNat_eq
  simp only [cmdW16, cmdW, BitVec.extractLsb'_toNat, BitVec.toNat_setWidth, Nat.shiftRight_eq_div_pow]
  omega

@[simp] theorem cmdW16_pack (op a b : BitVec 8) (x t : BitVec 16) :
    cmdW16 (pack op a b (x ++ t)) = t := by
  rw [cmdW16_eq, cmdW_pack]
  have := t.isLt
  apply BitVec.eq_of_toNat_eq
  simp only [BitVec.toNat_setWidth, toNat_append_eq]
  omega

/-- A word is the packing of its fields, when RSV = 0x00. -/
theorem pack_fields (w : BitVec 64) (h : cmdRsv w = 0x00#8) : pack (cmdOp w) (cmdA w) (cmdB w) (cmdW w) = w := by
  have hr := congrArg BitVec.toNat h
  have := w.isLt
  apply BitVec.eq_of_toNat_eq
  simp only [pack_toNat, cmdOp, cmdA, cmdB, cmdW, cmdRsv, BitVec.extractLsb'_toNat, Nat.shiftRight_eq_div_pow,
    BitVec.toNat_ofNat] at hr ⊢
  omega

/-- A word that decodes has RSV = 0x00 and an operation's opcode (R64). -/
theorem decode_ok {w : BitVec 64} {i : Instr} (h : decode w = .ok i) :
    cmdRsv w = 0x00#8 ∧ decodeOp w = .ok i ∧ i.opcode = cmdOp w := by
  unfold decode at h
  split at h
  next hr =>
    refine ⟨hr, h, ?_⟩
    unfold decodeOp at h
    split at h
    case h_24 =>
      exfalso
      split at h
      · cases h
      · split at h <;> cases h
    all_goals
      next e =>
        cases h
        rw [e]
        rfl
  · cases h

end Sys2Proof
end

