-- ==== Sys2Proof/Laws/Operation.lean ====
section
/-! SUPPORT. What an operation can do, said once: every meaning runs a body and ends, and a relation between states
that transactions, sleeps and NaN draws keep is kept by every body. -/

namespace Sys2Proof.Machine

/-- The body each meaning runs. -/
def opBody : Instr → State → Res Results
  | .bfDecode ls b => bfDecodeBody ls b
  | .bfEncode ls => bfEncodeBody ls
  | .tachToRpm t => tachToRpmBody t
  | .rpmToTach r => rpmToTachBody r
  | .tempDecode msb lsb => tempDecodeBody msb lsb
  | .tempEncode v => encodeTempBody tempEncode v
  | .ltempDecode whole frac => ltempDecodeBody whole frac
  | .ltempEncode v => encodeTempBody ltempEncode v
  | .lutRead => lutReadBody
  | .lutWrite => lutWriteBody
  | .lutHystRead => lutHystReadBody
  | .lutHystWrite b => lutHystWriteBody b
  | .fanSpeedGet => fanSpeedGetBody
  | .fanSpeedSet speed => fanSpeedSetBody speed
  | .intLimitSet v => intLimitSetBody v
  | .extTempRead => extTempReadBody
  | .fanRpmGet => fanRpmGetBody
  | .minRpmGet => minRpmGetBody
  | .minRpmSet r => minRpmSetBody r
  | .regRead a => regReadBody a
  | .regWrite a b => regWriteBody a b
  | .resetDefaults => resetDefaultsBody
  | .validate => validateBody

/-- Every meaning runs its body and ends. -/
theorem exec_eq (i : Instr) (s : State) : exec i s = .next (ended (opBody i (start s i))) := by
  cases i <;> rfl

/-- The next state of a meaning is its body's end. -/
theorem exec_next {i : Instr} {s t : State} (h : exec i s = .next t) : t = ended (opBody i (start s i)) := by
  rw [exec_eq] at h
  exact (Host.Outcome.next.inj h).symm

/-- A body that completes is finished with its results. -/
theorem exec_of_ok {i : Instr} {s t : State} {r : Results} (h : opBody i (start s i) = .ok r t) :
    exec i s = .next (finish t r) := by
  rw [exec_eq, h]
  rfl

/-- A body that raises a fault takes it. -/
theorem exec_of_raise {i : Instr} {s t : State} {f : FaultCode} {x : Word32}
    (h : opBody i (start s i) = .raise f x t) : exec i s = .next (takeFault t f x) := by
  rw [exec_eq, h]
  rfl

/-! ## Relations kept by every body -/

/-- A reflexive and transitive relation that transactions, sleeps and NaN draws keep. -/
structure Kept (R : State → State → Prop) : Prop where
  refl : ∀ s, R s s
  trans : ∀ {s t u}, R s t → R t u → R s u
  read : ∀ s a, R s (memRead s a).state
  write : ∀ s a v, R s (memWrite s a v).state
  sleep : ∀ s ms, R s (sleep s ms)
  nan : ∀ s : State, R s { s with env := s.env.popNaN }

namespace Kept

variable {R : State → State → Prop} (h : Kept R)
include h

theorem bind {α β : Type} {s : State} {r : Res α} {k : α → State → Res β} (hr : R s r.state)
    (hk : ∀ v t, R t (k v t).state) : R s (r.bind k).state :=
  Res.bind_keeps (R := R) h.trans hr fun v t _ => hk v t

/-- A sequence whose continuation only builds a value. -/
theorem map {α β : Type} {s : State} {r : Res α} {f : α → State → β} (hr : R s r.state) :
    R s (r.bind fun v s => .ok (f v s) s).state :=
  h.bind hr fun _ t => h.refl t

theorem readList (as : List Addr) : ∀ s, R s (readList s as).state := by
  induction as with
  | nil => exact h.refl
  | cons a as ih => exact fun s => h.bind (h.read s a) fun _ t => h.map (ih t)

theorem writeList (es : List (BitVec 8 × BitVec 8)) : ∀ s, R s (writeList s es).state := by
  induction es with
  | nil => exact h.refl
  | cons e es ih => exact fun s => h.bind (h.write s e.1 e.2) fun _ t => ih t

theorem readPair (s : State) (p : Pair) : R s (readPair s p).state := by
  rw [readPair_eq]
  exact h.bind (h.read s _) fun _ t => h.map (h.read t _)

theorem writePair (s : State) (p : Pair) (hi lo : Byte) : R s (writePair s p hi lo).state := by
  rw [writePair_eq]
  exact h.writeList _ s

theorem readTemp (msb lsb : Byte) (s : State) : R s (readTemp msb lsb s).state := by
  unfold Machine.readTemp
  split
  · exact h.refl s
  · exact h.nan s

/-- Every body keeps the relation. -/
theorem body (i : Instr) (s : State) : R s (opBody i s).state := by
  cases i with
  | bfDecode ls b =>
    simp only [opBody, bfDecodeBody]
    split <;> exact h.refl s
  | bfEncode ls =>
    simp only [opBody, bfEncodeBody]
    split
    · exact h.refl s
    · split <;> exact h.refl s
  | tachToRpm t => exact h.refl s
  | rpmToTach r => exact h.refl s
  | tempDecode msb lsb => exact h.map (h.readTemp msb lsb s)
  | tempEncode v =>
    simp only [opBody, encodeTempBody]
    split <;> exact h.refl s
  | ltempDecode whole frac => exact h.refl s
  | ltempEncode v =>
    simp only [opBody, encodeTempBody]
    split <;> exact h.refl s
  | lutRead => exact h.map (h.readList _ s)
  | lutWrite => exact h.map (h.writeList _ s)
  | lutHystRead => exact h.map (h.read s _)
  | lutHystWrite b => exact h.map (h.write s _ _)
  | fanSpeedGet => exact h.map (h.read s _)
  | fanSpeedSet speed => exact h.map (h.write s _ _)
  | intLimitSet v =>
    simp only [opBody, intLimitSetBody]
    split
    · exact h.map (h.write s _ _)
    · exact h.refl s
  | extTempRead =>
    refine h.bind (h.read s _) fun c t => h.bind ?_ fun _ u => h.bind (h.readPair u _) fun p v =>
      h.map (h.readTemp _ _ v)
    unfold triggerIfStandby
    split
    · exact h.bind (h.write t _ _) fun _ u => h.sleep u _
    · exact h.refl t
  | fanRpmGet => exact h.map (h.readPair s _)
  | minRpmGet => exact h.map (h.readPair s _)
  | minRpmSet r => exact h.map (h.writePair s _ _ _)
  | regRead a => exact h.map (h.read s _)
  | regWrite a b => exact h.map (h.write s _ _)
  | resetDefaults => exact h.map (h.writeList _ s)
  | validate => exact h.map (h.readList _ s)

end Kept

/-- Every body keeps the frame of transactions. -/
theorem busFrame_kept : Kept BusFrame where
  refl := BusFrame.refl
  trans := BusFrame.trans
  read := memRead_frame
  write := memWrite_frame
  sleep := sleep_frame
  nan _ := ⟨rfl, rfl, rfl, rfl, rfl, rfl, rfl, rfl, rfl, List.prefix_rfl⟩

theorem opBody_frame (i : Instr) (s : State) : BusFrame s (opBody i s).state := busFrame_kept.body i s

/-! ## How a body's end reads -/

/-- Ending changes nothing but the result ports, their validity, the sequencer and, at a fault, FAULTS. -/
theorem ended_mem (r : Res Results) : (ended r).mem = r.state.mem := by cases r <;> rfl
theorem ended_cfg (r : Res Results) : (ended r).cfg = r.state.cfg := by cases r <;> rfl
theorem ended_latches (r : Res Results) : (ended r).latches = r.state.latches := by cases r <;> rfl
theorem ended_history (r : Res Results) : (ended r).history = r.state.history := by cases r <;> rfl
theorem ended_env (r : Res Results) : (ended r).env = r.state.env := by cases r <;> rfl
theorem ended_cmd (r : Res Results) : (ended r).cmd = r.state.cmd := by cases r <;> rfl
theorem ended_ov (r : Res Results) : (ended r).ov = r.state.ov := by cases r <;> rfl
theorem ended_obuf (r : Res Results) : (ended r).obuf = r.state.obuf := by cases r <;> rfl
theorem ended_moves (r : Res Results) : (ended r).moves = r.state.moves := by cases r <;> rfl
theorem ended_received (r : Res Results) : (ended r).received = r.state.received := by cases r <;> rfl
theorem ended_seq (r : Res Results) : (ended r).seq = .idle := by cases r <;> rfl
theorem ended_resultsWritten (r : Res Results) : (ended r).resultsWritten = true := by cases r <;> rfl

end Sys2Proof.Machine
end

