-- ==== Sys2Proof/Laws/Run.lean ====
section
/-! SUPPORT. How sequences of transactions come out: what a read gives and what a write leaves when the environment
fails none of them, and that transactions keep the invariants of the register space. -/

namespace Sys2Proof.Machine

/-! ## Answers -/

theorem Env.at_pop (e : Env) (k : Nat) : e.pop.at k = e.at (k + 1) := by
  simp only [Env.at, Env.pop, List.getElem?_tail]
  congr 2
  omega

/-- The answers left after one that did not fail. -/
theorem answersOk_pop {s t : State} {n : Nat} (h : answersOk s (n + 1)) (ht : t.env = s.env.pop) :
    answersOk t n := by
  intro k hk
  rw [ht, Env.at_pop]
  exact h (k + 1) (by omega)

theorem answersOk_zero {s : State} {n : Nat} (h : answersOk s (n + 1)) : (s.env.at 0).fails = false :=
  h 0 (by omega)

/-- The environment after one transaction fails one transaction sooner. -/
theorem failsAfter_pop {s t : State} {n : Nat} (h : failsAfter s (n + 1)) (ht : t.env = s.env.pop) :
    failsAfter t n :=
  ⟨answersOk_pop h.1 ht, by rw [ht, Env.at_pop]; exact h.2⟩

theorem answersOk_mono {s : State} {n m : Nat} (h : answersOk s n) (hm : m ≤ n) : answersOk s m :=
  fun k hk => h k (by omega)

/-! ## The invariants of the register space -/

/-- Both bytes of a pair have one attribute. A well-formed configuration has it (R28 items 3 and 4). -/
abbrev PairAttrs (c : Cfg) : Prop :=
  ∀ p, attrOf c (firstAddr (pairCfg c p)) = attrOf c (secondAddr (pairCfg c p))

theorem cfgWf_names {c : Cfg} (h : cfgWf c = true) : namesWf c = true := by
  simp only [cfgWf, Bool.and_eq_true] at h
  exact h.1.1.1.1.1.1.1.2

/-- R28 item 3, item 4: what the attribute of each named register is. -/
theorem attr_ro {c : Cfg} (h : cfgWf c = true) {a : Addr} (ha : a ∈ roNames c) : attrOf c a = .ro := by
  have := cfgWf_names h
  simp only [namesWf, Bool.and_eq_true, List.all_eq_true, beq_iff_eq] at this
  exact this.1 a ha

theorem attr_rw {c : Cfg} (h : cfgWf c = true) {a : Addr} (ha : a ∈ rwNames c) : attrOf c a = .rw := by
  have := cfgWf_names h
  simp only [namesWf, Bool.and_eq_true, List.all_eq_true, beq_iff_eq] at this
  exact this.2 a ha

theorem pairAttrs_of_wf {c : Cfg} (h : cfgWf c = true) : PairAttrs c := by
  have h1 := attr_ro h (a := c.extTemp.hi) (by simp [roNames])
  have h2 := attr_ro h (a := c.extTemp.lo) (by simp [roNames])
  have h3 := attr_ro h (a := c.tach.hi) (by simp [roNames])
  have h4 := attr_ro h (a := c.tach.lo) (by simp [roNames])
  have h5 := attr_rw h (a := c.tachLimit.hi) (by simp [rwNames])
  have h6 := attr_rw h (a := c.tachLimit.lo) (by simp [rwNames])
  intro p
  cases p <;> simp only [firstAddr, secondAddr, pairCfg] <;> split <;> simp [*]

/-- The table fits the ports and the address space, and its registers are RW (R24, R28 item 6). -/
structure LutFits (c : Cfg) : Prop where
  entries : c.lit.lutEntries ≤ 8
  stride : 2 ≤ c.lit.lutStride
  inSpace : ∀ j, j < lutLength c → c.lutBase.toNat + lutOffset c.lit j < 256
  rw : ∀ j, j < lutLength c → attrOf c (lutAddr c j) = .rw

theorem lutFits_of_wf {c : Cfg} (h : cfgWf c = true) : LutFits c := by
  simp only [cfgWf, lutWf, Bool.and_eq_true, List.all_eq_true, beq_iff_eq, List.mem_range, decide_eq_true_eq] at h
  obtain ⟨⟨⟨⟨-, ⟨he, hs⟩, hj⟩, -⟩, -⟩, -⟩ := h
  exact ⟨he, hs, fun j h => (hj j h).1, fun j h => (hj j h).2⟩

/-- The table's registers are RW (R28 item 6). -/
theorem attr_lut {c : Cfg} (h : cfgWf c = true) {j : Nat} (hj : j < lutLength c) : attrOf c (lutAddr c j) = .rw :=
  (lutFits_of_wf h).rw j hj

/-- At the source's literals the table is the sixteen registers from `LUT_BASE` on (R43, R170). -/
theorem lutLength_source {c : Cfg} (h : c.lit = Literals.source) : lutLength c = 16 := by rw [lutLength, h]; rfl

theorem lutAddr_source {c : Cfg} (h : c.lit = Literals.source) (j : Nat) :
    lutAddr c j = c.lutBase + BitVec.ofNat 8 j := by
  have : lutOffset c.lit j = j := by
    rw [lutOffset, h]
    exact Nat.div_add_mod j 2
  rw [lutAddr, this]

theorem lutAddrs_source {c : Cfg} (h : c.lit = Literals.source) :
    lutAddrs c = (List.range 16).map fun j => c.lutBase + BitVec.ofNat 8 j := by
  rw [lutAddrs, lutLength_source h]
  exact List.map_congr_left fun j _ => lutAddr_source h j

/-- The TACH_LIMIT pair defaults to 0xFFFF (R31, R224). -/
theorem tachLimit_default {c : Cfg} (h : cfgWf c = true) :
    defaultOf c c.tachLimit.hi = 0xFF#8 ∧ defaultOf c c.tachLimit.lo = 0xFF#8 := by
  simp only [cfgWf, tachLimitDefaultWf, Bool.and_eq_true, beq_iff_eq] at h
  obtain ⟨⟨⟨⟨⟨⟨-, hd⟩, -⟩, -⟩, -⟩, -⟩, -⟩ := h
  exact hd

/-- The literals lie in their formulas' domain (entry 27). -/
structure LiteralsOk (l : Literals) : Prop where
  tachMax : 1 ≤ l.tachMax
  tachDivisor : l.tachDivisor < 2 ^ 32
  finite : ∀ x, x ∈ f32Literals l → f32Finite x = true
  legacyMax : f32Finite (legacyMax l) = true

theorem literalsOk_of_wf {c : Cfg} (h : cfgWf c = true) : LiteralsOk c.lit := by
  simp only [cfgWf, literalsWf, Bool.and_eq_true, List.all_eq_true, decide_eq_true_eq] at h
  obtain ⟨-, ⟨⟨hm, hd⟩, hf⟩, hl⟩ := h
  exact ⟨hm, hd, hf, hl⟩

/-- The reciprocal's divisor is never 0 (R121, R122). -/
theorem LiteralsOk.divisor_pos {l : Literals} (h : LiteralsOk l) (t : Nat) : 0 < clampNat t 1 l.tachMax := by
  have := h.tachMax
  unfold clampNat
  omega

/-- A real number is no NaN. -/
theorem notNaN_of_finite {b : Word32} (h : f32Finite b = true) : isNaN b = false := by
  simp only [f32Finite, bne_iff_ne, ne_eq] at h
  simp [isNaN, h]

/-- Two neighbours of a list stand next to each other in it. -/
theorem neighbours_of_mem_zip {α : Type} (x y : α) : ∀ as : List α, (x, y) ∈ as.zip as.tail →
    ∃ pre post, as = pre ++ [x, y] ++ post
  | [], h => by cases h
  | [_], h => by cases h
  | a :: b :: as, h => by
    rcases List.mem_cons.1 h with e | h
    · cases e
      exact ⟨[], as, rfl⟩
    · obtain ⟨pre, post, e⟩ := neighbours_of_mem_zip x y (b :: as) h
      exact ⟨a :: pre, post, by rw [e]; rfl⟩

/-- `DEFAULTS` lists the two bytes of TACH_LIMIT next to each other, in `PAIR_ORDER` (R45(a); entry 26). -/
theorem tachLimit_listed {c : Cfg} (h : cfgWf c = true) : ∃ pre post, c.defaults.map Prod.fst =
    pre ++ [firstAddr c.tachLimit, secondAddr c.tachLimit] ++ post := by
  simp only [cfgWf, tachLimitListedWf, Bool.and_eq_true, List.contains_iff_mem] at h
  obtain ⟨⟨⟨⟨⟨-, hl⟩, -⟩, -⟩, -⟩, -⟩ := h
  exact neighbours_of_mem_zip _ _ _ hl

/-- Every address of `DEFAULTS` is RW (R8). -/
theorem attr_default {c : Cfg} (h : cfgWf c = true) {e : BitVec 8 × BitVec 8} (he : e ∈ c.defaults) :
    attrOf c e.1 = .rw := by
  simp only [cfgWf, defaultsWf, Bool.and_eq_true, List.all_eq_true, beq_iff_eq] at h
  exact h.1.1.1.1.1.1.2.2 e he

/-- The canonical form and the listed addresses survive a write to an RW register. -/
theorem MemInv.setReg {s : State} (h : MemInv s) {a : Addr} (ha : attrOf s.cfg a = .rw) (v : Byte) :
    MemInv (setReg s a v) where
  canonical := Memory.wf_write _ _ _ _ h.canonical
  onlyRw e he := by
    rcases Memory.mem_write _ _ _ _ e he with rfl | he
    · refine ⟨a.isLt, ?_⟩
      simpa using ha
    · exact h.onlyRw e he

/-- The invariant of the bytes depends on the configuration and the bytes alone. -/
theorem MemInv.congr {s t : State} (h : MemInv s) (hc : t.cfg = s.cfg) (hm : t.mem = s.mem) : MemInv t := by
  constructor
  · rw [hc, hm]
    exact h.canonical
  · rw [hc, hm]
    exact h.onlyRw

/-- Clearing latches and changing no register, or only registers whose pairs' latches are cleared, keeps the latches
coherent. -/
theorem LatchInv.clear {s t : State} (h : LatchInv s) (hc : t.cfg = s.cfg)
    (hl : ∀ p, latchOf t.latches p = none ∨
      (latchOf t.latches p = latchOf s.latches p ∧
        regAt t (secondAddr (pairCfg s.cfg p)) = regAt s (secondAddr (pairCfg s.cfg p)))) : LatchInv t := by
  constructor
  · intro p hp
    rw [hc]
    rcases hl p with hn | ⟨he, -⟩
    · rw [hn] at hp
      cases hp
    · exact h.latching p (he ▸ hp)
  · intro p b hb
    rw [hc]
    rcases hl p with hn | ⟨he, hr⟩
    · rw [hn] at hb
      cases hb
    · intro hw
      rw [hr]
      exact h.coherent p b (he ▸ hb) hw

theorem LatchInv.memRead {s : State} (h : LatchInv s) (hp : PairAttrs s.cfg) (a : Addr) :
    LatchInv (memRead s a).state := by
  have hr : ∀ b, regAt (Machine.memRead s a).state b = regAt s b :=
    regAt_congr (memRead_frame s a).cfg (memRead_mem s a)
  have clears : ∀ t : State, t.cfg = s.cfg → t.mem = s.mem →
      t.latches = clearLatches s.cfg s.latches a → LatchInv t := by
    intro t hc hm hl
    refine h.clear hc fun p => ?_
    rw [hl, latchOf_clearLatches]
    cases inPair (pairCfg s.cfg p) a
    · exact .inr ⟨rfl, regAt_congr hc hm _⟩
    · exact .inl rfl
  rcases memRead_cases s a with e | e | ⟨b, -, e⟩ | e <;> rw [e]
  · exact h
  · exact clears _ rfl rfl rfl
  · exact clears _ rfl rfl rfl
  · have hl : ∀ p, latchOf (plainReadState s a).latches p =
        if (pairCfg s.cfg p).latching && firstAddr (pairCfg s.cfg p) == a then
          some (otherByte s a (s.env.at 0) p)
        else if inPair (pairCfg s.cfg p) a then none else latchOf s.latches p := by
      intro p
      simp only [plainReadState, latchOf_fillLatches, latchOf_clearLatches]
    have hreg : ∀ x, regAt (plainReadState s a) x = regAt s x := fun x => regAt_congr rfl rfl x
    constructor
    · intro p hs
      change (latchOf (plainReadState s a).latches p).isSome = true at hs
      rw [hl] at hs
      split at hs
      next hf =>
        simp only [Bool.and_eq_true] at hf
        exact hf.1
      · split at hs
        · cases hs
        · exact h.latching p hs
    · intro p b hb hw
      change latchOf (plainReadState s a).latches p = some b at hb
      change b = regAt (plainReadState s a) (secondAddr (pairCfg s.cfg p))
      rw [hreg]
      rw [hl] at hb
      split at hb
      next hf =>
        simp only [Bool.and_eq_true, beq_iff_eq] at hf
        have hattr : attrOf s.cfg a = .rw := by
          rw [← hf.2, hp p]
          exact hw
        cases hb
        simp [otherByte, hattr]
      · split at hb
        · cases hb
        · exact h.coherent p b hb hw

theorem LatchInv.memWrite {s : State} (h : LatchInv s) (a : Addr) (v : Byte) : LatchInv (memWrite s a v).state := by
  refine h.clear (memWrite_frame s a v).cfg fun p => ?_
  by_cases hs : secondAddr (pairCfg s.cfg p) = a
  · rcases memWrite_cases s a v with e | e | ⟨-, e⟩ | e | ⟨-, e⟩ | ⟨-, e⟩ <;> rw [e]
    · exact .inr ⟨rfl, rfl⟩
    all_goals
      left
      have hin := inPair_second (pairCfg s.cfg p)
      rw [hs] at hin
      simp [latchOf_clearLatches, hin]
  · rcases memWrite_latches s a v p with hl | ⟨-, hl⟩
    · exact .inr ⟨hl, memWrite_regAt s a v _ hs⟩
    · exact .inl hl

theorem MemInv.memRead {s : State} (h : MemInv s) (a : Addr) : MemInv (memRead s a).state :=
  h.congr (memRead_frame s a).cfg (memRead_mem s a)

theorem MemInv.memWrite {s : State} (h : MemInv s) (a : Addr) (v : Byte) : MemInv (memWrite s a v).state := by
  rcases memWrite_mem s a v with e | ⟨hw, u, e⟩
  · exact h.congr (memWrite_frame s a v).cfg e
  · exact (h.setReg hw u).congr (memWrite_frame s a v).cfg e

/-- The register space's invariants, kept along with the configuration. -/
def KeepsRegs (s t : State) : Prop :=
  t.cfg = s.cfg ∧ (PairAttrs s.cfg → MemInv s → LatchInv s → MemInv t ∧ LatchInv t)

/-- Every body keeps the register space's invariants. -/
theorem keepsRegs_kept : Kept KeepsRegs where
  refl _ := ⟨rfl, fun _ hm hl => ⟨hm, hl⟩⟩
  trans h g := ⟨g.1.trans h.1, fun hp hm hl => g.2 (by rw [h.1]; exact hp) (h.2 hp hm hl).1 (h.2 hp hm hl).2⟩
  read s a := ⟨(memRead_frame s a).cfg, fun hp hm hl => ⟨hm.memRead a, hl.memRead hp a⟩⟩
  write s a v := ⟨(memWrite_frame s a v).cfg, fun _ hm hl => ⟨hm.memWrite a v, hl.memWrite a v⟩⟩
  sleep s ms := ⟨rfl, fun _ hm hl => ⟨hm.congr rfl rfl, ⟨hl.latching, hl.coherent⟩⟩⟩
  nan s := ⟨rfl, fun _ hm hl => ⟨hm.congr rfl rfl, ⟨hl.latching, hl.coherent⟩⟩⟩

/-! ## Reads that succeed -/

/-- The state after a read of a that gave v. -/
structure ReadTo (s t : State) (a : Addr) (v : Byte) : Prop where
  frame : BusFrame s t
  mem : t.mem = s.mem
  env : t.env = s.env.pop
  history : t.history = s.history ++ [.read a v]

theorem ReadTo.regAt {s t : State} {a : Addr} {v : Byte} (h : ReadTo s t a v) (b : Addr) :
    regAt t b = regAt s b := regAt_congr h.frame.cfg h.mem b

/-- A read that does not fail gives a byte, and the sequencer goes on. -/
theorem memRead_ok {s : State} {a : Addr} (ha : attrOf s.cfg a ≠ .unmapped) (hf : (s.env.at 0).fails = false) :
    ∃ v t, memRead s a = .ok v t ∧ ReadTo s t a v := by
  have hfr := memRead_frame s a
  cases hl : latchedByte s.cfg s.latches a with
  | none =>
    rw [memRead_plain ha hf hl] at hfr ⊢
    exact ⟨_, _, rfl, hfr, rfl, rfl, rfl⟩
  | some b =>
    rw [memRead_latched ha hf hl] at hfr ⊢
    exact ⟨_, _, rfl, hfr, rfl, rfl, rfl⟩

/-- A read of an RW register that does not fail gives the byte held (R42; a latched byte is the register's). -/
theorem memRead_rw {s : State} {a : Addr} (ha : attrOf s.cfg a = .rw) (hf : (s.env.at 0).fails = false)
    (hi : LatchInv s) : ∃ t, memRead s a = .ok (regAt s a) t ∧ ReadTo s t a (regAt s a) := by
  have hu : attrOf s.cfg a ≠ .unmapped := by simp [ha]
  have hfr := memRead_frame s a
  cases hl : latchedByte s.cfg s.latches a with
  | none =>
    rw [memRead_plain hu hf hl] at hfr ⊢
    have hv : plainByte s a (s.env.at 0) = Machine.regAt s a := by simp [plainByte, ha]
    rw [hv]
    refine ⟨_, rfl, hfr, rfl, rfl, ?_⟩
    simp [plainReadState, hv]
  | some b =>
    obtain ⟨p, hp, hb⟩ := latchedByte_some hl
    have : b = Machine.regAt s a := by
      have := hi.coherent p b hb (by rw [hp]; exact ha)
      rwa [hp] at this
    subst this
    rw [memRead_latched hu hf hl] at hfr ⊢
    exact ⟨_, rfl, hfr, rfl, rfl, rfl⟩

/-- Reads of RW registers, none failing, give the bytes held, in order. -/
theorem readList_rw (as : List Addr) : ∀ s : State, (∀ a, a ∈ as → attrOf s.cfg a = .rw) → PairAttrs s.cfg →
    LatchInv s → answersOk s as.length →
    ∃ t, readList s as = .ok (as.map (regAt s)) t ∧ BusFrame s t ∧ t.mem = s.mem ∧
      t.history = s.history ++ as.map fun a => .read a (regAt s a) := by
  induction as with
  | nil =>
    intro s _ _ _ _
    exact ⟨s, rfl, BusFrame.refl s, rfl, by simp⟩
  | cons a as ih =>
    intro s ha hp hi hok
    obtain ⟨t, e, ht⟩ := memRead_rw (ha a (by simp)) (answersOk_zero hok) hi
    have hi' : LatchInv t := by
      have := hi.memRead hp a
      rwa [e] at this
    obtain ⟨u, e', hfr, hm, hh⟩ := ih t (by rw [ht.frame.cfg]; exact fun b hb => ha b (by simp [hb]))
      (by rw [ht.frame.cfg]; exact hp) hi' (answersOk_pop hok ht.env)
    have hreg : regAt t = regAt s := funext ht.regAt
    refine ⟨u, ?_, ht.frame.trans hfr, hm.trans ht.mem, ?_⟩
    · simp [readList, e, e', hreg]
    · rw [hh, ht.history, hreg]
      simp

/-! ## Reads that fail -/

/-- The state after a read of a failed. -/
structure ReadFailedTo (s t : State) (a : Addr) : Prop where
  frame : BusFrame s t
  mem : t.mem = s.mem
  history : t.history = s.history ++ [.readFailed a]

/-- A read the environment fails raises BUS_ERROR with its address (R42, R52). -/
theorem memRead_busError {s : State} {a : Addr} (ha : attrOf s.cfg a ≠ .unmapped) (hf : failsAfter s 0) :
    ∃ t, memRead s a = .raise .busError (a.setWidth 32) t ∧ ReadFailedTo s t a := by
  have hfr := memRead_frame s a
  rw [memRead_fails ha hf.2] at hfr ⊢
  exact ⟨_, rfl, hfr, rfl, rfl⟩

/-- Reads of RW registers of which the k-th fails: those before it are recorded with the bytes held, none after it is
performed, and no register changes. -/
theorem readList_fails (as : List Addr) : ∀ (s : State) (k : Nat) (a : Addr),
    (∀ a, a ∈ as → attrOf s.cfg a = .rw) → PairAttrs s.cfg → LatchInv s → as[k]? = some a → failsAfter s k →
    ∃ t, readList s as = .raise .busError (a.setWidth 32) t ∧ BusFrame s t ∧ t.mem = s.mem ∧
      t.history = s.history ++ (as.take k).map (fun a => .read a (regAt s a)) ++ [.readFailed a] := by
  induction as with
  | nil => intro s k a _ _ _ hk; simp at hk
  | cons b as ih =>
    intro s k a ha hp hi hk hf
    have hb := ha b (by simp)
    cases k with
    | zero =>
      obtain rfl : b = a := by simpa using hk
      obtain ⟨t, e, ht⟩ := memRead_busError (a := b) (by simp [hb]) hf
      exact ⟨t, by simp [readList, e], ht.frame, ht.mem, by simp [ht.history]⟩
    | succ k =>
      obtain ⟨t, e, ht⟩ := memRead_rw hb (answersOk_zero hf.1) hi
      have hi' : LatchInv t := by
        have := hi.memRead hp b
        rwa [e] at this
      obtain ⟨u, e', hfr, hm, hh⟩ := ih t k a (by rw [ht.frame.cfg]; exact fun x hx => ha x (by simp [hx]))
        (by rw [ht.frame.cfg]; exact hp) hi' (by simpa using hk) (failsAfter_pop hf ht.env)
      have hreg : regAt t = regAt s := funext ht.regAt
      refine ⟨u, by simp [readList, e, e'], ht.frame.trans hfr, hm.trans ht.mem, ?_⟩
      rw [hh, ht.history, hreg]
      simp

/-! ## Writes that succeed -/

/-- The outcome of an accepted write (R43, R48). -/
def acceptedAs (c : Cfg) (a : Addr) : WriteOutcome := if a = c.oneShot then .oneShot else .ok

/-- The state after byte v was stored at a. -/
structure WroteTo (s t : State) (a : Addr) (v : Byte) : Prop where
  frame : BusFrame s t
  regs : ∀ b, regAt t b = if a = b then v else regAt s b
  env : t.env = s.env.pop
  history : t.history = s.history ++ [.write a v (acceptedAs s.cfg a)]
  latches : ∀ p, latchOf t.latches p = if inPair (pairCfg s.cfg p) a then none else latchOf s.latches p

/-- A write that is neither refused, nor failed, nor to a governed FAN_SETTING stores its byte. -/
theorem memWrite_ok {s : State} {a : Addr} (v : Byte) (ha : attrOf s.cfg a = .rw)
    (hf : (s.env.at 0).fails = false)
    (hg : lutGoverns s = false ∨ (isLutAddr s.cfg a = false ∧ a ≠ s.cfg.fanSetting)) :
    ∃ t, memWrite s a v = .ok () t ∧ WroteTo s t a v := by
  have hfr := memWrite_frame s a v
  rw [memWrite_stores v ha hf hg] at hfr ⊢
  refine ⟨_, rfl, hfr, fun b => ?_, rfl, rfl, fun p => ?_⟩
  · exact regAt_setReg (touch (useAnswer s) a) a v b
  · simp [latchOf_clearLatches]

theorem lutGoverns_congr {s t : State} (hc : t.cfg = s.cfg)
    (hr : regAt t s.cfg.fanConfig = regAt s s.cfg.fanConfig) : lutGoverns t = lutGoverns s := by
  unfold lutGoverns
  rw [hc, hr]

/-- The register at b after writes in order: the last one to b, else as before. -/
def afterWrites (es : List (BitVec 8 × BitVec 8)) (f : Addr → Byte) : Addr → Byte :=
  es.foldl (fun f e b => if e.1 = b then e.2 else f b) f

/-- Writes of RW registers other than FAN_CONFIG, none failing, while the table is released, are all stored. -/
theorem writeList_ok (es : List (BitVec 8 × BitVec 8)) : ∀ s : State,
    (∀ e, e ∈ es → attrOf s.cfg e.1 = .rw ∧ e.1 ≠ s.cfg.fanConfig) → lutGoverns s = false →
    answersOk s es.length →
    ∃ t, writeList s es = .ok () t ∧ BusFrame s t ∧ regAt t = afterWrites es (regAt s) ∧
      (∀ k, t.env.at k = s.env.at (k + es.length)) ∧
      t.history = s.history ++ es.map fun e => .write e.1 e.2 (acceptedAs s.cfg e.1) := by
  induction es with
  | nil =>
    intro s _ _ _
    exact ⟨s, rfl, BusFrame.refl s, rfl, by simp, by simp⟩
  | cons e es ih =>
    intro s he hg hok
    obtain ⟨ha, hne⟩ := he e (by simp)
    obtain ⟨t, h, ht⟩ := memWrite_ok e.2 ha (answersOk_zero hok) (.inl hg)
    have hg' : lutGoverns t = false := by
      rw [lutGoverns_congr ht.frame.cfg (by rw [ht.regs, if_neg hne]), hg]
    obtain ⟨u, h', hfr, hr, hat, hh⟩ := ih t
      (by rw [ht.frame.cfg]; exact fun x hx => he x (by simp [hx])) hg' (answersOk_pop hok ht.env)
    have hreg : regAt t = fun b => if e.1 = b then e.2 else regAt s b := funext ht.regs
    refine ⟨u, ?_, ht.frame.trans hfr, ?_, fun k => ?_, ?_⟩
    · simp [writeList, h, h']
    · rw [hr, hreg]
      rfl
    · rw [hat, ht.env, Env.at_pop]
      congr 1
    · rw [hh, ht.history, ht.frame.cfg]
      simp

theorem afterWrites_cons (e : BitVec 8 × BitVec 8) (es : List (BitVec 8 × BitVec 8)) (f : Addr → Byte) :
    afterWrites (e :: es) f = afterWrites es fun b => if e.1 = b then e.2 else f b := rfl

/-- Writes change no other address. -/
theorem afterWrites_of_notMem (es : List (BitVec 8 × BitVec 8)) : ∀ (f : Addr → Byte) (b : Addr),
    b ∉ es.map Prod.fst → afterWrites es f b = f b := by
  induction es with
  | nil => intro f b _; rfl
  | cons e es ih =>
    intro f b hb
    simp only [List.map_cons, List.mem_cons, not_or] at hb
    rw [afterWrites_cons, ih _ b hb.2, if_neg (Ne.symm hb.1)]

/-- What is written at an address written once is what is read there. -/
theorem afterWrites_of_mem (es : List (BitVec 8 × BitVec 8)) : ∀ (f : Addr → Byte),
    (es.map Prod.fst).Nodup → ∀ e, e ∈ es → afterWrites es f e.1 = e.2 := by
  induction es with
  | nil => intro f _ e he; cases he
  | cons e es ih =>
    intro f hn x hx
    simp only [List.map_cons, List.nodup_cons] at hn
    rw [afterWrites_cons]
    rcases List.mem_cons.1 hx with rfl | hx
    · rw [afterWrites_of_notMem es _ _ hn.1, if_pos rfl]
    · exact ih _ hn.2 x hx

/-! ## Writes that fail -/

/-- The state after a write of v to a failed: a holds byte u. -/
structure WriteFailedTo (s t : State) (a : Addr) (v u : Byte) : Prop where
  frame : BusFrame s t
  oldOrNew : u = v ∨ u = regAt s a
  regs : ∀ b, regAt t b = if a = b then u else regAt s b
  history : t.history = s.history ++ [.write a v .failed]

/-- A write the environment fails raises BUS_ERROR with its address, and leaves the old or the new byte (R43, R52). -/
theorem memWrite_busError {s : State} {a : Addr} (v : Byte) (ha : attrOf s.cfg a = .rw) (hf : failsAfter s 0) :
    ∃ t u, memWrite s a v = .raise .busError (a.setWidth 32) t ∧ WriteFailedTo s t a v u := by
  have hfr := memWrite_frame s a v
  rw [memWrite_fails v ha hf.2] at hfr ⊢
  refine ⟨_, if (s.env.at 0).takesNew then v else regAt s a, rfl, hfr, ?_, fun b => ?_, rfl⟩
  · split
    · exact .inl rfl
    · exact .inr rfl
  · exact regAt_setReg (touch (useAnswer s) a) a _ b

/-- Writes of RW registers while the table is released, of which the k-th fails, those before it to others than
FAN_CONFIG: those before it are stored, the failing register holds its old or its new byte, and none after it is
performed. -/
theorem writeList_fails (es : List (BitVec 8 × BitVec 8)) : ∀ (s : State) (k : Nat) (e : BitVec 8 × BitVec 8),
    (∀ e, e ∈ es → attrOf s.cfg e.1 = .rw) → (∀ e, e ∈ es.take k → e.1 ≠ s.cfg.fanConfig) →
    lutGoverns s = false → es[k]? = some e → failsAfter s k →
    ∃ t u, writeList s es = .raise .busError (e.1.setWidth 32) t ∧ BusFrame s t ∧
      (u = e.2 ∨ u = afterWrites (es.take k) (regAt s) e.1) ∧
      (∀ b, regAt t b = if e.1 = b then u else afterWrites (es.take k) (regAt s) b) ∧
      t.history = s.history ++ (es.take k).map (fun e => .write e.1 e.2 (acceptedAs s.cfg e.1)) ++
        [.write e.1 e.2 .failed] := by
  induction es with
  | nil => intro s k e _ _ _ hk; simp at hk
  | cons d es ih =>
    intro s k e ha hn hg hk hf
    cases k with
    | zero =>
      obtain rfl : d = e := by simpa using hk
      obtain ⟨t, u, e, ht⟩ := memWrite_busError d.2 (ha d (by simp)) hf
      exact ⟨t, u, by simp [writeList, e], ht.frame, ht.oldOrNew, ht.regs, by simp [ht.history]⟩
    | succ k =>
      obtain ⟨t, h, ht⟩ := memWrite_ok d.2 (ha d (by simp)) (answersOk_zero hf.1) (.inl hg)
      have hg' : lutGoverns t = false := by
        rw [lutGoverns_congr ht.frame.cfg (by rw [ht.regs, if_neg (hn d (by simp))]), hg]
      obtain ⟨w, u, h', hfr, hu, hr, hh⟩ := ih t k e (by rw [ht.frame.cfg]; exact fun x hx => ha x (by simp [hx]))
        (by rw [ht.frame.cfg]; exact fun x hx => hn x (by simp [hx])) hg' (by simpa using hk)
        (failsAfter_pop hf ht.env)
      have hreg : regAt t = fun b => if d.1 = b then d.2 else regAt s b := funext ht.regs
      rw [hreg] at hu hr
      refine ⟨w, u, by simp [writeList, h, h'], ht.frame.trans hfr, hu, hr, ?_⟩
      rw [hh, ht.history, ht.frame.cfg]
      simp

end Sys2Proof.Machine
end

