-- ==== Sys2Proof/Laws/Names.lean ====
section
/-! SUPPORT. What follows when the named registers are distinct: which are no table registers, and which belong to no
pair. -/

namespace Sys2Proof.Machine

theorem otherNames_nodup {c : Cfg} (h : namesDistinct c) : (otherNames c).Nodup :=
  List.Nodup.sublist (List.sublist_append_left _ _) h

/-- A named register that is not the table's is no table register. -/
theorem otherNames_notLut {c : Cfg} (h : namesDistinct c) {a : Addr} (ha : a ∈ otherNames c) :
    isLutAddr c a = false := by
  rw [Bool.eq_false_iff]
  exact fun hl => (List.nodup_append.1 h).2.2 a ha a (List.contains_iff_mem.1 hl) rfl

/-- The table's address j is one of its registers. -/
theorem lutAddr_isLut {c : Cfg} {j : Nat} (hj : j < lutLength c) : isLutAddr c (lutAddr c j) = true :=
  List.contains_iff_mem.2 (List.mem_map_of_mem (List.mem_range.2 hj))

/-- Two bytes of the table lie at different distances from its base when an entry's registers do not overlap. -/
theorem lutOffset_inj {l : Literals} (h : 2 ≤ l.lutStride) {i j : Nat} (e : lutOffset l i = lutOffset l j) :
    i = j := by
  have lt : ∀ k : Nat, k % 2 < l.lutStride := fun k => by omega
  have hd : i / 2 = j / 2 := by
    have := congrArg (· / l.lutStride) e
    simpa [lutOffset, Nat.mul_add_div (show 0 < l.lutStride by omega), Nat.div_eq_of_lt (lt _)] using this
  have hm : i % 2 = j % 2 := by
    have := congrArg (· % l.lutStride) e
    simpa [lutOffset, Nat.mul_add_mod, Nat.mod_eq_of_lt (lt _)] using this
  omega

/-- The table's addresses are distinct. -/
theorem lutAddr_inj {c : Cfg} (h : cfgWf c = true) {i j : Nat} (hi : i < lutLength c) (hj : j < lutLength c)
    (e : lutAddr c i = lutAddr c j) : i = j := by
  have hf := lutFits_of_wf h
  have bi := hf.inSpace i hi
  have bj := hf.inSpace j hj
  have e := congrArg BitVec.toNat e
  simp only [lutAddr, BitVec.toNat_add, BitVec.toNat_ofNat] at e
  exact lutOffset_inj hf.stride (by omega)

/-- FAN_SETTING, FAN_CONFIG and ONE_SHOT are three registers. -/
theorem fanRegs_ne {c : Cfg} (h : namesDistinct c) :
    c.fanConfig ≠ c.fanSetting ∧ c.fanConfig ≠ c.oneShot ∧ c.fanSetting ≠ c.oneShot := by
  have h := otherNames_nodup h
  refine ⟨?_, ?_, ?_⟩ <;> intro e <;> simp [otherNames, e] at h

/-- The hysteresis register, the limit register and ONE_SHOT are neither FAN_SETTING nor FAN_CONFIG. -/
theorem storedRegs_ne {c : Cfg} (h : namesDistinct c) {a : Addr}
    (ha : a ∈ [c.lutHyst, c.intHighLimit, c.oneShot, c.tachLimit.hi, c.tachLimit.lo]) :
    a ≠ c.fanSetting ∧ a ≠ c.fanConfig := by
  have h := otherNames_nodup h
  simp only [List.mem_cons, List.not_mem_nil, or_false] at ha
  rcases ha with rfl | rfl | rfl | rfl | rfl
  all_goals refine ⟨?_, ?_⟩ <;> intro e <;> simp [otherNames, e] at h

/-- ONE_SHOT is neither the hysteresis nor the limit register nor a tach-limit byte. -/
theorem oneShot_ne {c : Cfg} (h : namesDistinct c) {a : Addr}
    (ha : a ∈ [c.lutHyst, c.intHighLimit, c.tachLimit.hi, c.tachLimit.lo]) : a ≠ c.oneShot := by
  have h := otherNames_nodup h
  simp only [List.mem_cons, List.not_mem_nil, or_false] at ha
  rcases ha with rfl | rfl | rfl | rfl
  all_goals intro e; simp [otherNames, e] at h

/-- CONFIG and ONE_SHOT are bytes of no pair. -/
theorem config_notInPair {c : Cfg} (h : namesDistinct c) (p : Pair) :
    inPair (pairCfg c p) c.config = false ∧ inPair (pairCfg c p) c.oneShot = false := by
  have h := otherNames_nodup h
  simp only [inPair, Bool.or_eq_false_iff, beq_eq_false_iff_ne, ne_eq]
  cases p
  all_goals refine ⟨⟨?_, ?_⟩, ?_, ?_⟩ <;> simp only [pairCfg] <;> intro e <;> simp [otherNames, e] at h

/-- The first byte of a pair is the second byte of none. -/
theorem firstAddr_ne_second {c : Cfg} (h : namesDistinct c) (p q : Pair) :
    firstAddr (pairCfg c p) ≠ secondAddr (pairCfg c q) := by
  have h := otherNames_nodup h
  cases p <;> cases q <;> simp only [firstAddr, secondAddr, pairCfg] <;> split <;> (try split) <;>
    intro e <;> simp_all [otherNames]

/-- Two pairs have distinct second bytes. -/
theorem secondAddr_inj {c : Cfg} (h : namesDistinct c) (p q : Pair)
    (e : secondAddr (pairCfg c p) = secondAddr (pairCfg c q)) : p = q := by
  have h := otherNames_nodup h
  revert e
  cases p <;> cases q <;> intro e <;> first
    | rfl
    | (exfalso
       simp only [secondAddr, pairCfg] at e
       split at e <;> split at e <;> simp [otherNames, e] at h)

end Sys2Proof.Machine
end

