-- ==== Sys2Proof/Laws/Pairs.lean ====
section
/-! SUPPORT. What `ReadPair` gives of a read-only pair (R45, R194). -/

namespace Sys2Proof.Machine

/-- The latch of a pair after a read of its first byte, an RO register, that no latch served: the other byte of the
sample when the pair latches, else none. -/
theorem latch_after_first {s : State} (p : Pair) (h : attrOf s.cfg (firstAddr (pairCfg s.cfg p)) = .ro) :
    latchOf (plainReadState s (firstAddr (pairCfg s.cfg p))).latches p =
      if (pairCfg s.cfg p).latching then some (s.env.at 0).second else none := by
  simp [plainReadState, latchOf_fillLatches, latchOf_clearLatches, otherByte, h, inPair_first]

/-- A latched byte is found at its pair's second address, when names are distinct. -/
theorem latchedByte_second {c : Cfg} (hd : namesDistinct c) (l : Latches) (p : Pair) :
    latchedByte c l (secondAddr (pairCfg c p)) = latchOf l p := by
  cases hc : latchedByte c l (secondAddr (pairCfg c p)) with
  | some b =>
    obtain ⟨q, hq, hb⟩ := latchedByte_some hc
    rw [← secondAddr_inj hd q p hq, hb]
  | none =>
    simp only [latchedByte, List.findSome?_eq_none_iff] at hc
    have := hc p (by cases p <;> simp [allPairs])
    rw [if_pos (by simp)] at this
    exact this.symm

/-- The read of an RO pair's first byte, not failing, gives the environment's byte: no latch serves it. -/
theorem memRead_firstRo {s : State} (p : Pair) (hd : namesDistinct s.cfg)
    (h : attrOf s.cfg (firstAddr (pairCfg s.cfg p)) = .ro) (hf : (s.env.at 0).fails = false) :
    memRead s (firstAddr (pairCfg s.cfg p)) =
      .ok (s.env.at 0).byte (plainReadState s (firstAddr (pairCfg s.cfg p))) := by
  rw [memRead_plain (by simp [h]) hf (latchedByte_none fun q hq => absurd hq.symm (firstAddr_ne_second hd p q))]
  simp [plainByte, h]

/-- Reading an RO pair, neither read failing: the first byte is the environment's, the second is of the same sample
when the pair latches, else the environment's next. -/
theorem readPair_ro {s : State} (p : Pair) (hd : namesDistinct s.cfg)
    (h1 : attrOf s.cfg (firstAddr (pairCfg s.cfg p)) = .ro)
    (h2 : attrOf s.cfg (secondAddr (pairCfg s.cfg p)) = .ro) (hok : answersOk s 2) :
    let x := (s.env.at 0).byte
    let y := if (pairCfg s.cfg p).latching then (s.env.at 0).second else (s.env.at 1).byte
    ∃ t, readPair s p = .ok (if (pairCfg s.cfg p).order = .hiFirst then (x, y) else (y, x)) t ∧
      BusFrame s t ∧ t.mem = s.mem ∧
      t.history = s.history ++
        [.read (firstAddr (pairCfg s.cfg p)) x, .read (secondAddr (pairCfg s.cfg p)) y] := by
  intro x y
  have e1 := memRead_firstRo p hd h1 (hok 0 (by omega))
  have hx : plainByte s (firstAddr (pairCfg s.cfg p)) (s.env.at 0) = x := by simp [plainByte, h1, x]
  have f1 := memRead_frame s (firstAddr (pairCfg s.cfg p))
  rw [e1] at f1
  have hl := latch_after_first p h1
  set t := plainReadState s (firstAddr (pairCfg s.cfg p)) with ht
  have htc : t.cfg = s.cfg := rfl
  have hat : t.env.at 0 = s.env.at 1 := Env.at_pop s.env 0
  have hf : (t.env.at 0).fails = false := by
    rw [hat]
    exact hok 1 (by omega)
  have hne : attrOf t.cfg (secondAddr (pairCfg s.cfg p)) ≠ .unmapped := by
    rw [htc, h2]
    simp
  have hread : ∃ u, memRead t (secondAddr (pairCfg s.cfg p)) = .ok y u ∧ u.mem = t.mem ∧
      u.history = t.history ++ [.read (secondAddr (pairCfg s.cfg p)) y] := by
    have hlb : latchedByte t.cfg t.latches (secondAddr (pairCfg s.cfg p)) = latchOf t.latches p :=
      latchedByte_second hd _ p
    rw [hl] at hlb
    cases hlt : (pairCfg s.cfg p).latching with
    | true =>
      rw [hlt, if_pos rfl] at hlb
      rw [memRead_latched hne hf hlb]
      simp only [y, hlt, if_true]
      exact ⟨_, rfl, rfl, rfl⟩
    | false =>
      rw [hlt, if_neg (by simp)] at hlb
      have hy : plainByte t (secondAddr (pairCfg s.cfg p)) (t.env.at 0) = y := by
        simp [plainByte, htc, h2, y, hlt, hat]
      rw [memRead_plain hne hf hlb, hy]
      exact ⟨_, rfl, rfl, by simp [plainReadState, hy]⟩
  obtain ⟨u, e2, hm, hh⟩ := hread
  have f2 := memRead_frame t (secondAddr (pairCfg s.cfg p))
  rw [e2] at f2
  refine ⟨u, ?_, f1.trans f2, hm.trans rfl, ?_⟩
  · rw [readPair_eq, e1, Res.bind_ok, e2]
    rfl
  · rw [hh]
    simp [ht, plainReadState, hx]

/-- Reading a pair whose first read fails: BUS_ERROR with its address, and no second read. -/
theorem readPair_fails_first {s : State} (p : Pair)
    (h : attrOf s.cfg (firstAddr (pairCfg s.cfg p)) ≠ .unmapped) (hf : failsAfter s 0) :
    ∃ t, readPair s p = .raise .busError ((firstAddr (pairCfg s.cfg p)).setWidth 32) t ∧
      ReadFailedTo s t (firstAddr (pairCfg s.cfg p)) := by
  obtain ⟨t, e, ht⟩ := memRead_busError h hf
  exact ⟨t, by rw [readPair_eq, e, Res.bind_raise], ht⟩

/-- Reading an RO pair whose second read fails: BUS_ERROR with its address after the first byte's read. -/
theorem readPair_fails_second {s : State} (p : Pair) (hd : namesDistinct s.cfg)
    (h1 : attrOf s.cfg (firstAddr (pairCfg s.cfg p)) = .ro)
    (h2 : attrOf s.cfg (secondAddr (pairCfg s.cfg p)) = .ro) (hf : failsAfter s 1) :
    ∃ t, readPair s p = .raise .busError ((secondAddr (pairCfg s.cfg p)).setWidth 32) t ∧ BusFrame s t ∧
      t.mem = s.mem ∧ t.history = s.history ++
        [.read (firstAddr (pairCfg s.cfg p)) (s.env.at 0).byte, .readFailed (secondAddr (pairCfg s.cfg p))] := by
  have e1 := memRead_firstRo p hd h1 (answersOk_zero hf.1)
  have f1 := memRead_frame s (firstAddr (pairCfg s.cfg p))
  rw [e1] at f1
  obtain ⟨t, e2, ht⟩ := memRead_busError
    (s := plainReadState s (firstAddr (pairCfg s.cfg p))) (a := secondAddr (pairCfg s.cfg p))
    (by rw [show (plainReadState s _).cfg = s.cfg from rfl, h2]; simp) (failsAfter_pop hf rfl)
  refine ⟨t, by rw [readPair_eq, e1, Res.bind_ok]; simp only [e2, Res.bind_raise], f1.trans ht.frame,
    ht.mem.trans rfl, ?_⟩
  rw [ht.history]
  simp [plainReadState, plainByte, h1]

end Sys2Proof.Machine
end

