-- ==== Sys2Proof/Laws/PerInstr.lean ====
section
/-! SUPPORT. Per-instruction laws of the encoding: each operation's word carries its opcode in OP and zeros in RSV
(R60, R63). -/

namespace Sys2Proof.Laws.EncodedFields

/-- The word of i selects i: OP is its opcode and RSV is 0x00 (R60, R63). -/
def Statement (i : Instr) : Prop := cmdOp (encode i) = i.opcode ∧ cmdRsv (encode i) = 0x00#8

theorem bfDecode (ls b : BitVec 8) : Statement (.bfDecode ls b) := ⟨by simp [encode, Instr.opcode], by simp [encode]⟩
theorem bfEncode (ls : BitVec 8) : Statement (.bfEncode ls) := ⟨by simp [encode, Instr.opcode], by simp [encode]⟩
theorem tachToRpm (t : BitVec 16) : Statement (.tachToRpm t) := ⟨by simp [encode, Instr.opcode], by simp [encode]⟩
theorem rpmToTach (r : BitVec 32) : Statement (.rpmToTach r) := ⟨by simp [encode, Instr.opcode], by simp [encode]⟩
theorem tempDecode (msb lsb : BitVec 8) : Statement (.tempDecode msb lsb) := ⟨by simp [encode, Instr.opcode], by simp [encode]⟩
theorem tempEncode (v : BitVec 32) : Statement (.tempEncode v) := ⟨by simp [encode, Instr.opcode], by simp [encode]⟩
theorem ltempDecode (whole frac : BitVec 8) : Statement (.ltempDecode whole frac) := ⟨by simp [encode, Instr.opcode], by simp [encode]⟩
theorem ltempEncode (v : BitVec 32) : Statement (.ltempEncode v) := ⟨by simp [encode, Instr.opcode], by simp [encode]⟩
theorem lutRead : Statement .lutRead := ⟨by simp [encode, Instr.opcode], by simp [encode]⟩
theorem lutWrite : Statement .lutWrite := ⟨by simp [encode, Instr.opcode], by simp [encode]⟩
theorem lutHystRead : Statement .lutHystRead := ⟨by simp [encode, Instr.opcode], by simp [encode]⟩
theorem lutHystWrite (b : BitVec 8) : Statement (.lutHystWrite b) := ⟨by simp [encode, Instr.opcode], by simp [encode]⟩
theorem fanSpeedGet : Statement .fanSpeedGet := ⟨by simp [encode, Instr.opcode], by simp [encode]⟩
theorem fanSpeedSet (speed : BitVec 8) : Statement (.fanSpeedSet speed) := ⟨by simp [encode, Instr.opcode], by simp [encode]⟩
theorem intLimitSet (v : BitVec 32) : Statement (.intLimitSet v) := ⟨by simp [encode, Instr.opcode], by simp [encode]⟩
theorem extTempRead : Statement .extTempRead := ⟨by simp [encode, Instr.opcode], by simp [encode]⟩
theorem fanRpmGet : Statement .fanRpmGet := ⟨by simp [encode, Instr.opcode], by simp [encode]⟩
theorem minRpmGet : Statement .minRpmGet := ⟨by simp [encode, Instr.opcode], by simp [encode]⟩
theorem minRpmSet (r : BitVec 32) : Statement (.minRpmSet r) := ⟨by simp [encode, Instr.opcode], by simp [encode]⟩
theorem regRead (a : BitVec 8) : Statement (.regRead a) := ⟨by simp [encode, Instr.opcode], by simp [encode]⟩
theorem regWrite (a b : BitVec 8) : Statement (.regWrite a b) := ⟨by simp [encode, Instr.opcode], by simp [encode]⟩
theorem resetDefaults : Statement .resetDefaults := ⟨by simp [encode, Instr.opcode], by simp [encode]⟩
theorem validate : Statement .validate := ⟨by simp [encode, Instr.opcode], by simp [encode]⟩

end Sys2Proof.Laws.EncodedFields
end

