-- ==== Sys2Proof/Machine/AsmText.lean ====
section
/-! DEFINITION. The assembler's text (R66): one command, directive or pseudo-instruction a line, a comment after a
semicolon; numbers in decimal or 0x hex, layout ids by name (R72), binary32 values as decimal reals or bit
patterns. A line outside this syntax gives nothing. -/

namespace Sys2Proof.Machine

/-! ## Characters -/

/-- The pieces of a text between the given separators. -/
def splitText (sep : Char) : List Char → List (List Char)
  | [] => [[]]
  | c :: cs =>
    if c = sep then [] :: splitText sep cs
    else
      match splitText sep cs with
      | [] => [[c]]
      | p :: ps => (c :: p) :: ps

/-- A text without the blanks at its ends. -/
def trimText (cs : List Char) : List Char :=
  ((cs.dropWhile Char.isWhitespace).reverse.dropWhile Char.isWhitespace).reverse

/-- A line up to its comment. -/
def dropComment (cs : List Char) : List Char := cs.takeWhile (· != ';')

/-- The value of a digit in the given base. -/
def digitOf (base : Nat) (c : Char) : Option Nat :=
  let v :=
    if '0' ≤ c ∧ c ≤ '9' then c.toNat - '0'.toNat
    else if 'a' ≤ c ∧ c ≤ 'f' then c.toNat - 'a'.toNat + 10
    else if 'A' ≤ c ∧ c ≤ 'F' then c.toNat - 'A'.toNat + 10
    else base
  if v < base then some v else none

/-- The natural number a nonempty list of digits spells. -/
def digitsOf (base : Nat) : List Char → Option Nat
  | [] => none
  | cs => cs.foldlM (fun n c => (digitOf base c).map fun d => base * n + d) 0

/-! ## Operands -/

/-- A number in decimal or 0x hex (R66). -/
def numberOf : List Char → Option Nat
  | '0' :: 'x' :: h => digitsOf 16 h
  | cs => digitsOf 10 cs

/-- A number that fits w bits. -/
def wordOf (w : Nat) (cs : List Char) : Option (BitVec w) :=
  (numberOf cs).bind fun n => if n < 2 ^ w then some (BitVec.ofNat w n) else none

/-- A layout id, by name (R72) or by number. -/
def layoutIdOf (cs : List Char) : Option (BitVec 8) :=
  match String.ofList cs with
  | "CONFIG" => some 0#8
  | "ALERT_MASK" => some 1#8
  | "CONV_RATE" => some 2#8
  | "FAN_CONFIG" => some 3#8
  | "SPIN_UP" => some 4#8
  | "AVG_FILTER" => some 5#8
  | "BETA_COMP" => some 6#8
  | _ => wordOf 8 cs

/-- An unsigned decimal real, rounded with the given sign by `f32(q)` (R11, R66). -/
def decimalOf (neg : Bool) (cs : List Char) : Option (BitVec 32) :=
  match splitText '.' cs with
  | [w] => (digitsOf 10 w).map fun n => f32OfRatio neg n 1
  | [w, f] => (digitsOf 10 (w ++ f)).map fun n => f32OfRatio neg n (10 ^ f.length)
  | _ => none

/-- A binary32: a decimal real, or `f32:0x` and its bit pattern (R66). -/
def realOf : List Char → Option (BitVec 32)
  | 'f' :: '3' :: '2' :: ':' :: '0' :: 'x' :: h =>
    (digitsOf 16 h).bind fun n => if n < 2 ^ 32 then some (BitVec.ofNat 32 n) else none
  | '-' :: cs => decimalOf true cs
  | cs => decimalOf false cs

/-- Bytes, one per operand. -/
def bytesOf (ops : List (List Char)) : Option (List (BitVec 8)) := ops.mapM (wordOf 8)

/-! ## Lines -/

/-- The line a mnemonic and its operands spell, in the order of R63's operand column. -/
def lineOf (m : String) (ops : List (List Char)) : Option AsmLine :=
  match m, ops with
  | "BF_DECODE", [l, b] => (layoutIdOf l).bind fun l => (wordOf 8 b).map fun b => .command (.bfDecode l b)
  | "BF_ENCODE", [l] => (layoutIdOf l).map fun l => .command (.bfEncode l)
  | "TACH_TO_RPM", [t] => (wordOf 16 t).map fun t => .command (.tachToRpm t)
  | "RPM_TO_TACH", [r] => (wordOf 32 r).map fun r => .command (.rpmToTach r)
  | "TEMP_DECODE", [a, b] => (wordOf 8 a).bind fun a => (wordOf 8 b).map fun b => .command (.tempDecode a b)
  | "TEMP_ENCODE", [v] => (realOf v).map fun v => .command (.tempEncode v)
  | "LTEMP_DECODE", [a, b] => (wordOf 8 a).bind fun a => (wordOf 8 b).map fun b => .command (.ltempDecode a b)
  | "LTEMP_ENCODE", [v] => (realOf v).map fun v => .command (.ltempEncode v)
  | "LUT_READ", [] => some (.command .lutRead)
  | "LUT_WRITE", [] => some (.command .lutWrite)
  | "LUT_HYST_READ", [] => some (.command .lutHystRead)
  | "LUT_HYST_WRITE", [b] => (wordOf 8 b).map fun b => .command (.lutHystWrite b)
  | "FAN_SPEED_GET", [] => some (.command .fanSpeedGet)
  | "FAN_SPEED_SET", [b] => (wordOf 8 b).map fun b => .command (.fanSpeedSet b)
  | "INT_LIMIT_SET", [v] => (realOf v).map fun v => .command (.intLimitSet v)
  | "EXT_TEMP_READ", [] => some (.command .extTempRead)
  | "FAN_RPM_GET", [] => some (.command .fanRpmGet)
  | "MIN_RPM_GET", [] => some (.command .minRpmGet)
  | "MIN_RPM_SET", [r] => (wordOf 32 r).map fun r => .command (.minRpmSet r)
  | "REG_READ", [a] => (wordOf 8 a).map fun a => .command (.regRead a)
  | "REG_WRITE", [a, b] => (wordOf 8 a).bind fun a => (wordOf 8 b).map fun b => .command (.regWrite a b)
  | "RESET_DEFAULTS", [] => some (.command .resetDefaults)
  | "VALIDATE", [] => some (.command .validate)
  | "LUT_FILL", [t, s] => (wordOf 8 t).bind fun t => (wordOf 8 s).map fun s => .lutFill t s
  | "NOP", [] => some .nop
  | ".reg", [a, v] => (wordOf 8 a).bind fun a => (wordOf 8 v).map fun v => .reg a v
  | ".ov", ops => (bytesOf ops).bind fun vs => if vs.length ≤ 8 then some (.ov vs) else none
  | ".obuf", ops => (bytesOf ops).bind fun vs => if vs.length = 16 then some (.obuf vs) else none
  | _, _ => none

/-- A nonblank line: a mnemonic, then operands separated by commas (R66). -/
def parseLine (cs : List Char) : Option AsmLine :=
  let m := cs.takeWhile fun c => !c.isWhitespace
  let rest := trimText (cs.dropWhile fun c => !c.isWhitespace)
  lineOf (String.ofList m) (if rest = [] then [] else (splitText ',' rest).map trimText)

/-- A program's lines, blank ones and comments skipped; nothing where a line is outside the syntax. -/
def parseProgram (text : List Char) : Option (List AsmLine) :=
  ((splitText '\n' text).map fun l => trimText (dropComment l)).filter (· ≠ []) |>.mapM parseLine

end Sys2Proof.Machine
end

