-- ==== Sys2Proof/WellFormed.lean ====
section
/-! DEFINITION. When an instruction's operands lie in their domains. A value of `Instr` has operands of
the encoding's own widths (R62), so the one domain left to check is that of a layout id (R72). An
instruction outside it still decodes and runs: it raises PROGRAMMER_ERROR (R103, R104, R241). The
well-formedness of a configuration (R28, R101) is `Cfg.wf` in Machine/CfgCheck.lean. -/

namespace Sys2Proof

/-- R72: a layout id is in 0..6; "a layout id from 7 to 255 is outside the domain". -/
def layoutIdInDomain (ls : BitVec 8) : Bool := decide (ls.toNat ≤ 6)

/-- The instruction's operands lie in the domains the spec gives them. -/
def Instr.wf : Instr → Bool
  | .bfDecode ls _ => layoutIdInDomain ls
  | .bfEncode ls => layoutIdInDomain ls
  | .tachToRpm _ => true
  | .rpmToTach _ => true
  | .tempDecode _ _ => true
  | .tempEncode _ => true
  | .ltempDecode _ _ => true
  | .ltempEncode _ => true
  | .lutRead => true
  | .lutWrite => true
  | .lutHystRead => true
  | .lutHystWrite _ => true
  | .fanSpeedGet => true
  | .fanSpeedSet _ => true
  | .intLimitSet _ => true
  | .extTempRead => true
  | .fanRpmGet => true
  | .minRpmGet => true
  | .minRpmSet _ => true
  | .regRead _ => true
  | .regWrite _ _ => true
  | .resetDefaults => true
  | .validate => true

end Sys2Proof
end

