-- ==== Sys2Proof/Tests/Slice0.lean ====
section
/-! SUPPORT. Small tests. Expected values are those of 95_test_vectors.md (named by its row) or follow by hand from the
rule named; words are written out from R60 and R63. Then a witness for each statement that has hypotheses. -/

namespace Sys2Proof.Tests

open Sys2Proof.Machine

/-! ## Helpers -/

/-- The state an operation ends in, if it ends in one. -/
def run (i : Instr) (s : State) : Option State :=
  match exec i s with
  | .next t => some t
  | .fault _ => none
  | .refused _ => none

/-- The result ports an operation leaves. -/
def ports (i : Instr) (s : State) : Option Results := (run i s).map (·.results)

/-- The result ports with only R32 set. -/
def word (x : BitVec 32) : Results := { Results.zero with r32 := x }

/-- The result ports with only RB_HI and RB_LO set. -/
def pair (hi lo : BitVec 8) : Results := { Results.zero with rbHi := hi, rbLo := lo }

/-- A bus answer that does not fail. -/
def gives (x y : BitVec 8) : BusAnswer := ⟨false, x, y, true⟩

/-- A bus answer that fails; the addressed register keeps its old byte. -/
def failing : BusAnswer := ⟨true, 0x00#8, 0x00#8, false⟩

/-- The state with the environment's next answers given. -/
def answering (s : State) (as : List BusAnswer) : State := { s with env := ⟨as, 0, 0⟩ }

/-- The state with an environment that fails its (n + 1)-th transaction and none before. -/
def failingAfter (s : State) (n : Nat) : State := answering s (List.replicate n (gives 0#8 0#8) ++ [failing])

/-- Cfg_T after reset: the table governs. The environment answers 0x19, second byte 0x60, n times. -/
def governed (n : Nat) : State := answering State.reset (List.replicate n (gives 0x19#8 0x60#8))

/-- The same with FAN_CONFIG 0x00: the table is released. -/
def released (n : Nat) : State := setReg (governed n) 0x4A#8 0x00#8

/-- Cfg_T after reset, in standby (CONFIG 0x40). -/
def standby (n : Nat) : State := setReg (governed n) 0x03#8 0x40#8

/-- Reset states, and their registers written, hold no latch. -/
theorem latchInv_of_empty {s : State} (h : s.latches = Latches.empty) : LatchInv s := by
  constructor <;> intro p <;> cases p <;> simp [h, latchOf, Latches.empty]

/-- The environment of these states has answers ready, none failing. -/
theorem answersOk_ready {s : State} {n : Nat} (h : s.env.answers = List.replicate n (gives 0x19#8 0x60#8)) :
    answersOk s n := by
  intro k hk
  simp [Env.at, h, hk, gives]

/-! ## Decoding: words from R60 and R63 -/

theorem test_decode_bitfield : decode 0x0000000000FF0101#64 = .ok (.bfDecode 0x01#8 0xFF#8) ∧
    decode 0x0000000000000202#64 = .ok (.bfEncode 0x02#8) := by decide
theorem test_decode_reciprocal : decode 0xFFFF151800000010#64 = .ok (.tachToRpm 0x1518#16) ∧
    decode 0x000003E800000011#64 = .ok (.rpmToTach 0x000003E8#32) := by decide
theorem test_decode_temperature : decode 0x0000000000601920#64 = .ok (.tempDecode 0x19#8 0x60#8) ∧
    decode 0x41CB333300000021#64 = .ok (.tempEncode 0x41CB3333#32) ∧
    decode 0x0000000000C01922#64 = .ok (.ltempDecode 0x19#8 0xC0#8) ∧
    decode 0x41CB851F00000023#64 = .ok (.ltempEncode 0x41CB851F#32) := by decide
theorem test_decode_lut : decode 0x0000000000000030#64 = .ok .lutRead ∧
    decode 0x0000000000000031#64 = .ok .lutWrite ∧ decode 0x0000000000000032#64 = .ok .lutHystRead ∧
    decode 0x0000000000000433#64 = .ok (.lutHystWrite 0x04#8) := by decide
theorem test_decode_fan : decode 0x0000000000000040#64 = .ok .fanSpeedGet ∧
    decode 0x0000000000003241#64 = .ok (.fanSpeedSet 0x32#8) ∧
    decode 0x428DCCCD00000042#64 = .ok (.intLimitSet 0x428DCCCD#32) ∧
    decode 0x0000000000000043#64 = .ok .extTempRead := by decide
theorem test_decode_rpm : decode 0x0000000000000044#64 = .ok .fanRpmGet ∧
    decode 0x0000000000000045#64 = .ok .minRpmGet ∧
    decode 0x00001B5800000046#64 = .ok (.minRpmSet 0x00001B58#32) := by decide
theorem test_decode_registers : decode 0xDEADBEEF00000350#64 = .ok (.regRead 0x03#8) ∧
    decode 0x0000000000054F51#64 = .ok (.regWrite 0x4F#8 0x05#8) ∧
    decode 0x0000000000000052#64 = .ok .resetDefaults ∧
    decode 0x0000000000000053#64 = .ok .validate := by decide
/-- G7 to G12: illegal words. -/
theorem test_decode_illegal : decode 0x0000000000000000#64 = .error .zeroOpcode ∧
    decode 0x0000000001000350#64 = .error .reservedBits ∧
    decode 0x0000000000000003#64 = .error .unknownOpcode ∧
    decode 0x0000000000000054#64 = .error .unknownOpcode ∧
    decode 0x00000000000000E0#64 = .error .extensionOpcode ∧
    decode 0x0000000001FF0101#64 = .error .reservedBits := by decide
/-- R60: byte 0 is CMD[7:0]; a command is eight bytes. -/
theorem test_decode_bytes :
    decodeBytes [0x51#8, 0x50#8, 0x10#8, 0x00#8, 0x00#8, 0x00#8, 0x00#8, 0x00#8] =
      .ok (.regWrite 0x50#8 0x10#8) ∧
    decodeBytes [0x51#8] = .error .wrongLength := by decide
theorem test_table_word : decodeTableWord 32 0x00000052 = some .resetDefaults := by decide

/-! ## Well-formedness -/

/-- R72: layout ids 0 to 6 are in the domain, 7 and 255 are not. -/
theorem test_instr_wf : (Instr.bfDecode 6#8 0#8).wf = true ∧ (Instr.bfDecode 7#8 0#8).wf = false ∧
    (Instr.bfEncode 255#8).wf = false := by decide
/-- 95_test_vectors.md §0: Cfg_T is well-formed. -/
theorem test_cfgT_wf : cfgWf cfgT = true := by decide +kernel
/-- Cfg_T gives every register its own address. -/
theorem test_cfgT_distinct : namesDistinct cfgT := by decide +kernel
/-- R28 item 1: DEV_ADDR outside its domain. -/
theorem test_refuses_devAddr : devAddrWf { cfgT with devAddr := 0x2F } = false := by decide
/-- R28 items 2 to 4: CONFIG unmapped; CONFIG at an RO address; a TACH byte at an RW address. -/
theorem test_refuses_names : namesWf { cfgT with config := 0x20#8 } = false ∧
    namesWf { cfgT with config := 0x00#8 } = false ∧
    namesWf { cfgT with tach := ⟨0x47#8, 0x48#8, .loFirst, true⟩ } = false := by decide
/-- R28 item 5: an RW address without a default, with two, and a default of an RO address. -/
theorem test_refuses_defaults : defaultsWf { cfgT with defaults := cfgTDefaults.tail } = false ∧
    defaultsWf { cfgT with defaults := (0x03#8, 0x01#8) :: cfgTDefaults } = false ∧
    defaultsWf { cfgT with defaults := cfgTDefaults ++ [(0x00#8, 0x00#8)] } = false := by decide
/-- R28 item 6: a table past 0xFF; a table over an RO register. R24, R170: nine entries; entries that overlap. -/
theorem test_refuses_lut : lutWf { cfgT with lutBase := 0xF1#8 } = false ∧
    lutWf { cfgT with lutBase := 0x40#8 } = false ∧ lutWf { cfgT with lit := { lutEntries := 9 } } = false ∧
    lutWf { cfgT with lit := { lutStride := 1 } } = false := by decide
/-- R7, D43: another number of entries and another stride. -/
theorem test_lut_literals : lutAddrs { cfgT with lit := { lutEntries := 2, lutStride := 3 } } =
    [0x50#8, 0x51#8, 0x53#8, 0x54#8] ∧ lutAddrs cfgT = (List.range 16).map fun j => 0x50#8 + BitVec.ofNat 8 j := by
  decide
/-- R31, R224: a TACH_LIMIT byte with another default. -/
theorem test_refuses_tachLimit_default :
    tachLimitDefaultWf { cfgT with defaults := [(0x48#8, 0xFF#8), (0x49#8, 0xFE#8)] } = false := by decide
/-- R45(a): the pair listed against its order, or with another register between. -/
theorem test_refuses_tachLimit_listed :
    tachLimitListedWf { cfgT with defaults := [(0x49#8, 0xFF#8), (0x48#8, 0xFF#8)] } = false ∧
    tachLimitListedWf { cfgT with defaults := [(0x48#8, 0xFF#8), (0x4A#8, 0x20#8), (0x49#8, 0xFF#8)] } = false := by
  decide
/-- R101: a field past bit 7, a Bool of width 2, an Enum code or a fallback outside its set. -/
theorem test_refuses_field : fieldWf ⟨.standby, 7, 2, .raw⟩ = false ∧ fieldWf ⟨.standby, 0, 2, .bool⟩ = false ∧
    fieldWf ⟨.rate, 0, 2, .enum [0, 4] 0⟩ = false ∧ fieldWf ⟨.rate, 0, 2, .enum [0, 1] 3⟩ = false ∧
    fieldWf ⟨.rate, 0, 0, .raw⟩ = false := by decide
/-- R101 items 1 and 2, and the bound on fields: overlapping fields, a field over FORCED, a bit of no field, nine
fields. -/
theorem test_refuses_layout :
    layoutWf ⟨[⟨.other 0, 0, 8, .raw⟩, ⟨.other 1, 0, 1, .raw⟩], 0x00#8⟩ = false ∧
    layoutWf ⟨[⟨.other 0, 0, 8, .raw⟩], 0x01#8⟩ = false ∧
    layoutWf ⟨[⟨.other 0, 1, 7, .raw⟩], 0x00#8⟩ = false ∧
    layoutWf ⟨List.replicate 9 ⟨.other 0, 0, 8, .raw⟩, 0x00#8⟩ = false := by decide
/-- R101 item 3: ALERT_MASK must force exactly the two bits of ALERT_FORCED. -/
theorem test_refuses_alert : alertMaskWf { cfgT with alertForced := 0x07#8 } = false ∧
    alertMaskWf { cfgT with layoutAlertMask := cfgTLayoutRaw, alertForced := 0x00#8 } = false := by decide
/-- R101 items 4 to 7: no Bool standby or lut_ctrl at its bit, no rate Enum, no duration Enum. -/
theorem test_refuses_required_fields : layoutsWf { cfgT with standbyBit := 5 } = false ∧
    layoutsWf { cfgT with lutCtrlBit := 6 } = false ∧ convRateWf { cfgT with convRateKmax := 8 } = false ∧
    convRateWf { cfgT with lit := { convRateCodes := 8 } } = false ∧
    spinUpWf { cfgT with layoutSpinUp := cfgTLayoutRaw } = false := by decide
/-- R108: rates that do not increase; a table of the wrong length. -/
theorem test_refuses_rates : rateTableWf { cfgT with convRateKmax := 1, convRateTable := [⟨1, 4⟩, ⟨1, 4⟩] } = false ∧
    rateTableWf { cfgT with convRateTable := [⟨1, 4⟩] } = false := by decide
/-- R10, R11: a divisor of 0, a NaN and an infinite bound, a NaN threshold, a reciprocal past 32 bits. -/
theorem test_refuses_literals : literalsWf { tachMax := 0 } = false ∧ literalsWf { tempMin := 0x7FC00000#32 } = false ∧
    literalsWf { tempMax := 0x7F800000#32 } = false ∧ literalsWf { legacyThreshold5 := 0x7FC00000#32 } = false ∧
    literalsWf { tachDivisor := 2 ^ 32 } = false ∧ literalsWf Literals.source = true := by decide
/-- R28, R247: an ill-formed configuration has no run. -/
theorem test_refuses_step : step (State.resetWith { cfgT with devAddr := 0x2F }) = .refused .illFormedConfig :=
  if_neg (by decide)

/-! ## One step of each operation -/

/-- B4: an unrecognised code becomes the fallback. B1 checks every field. -/
theorem test_bfDecode : ports (.bfDecode 1#8 0xC0#8) State.reset = some { Results.zero with
      rv := #v[1#8, 0#8, 0#8, 0#8, 0#8, 0#8, 0#8, 0#8] } ∧
    ports (.bfDecode 1#8 0xFF#8) State.reset = some { Results.zero with
      rv := #v[1#8, 3#8, 7#8, 0#8, 0#8, 0#8, 0#8, 0#8] } := by decide
/-- B15: a layout id outside the domain. -/
theorem test_bfDecode_fault : ports (.bfDecode 7#8 0x00#8) State.reset =
    some { Results.zero with status := 0x83#8, r32 := 7#32 } := by decide
/-- B8. -/
theorem test_bfEncode : ports (.bfEncode 1#8) { State.reset with ov := bytes8 [1#8, 1#8, 1#8] } =
    some (word 0xA7#32) := by decide
/-- B14: the lowest failing slot. -/
theorem test_bfEncode_fault : ports (.bfEncode 1#8) { State.reset with ov := bytes8 [0#8, 2#8, 8#8] } =
    some { Results.zero with status := 0x82#8, r32 := 1#32 } := by decide
/-- T1, T7. -/
theorem test_tachToRpm : ports (.tachToRpm 0#16) State.reset = some (word 5400000#32) ∧
    ports (.tachToRpm 0xFFFF#16) State.reset = some (word 82#32) := by decide
/-- T10, T18. -/
theorem test_rpmToTach : ports (.rpmToTach 82#32) State.reset = some (word 65060#32) ∧
    ports (.rpmToTach 5400001#32) State.reset = some (word 0#32) := by decide
/-- M9, M8: a negative reading, and a byte that only begins as a sentinel does. -/
theorem test_tempDecode : ports (.tempDecode 0xFF#8 0xE0#8) State.reset = some (word 0xBE000000#32) ∧
    ports (.tempDecode 0x7F#8 0xE1#8) State.reset = some (word 0x42FFC000#32) := by decide
/-- M2, M3: the sentinels; the NaN's pattern is free. -/
theorem test_tempDecode_sentinel :
    (ports (.tempDecode 0x7F#8 0x00#8) State.reset).map (·.status) = some 0x01#8 ∧
    (ports (.tempDecode 0x7F#8 0xE0#8) State.reset).map (·.status) = some 0x02#8 := by decide
/-- N5, N13: the floor of a negative value, and the sentinel guard. -/
theorem test_tempEncode : ports (.tempEncode 0xBD800000#32) State.reset = some (pair 0xFF#8 0xE0#8) ∧
    ports (.tempEncode 0x42FE0000#32) State.reset = some (pair 0x7F#8 0x20#8) := by decide
/-- N23. -/
theorem test_tempEncode_nan : ports (.tempEncode 0x7FC00000#32) State.reset =
    some { Results.zero with status := 0x82#8 } := by decide
/-- L4, L11. -/
theorem test_ltempDecode : ports (.ltempDecode 25#8 0x60#8) State.reset = some (word 0x41CB3333#32) ∧
    ports (.ltempDecode 0x7F#8 0x00#8) State.reset = some (word 0x42FE0000#32) := by decide
/-- K3, K13: a remainder just under a threshold, and one equal to it. -/
theorem test_ltempEncode : ports (.ltempEncode 0x41C88F5C#32) State.reset = some (pair 0x19#8 0x00#8) ∧
    ports (.ltempEncode 0x3EE147AE#32) State.reset = some (pair 0x00#8 0x60#8) := by decide
/-- U5: no clamp on read. -/
theorem test_lutRead : (ports .lutRead (setReg (governed 16) 0x57#8 0xFF#8)).map
    (fun r => (r.rbuf.toList.getD 7 0#8, r.rbuf.toList.getD 6 1#8)) = some (0xFF#8, 0x00#8) := by decide
/-- U3: a temperature and a speed are clamped. -/
theorem test_lutWrite : (run .lutWrite { released 16 with obuf := lutFillImage 200#8 255#8 }).map
    (fun t => (regAt t 0x5E#8, regAt t 0x5F#8, t.results)) = some (85#8, 0x63#8, Results.zero) := by
  decide
/-- U6: the table governs. -/
theorem test_lutWrite_locked : ports .lutWrite (governed 1) =
    some { Results.zero with status := 0x84#8, r32 := 0x50#32 } := by decide
/-- R174; Cfg_T's default is 4. -/
theorem test_lutHystRead : ports .lutHystRead (governed 1) = some (word 4#32) := by decide
/-- U9: no clamp and no lock. -/
theorem test_lutHystWrite : (run (.lutHystWrite 200#8) (governed 1)).map (regAt · 0x4F#8) = some 200#8 := by decide
/-- A4: raw. -/
theorem test_fanSpeedGet : ports .fanSpeedGet (setReg (governed 1) 0x4C#8 0xFF#8) = some (word 0xFF#32) := by decide
/-- A1; A3 with the environment keeping the old byte. -/
theorem test_fanSpeedSet : (run (.fanSpeedSet 50#8) (released 1)).map (regAt · 0x4C#8) = some 32#8 ∧
    (run (.fanSpeedSet 20#8) (answering (setReg State.reset 0x4C#8 5#8) [⟨false, 0#8, 0#8, false⟩])).map
      (fun t => (regAt t 0x4C#8, t.results)) = some (5#8, Results.zero) := by decide
/-- R174, R191, R175, R193: a failure of each reports BUS_ERROR with its register's address. -/
theorem test_single_register_fails :
    [ports .lutHystRead (failingAfter State.reset 0), ports .fanSpeedGet (failingAfter State.reset 0),
      ports (.lutHystWrite 5#8) (failingAfter State.reset 0),
      ports (.intLimitSet 0x428DCCCD#32) (failingAfter State.reset 0)] =
      [0x4F#32, 0x4C#32, 0x4F#32, 0x05#32].map fun a => some { word a with status := 0x81#8 } := by decide
/-- A5: truncated, not rounded. -/
theorem test_intLimitSet : (run (.intLimitSet 0x428DCCCD#32) (governed 1)).map (regAt · 0x05#8) = some 70#8 := by
  decide
/-- A10, A12. -/
theorem test_intLimitSet_rejected :
    ports (.intLimitSet 0x42AB0000#32) (governed 0) = some { Results.zero with status := 0x03#8 } ∧
    ports (.intLimitSet 0x7FC00000#32) (governed 0) = some { Results.zero with status := 0x03#8 } := by
  decide
/-- A14: no trigger outside standby, and one sample. -/
theorem test_extTempRead : (run .extTempRead (governed 3)).map (fun t => (t.results, t.history)) =
    some ({ word 0x41CB0000#32 with rbHi := 0x19#8, rbLo := 0x60#8 },
      [.read 0x03#8 0x00#8, .read 0x01#8 0x19#8, .read 0x10#8 0x60#8]) := by decide
/-- R196, R243: the trigger fails, so neither the sleep nor a read of the pair is performed. -/
theorem test_extTempRead_fails : (run .extTempRead (failingAfter (standby 0) 1)).map
    (fun t => (t.results, t.history)) = some ({ word 0x0F#32 with status := 0x81#8 },
      [.read 0x03#8 0x40#8, .write 0x0F#8 0x00#8 .failed]) := by decide
/-- A16: the trigger, and the settle time. -/
theorem test_extTempRead_standby : (run .extTempRead (standby 4)).map (·.history) =
    some [.read 0x03#8 0x40#8, .write 0x0F#8 0x00#8 .oneShot, .sleep 50#32, .read 0x01#8 0x19#8,
      .read 0x10#8 0x60#8] := by decide
/-- A17: the low byte is read first. -/
theorem test_fanRpmGet : ports .fanRpmGet (answering State.reset [gives 0x08#8 0x07#8, gives 0x00#8 0x00#8]) =
    some { word 3000#32 with rbHi := 0x07#8, rbLo := 0x08#8 } := by decide
/-- A20. -/
theorem test_minRpmGet : ports .minRpmGet (governed 2) = some (word 82#32) := by decide
/-- A21; A24 with the environment keeping the old byte. -/
theorem test_minRpmSet : (run (.minRpmSet 1000#32) (governed 2)).map
      (fun t => (regAt t 0x48#8, regAt t 0x49#8)) = some (0x18#8, 0x15#8) ∧
    (run (.minRpmSet 1000#32) (failingAfter State.reset 1)).map
      (fun t => (t.results.status, t.results.r32, regAt t 0x48#8, regAt t 0x49#8)) =
      some (0x81#8, 0x49#32, 0x18#8, 0xFF#8) := by decide
/-- G1, G2. -/
theorem test_regRead : ports (.regRead 0x4A#8) (governed 1) = some (word 0x20#32) ∧
    ports (.regRead 0x20#8) (governed 0) = some { Results.zero with status := 0x85#8, r32 := 0x20#32 } := by decide
/-- G5, G3. -/
theorem test_regWrite : (run (.regWrite 0x4A#8 0x00#8) (governed 1)).map (regAt · 0x4A#8) = some 0x00#8 ∧
    ports (.regWrite 0x47#8 0x00#8) (governed 0) = some { Results.zero with status := 0x81#8, r32 := 0x47#32 } := by
  decide
/-- G13: thirty writes, from a corrupted register back to its default. -/
theorem test_resetDefaults : (run .resetDefaults (setReg (governed 30) 0x4F#8 0x05#8)).map
    (fun t => (t.history.length, regAt t 0x4F#8, regAt t 0x4A#8)) = some (30, 0x04#8, 0x20#8) := by decide
/-- E9: one corrupted register. -/
theorem test_validate : ports .validate (setReg (governed 29) 0x4F#8 0x05#8) =
    some { Results.zero with status := 0x04#8, r32 := 1#32 } := by decide
/-- R33, R278: a run without an operation shows no result; one operation shows its own. -/
theorem test_observe : (observe State.reset).results = none ∧
    (observe (finish State.reset (word 7#32))).results = some (word 7#32) := ⟨rfl, rfl⟩
/-- E5 by its pieces: the pseudo-instruction and directives of R66. -/
theorem test_assembler : (assemble State.reset [.reg 0x03#8 0x40#8, .ov [1#8], .lutFill 85#8 99#8, .nop]).moves =
    [.setOv (bytes8 [1#8]), .setObuf (lutFillImage 85#8 99#8), .issue 0x0000000000000031#64,
      .issue 0x0000000000000350#64] := by decide
/-- R66's text: a comment, hex, a real (N8), a layout name, and a line outside the syntax. -/
theorem test_assembler_text :
    parseProgram "REG_WRITE 0x4A, 0 ; release\n\nTEMP_ENCODE -10.3\n BF_DECODE SPIN_UP, 0xFF".toList =
      some [.command (.regWrite 0x4A#8 0x00#8), .command (.tempEncode 0xC124CCCD#32),
        .command (.bfDecode 4#8 0xFF#8)] ∧
    parseProgram "REG_WRITE 0x4A".toList = none := by decide
/-- G8: an illegal word issued by the host, through `step`. -/
theorem test_step_illegal : (match step { State.reset with moves := [.issue 0x0000000001000350#64] } with
    | .next t => some (t.results, t.faults.illegalCommand)
    | .fault _ => none
    | .refused _ => none) = some ({ Results.zero with status := 0x80#8, r32 := 0x01000350#32 }, true) := by
  decide
/-- R33: the result ports hold no value before the first operation has completed. -/
theorem test_step_early_read : step { State.reset with moves := [.read .status] } = .fault (.portUnwritten .status) :=
  if_pos test_cfgT_wf

/-! ## Witnesses: states and operands that meet a statement's hypotheses -/

theorem test_witness_StepRunsDecodedInstruction : cfgWf State.reset.cfg = true ∧ State.reset.seq = .idle ∧
    ({ State.reset with moves := [.issue 0x0000000000004A50#64] } : State).moves =
      .issue 0x0000000000004A50#64 :: [] ∧
    decode 0x0000000000004A50#64 = .ok (.regRead 0x4A#8) := ⟨test_cfgT_wf, rfl, rfl, by decide⟩
theorem test_witness_IllegalCommandReported : cfgWf State.reset.cfg = true ∧ State.reset.seq = .idle ∧
    cmdRsv 0x0000000001000350#64 ≠ 0x00#8 ∧ cmdOp 0x0000000000000000#64 = 0x00#8 ∧
    0xE0 ≤ (cmdOp 0x00000000000000E0#64).toNat ∧ 0xE0 ≤ (cmdOp 0x00000000000000FF#64).toNat :=
  ⟨test_cfgT_wf, rfl, by decide⟩
/-- An opcode that is no operation's, below 0xE0. -/
theorem test_witness_IllegalCommandReported_opcode :
    ∀ i : Instr, i.opcode ≠ cmdOp 0x0000000000000054#64 := by intro i; cases i <;> simp [Instr.opcode, cmdOp]
theorem test_witness_StepKeepsInv : MachineInv State.reset ∧ ∃ t, step State.reset = .next t :=
  ⟨⟨rfl, ⟨rfl, by simp [State.reset, State.resetWith]⟩, latchInv_of_empty rfl,
    ⟨by simp [State.reset, State.resetWith], by simp [State.reset, State.resetWith]⟩⟩,
    State.reset, if_pos test_cfgT_wf⟩
theorem test_witness_IllFormedConfigHasNoRun : cfgWf { cfgT with devAddr := 0x2F } = false := by decide
theorem test_witness_HostPortMoves : cfgWf State.reset.cfg = true ∧ State.reset.seq = .idle ∧
    State.reset.resultsWritten = false ∧ (finish State.reset okNone).resultsWritten = true ∧
    (finish State.reset okNone).seq = .idle := ⟨test_cfgT_wf, rfl, rfl, rfl, rfl⟩
theorem test_witness_StepKeepsCfgMarksAndHistory : step State.reset = .next State.reset := if_pos test_cfgT_wf
theorem test_witness_ResultsDependOnlyOnTheirInputs :
    (finish State.reset (word 7#32)).cfg = State.reset.cfg ∧
    (finish State.reset (word 7#32)).mem = State.reset.mem ∧
    (finish State.reset (word 7#32)).latches = State.reset.latches ∧
    (finish State.reset (word 7#32)).env = State.reset.env ∧
    (finish State.reset (word 7#32)).ov = State.reset.ov ∧
    (finish State.reset (word 7#32)).obuf = State.reset.obuf ∧
    finish State.reset (word 7#32) ≠ State.reset := ⟨rfl, rfl, rfl, rfl, rfl, rfl, by decide⟩
/-- One operation that ends with a fault, one that does not. -/
theorem test_witness_FaultEntryZeroesPortsAndMarks :
    (ports (.bfDecode 7#8 0#8) State.reset).map (fun r => r.status.getLsbD 7) = some true ∧
    (ports (.tachToRpm 0#16) State.reset).map (fun r => r.status.getLsbD 7) = some false := by decide
theorem test_witness_StatusCodesAndTheirWriters : cfgWf State.reset.cfg = true ∧ namesDistinct State.reset.cfg ∧
    (run .extTempRead (standby 4)).isSome = true := ⟨test_cfgT_wf, test_cfgT_distinct, rfl⟩
/-- Each other code is written by one of its row's operations: 0x01, 0x03, 0x04, 0x81 to 0x85. -/
theorem test_witness_StatusCodesAndTheirWriters_codes :
    [ports (.tempDecode 0x7F#8 0x00#8) State.reset, ports (.intLimitSet 0x42AB0000#32) State.reset,
      ports .validate (setReg (governed 29) 0x4F#8 0x05#8), ports (.regWrite 0x47#8 0x00#8) State.reset,
      ports (.tempEncode 0x7FC00000#32) State.reset, ports (.bfEncode 7#8) State.reset,
      ports .lutWrite (governed 1), ports (.regRead 0x20#8) State.reset].map
        (fun r => r.map (·.status)) =
      [some 0x01#8, some 0x03#8, some 0x04#8, some 0x81#8, some 0x82#8, some 0x83#8, some 0x84#8,
        some 0x85#8] := by decide
theorem test_witness_CodecsPerformNoTransaction : usesBus (.ltempDecode 25#8 0x60#8) = false ∧
    (run (.ltempDecode 25#8 0x60#8) State.reset).isSome = true := ⟨rfl, rfl⟩
/-- Each read operation ends in a next state (and has changed a latch of its pair, in FAN_RPM_GET's case, only). -/
theorem test_witness_ReadsLeaveRegistersUnchanged :
    [run .lutRead (governed 16), run .lutHystRead (governed 1), run .fanSpeedGet (governed 1),
      run .fanRpmGet (governed 2), run .minRpmGet (governed 2), run (.regRead 0x01#8) (governed 1),
      run .validate (governed 29)].all Option.isSome = true := rfl
theorem test_witness_WritesLeaveOtherRegistersUnchanged :
    [run .lutWrite (released 16), run (.lutHystWrite 1#8) (governed 1), run (.fanSpeedSet 1#8) (released 1),
      run (.intLimitSet 0x428DCCCD#32) (governed 1), run .extTempRead (standby 4),
      run (.minRpmSet 7000#32) (governed 2), run (.regWrite 0x4B#8 0xFF#8) (governed 1),
      run .resetDefaults (governed 30)].all Option.isSome = true := rfl

theorem test_witness_RegReadReturnsHeldByte : attrOf (governed 1).cfg 0x4A#8 = .rw ∧ answersOk (governed 1) 1 ∧
    LatchInv (governed 1) := ⟨by decide, by decide, latchInv_of_empty rfl⟩
/-- The first byte of a latching pair, the second byte with its latch empty, and an RO byte of no pair. -/
theorem test_witness_RegReadOfReadOnlyIsDraw : answersOk (governed 1) 1 ∧
    (∀ a, a ∈ [0x01#8, 0x10#8, 0xFD#8] → attrOf (governed 1).cfg a = .ro) ∧
    ∀ p, latchOf (governed 1).latches p = none := ⟨by decide, by decide, fun p => by cases p <;> rfl⟩
theorem test_witness_RegReadConsumesLatch :
    attrOf cfgT (secondAddr (pairCfg cfgT .tach)) ≠ .unmapped ∧
    answersOk { governed 1 with latches := ⟨none, some 0x07#8, none⟩ } 1 ∧
    latchOf ⟨none, some 0x07#8, none⟩ .tach = some 0x07#8 ∧
    ∀ q, q ≠ .tach → secondAddr (pairCfg cfgT q) ≠ secondAddr (pairCfg cfgT .tach) :=
  ⟨by decide, by decide, rfl, fun q => by cases q <;> decide⟩
theorem test_witness_LatchedPairIsOneSample : namesDistinct (governed 2).cfg ∧
    (pairCfg (governed 2).cfg .extTemp).latching = true ∧
    attrOf (governed 2).cfg (firstAddr (pairCfg (governed 2).cfg .extTemp)) = .ro ∧
    attrOf (governed 2).cfg (secondAddr (pairCfg (governed 2).cfg .extTemp)) = .ro ∧
    answersOk (governed 2) 2 := ⟨test_cfgT_distinct, rfl, by decide, by decide, by decide⟩
theorem test_witness_UnmappedAccessFaults : attrOf State.reset.cfg 0x20#8 = .unmapped := by decide
/-- An RW byte, an RO byte, and the two registers read by their own operation. -/
theorem test_witness_FailedReadReportsBusError : attrOf cfgT 0x03#8 ≠ .unmapped ∧ attrOf cfgT 0x01#8 ≠ .unmapped ∧
    attrOf cfgT cfgT.lutHyst ≠ .unmapped ∧ attrOf cfgT cfgT.fanSetting ≠ .unmapped ∧
    failsAfter (failingAfter State.reset 0) 0 := by decide
/-- A governed machine's ONE_SHOT, FAN_CONFIG and FAN_SETTING, and a released one's table register. -/
theorem test_witness_RegWriteStoresByte : attrOf cfgT 0x0F#8 = .rw ∧ attrOf cfgT 0x4A#8 = .rw ∧
    attrOf cfgT 0x5F#8 = .rw ∧ answersOk (governed 1) 1 ∧ answersOk (released 1) 1 ∧
    isLutAddr cfgT 0x0F#8 = false ∧ 0x0F#8 ≠ cfgT.fanSetting ∧ isLutAddr cfgT 0x4A#8 = false ∧
    0x4A#8 ≠ cfgT.fanSetting ∧ lutGoverns (released 1) = false ∧ attrOf cfgT cfgT.fanSetting = .rw ∧
    lutGoverns (governed 1) = true ∧ isLutAddr cfgT cfgT.fanSetting = false := by decide
theorem test_witness_ReadOnlyWriteRejected : attrOf State.reset.cfg 0x47#8 = .ro := by decide
/-- Each register written by its own operation; the accepted limits 0.0 and 85.0. -/
theorem test_witness_FailedWriteLeavesOldOrNew : attrOf cfgT 0x05#8 = .rw ∧ attrOf cfgT cfgT.lutHyst = .rw ∧
    attrOf cfgT cfgT.fanSetting = .rw ∧ attrOf cfgT cfgT.intHighLimit = .rw ∧
    intLimitAccepts cfgT.lit 0x00000000#32 = true ∧ intLimitAccepts cfgT.lit 0x42AA0000#32 = true ∧
    failsAfter (failingAfter State.reset 0) 0 := by decide
/-- The table's first and last registers. -/
theorem test_witness_TableRegisterWriteLocked : attrOf cfgT 0x50#8 = .rw ∧ attrOf cfgT 0x5F#8 = .rw ∧
    answersOk (governed 1) 1 ∧ isLutAddr cfgT 0x50#8 = true ∧ isLutAddr cfgT 0x5F#8 = true ∧
    isLutAddr cfgT 0x60#8 = false ∧ lutGoverns (governed 1) = true := by decide

/-- The byte 0xC0, and one that differs from it in FORCED bits alone. -/
theorem test_witness_BfDecodeGivesFieldValues : layoutOf State.reset.cfg 1#8 = some cfgTLayoutAlertMask ∧
    layoutWf cfgTLayoutAlertMask = true ∧
    0xC1#8 ||| cfgTLayoutAlertMask.forced = 0xC0#8 ||| cfgTLayoutAlertMask.forced := by decide
theorem test_witness_BfEncodeAssemblesFields : layoutOf State.reset.cfg 1#8 = some cfgTLayoutAlertMask ∧
    layoutWf cfgTLayoutAlertMask = true ∧
    (∀ k f, cfgTLayoutAlertMask.fields[k]? = some f → inDomain f (ovSlot State.reset.ov k).toNat = true) := by
  refine ⟨rfl, by decide, fun k f h => ?_⟩
  have hk : k < 3 := (List.getElem?_eq_some_iff.1 h).1
  match k, hk with
  | 0, _ => cases h; decide
  | 1, _ => cases h; decide
  | 2, _ => cases h; decide
/-- Layout ids 7 and 255; slot 0 fails; and slot 1 fails with slot 0 in its domain. -/
theorem test_witness_BitfieldOperandFaults : 6 < (7#8 : BitVec 8).toNat ∧ 6 < (255#8 : BitVec 8).toNat ∧
    layoutOf cfgT 1#8 = some cfgTLayoutAlertMask ∧
    inDomain ⟨.other 0, 7, 1, .bool⟩ 2 = false ∧ inDomain ⟨.other 0, 7, 1, .bool⟩ 1 = true ∧
    inDomain ⟨.other 1, 5, 2, .enum [0, 1, 3] 0⟩ 2 = false := by decide
theorem test_witness_LayoutRoundTrip : layoutWf cfgTLayoutAlertMask = true ∧
    encodeLayout cfgTLayoutAlertMask (bytes8 [1#8, 3#8, 7#8]) = .ok 0xFF#8 ∧
    (∀ k : Fin 8, 3 ≤ k.val → (bytes8 [1#8, 3#8, 7#8])[k] = 0#8) := by decide

theorem test_witness_TachToRpmResult : sourceLiterals State.reset ∧
    cmdRsv 0x0000FFFF00000010#64 = 0x00#8 ∧ cmdOp 0x0000FFFF00000010#64 = 0x10#8 := ⟨rfl, by decide⟩
theorem test_witness_RpmToTachResult : sourceLiterals State.reset ∧
    cmdRsv 0xFFFFFFFF00000011#64 = 0x00#8 ∧ cmdOp 0xFFFFFFFF00000011#64 = 0x11#8 := ⟨rfl, by decide⟩
/-- The ends of each clause's range. -/
theorem test_witness_ReciprocalLaws : (0#16).toNat ≤ (0xFFFF#16).toNat ∧ 83 ≤ (83#32).toNat ∧
    (5400000#32).toNat ≤ 5400000 ∧ 82 ≤ (82#32).toNat ∧ (3318#32).toNat ≤ 3318 ∧
    5400000 < (5400001#32).toNat := by decide
/-- The two sentinels, and the pairs next to them. -/
theorem test_witness_TempDecodeResult : sourceLiterals State.reset ∧
    [(0x7F#8, 0x00#8), (0x7F#8, 0xE0#8), (0x7F#8, 0x01#8), (0x7F#8, 0xDF#8), (0x7E#8, 0x00#8)].map
      (fun p => diodeStatus Literals.source p.1 p.2) =
      [.openCircuit, .shortCircuit, .ok, .ok, .ok] := by decide
theorem test_witness_LtempDecodeRoundsOnce : sourceLiterals State.reset := rfl
/-- A tie (2^24 + 1), an overflow (2^128), and a value below the least subnormal. -/
theorem test_witness_RoundingIsNearestEven : isNaN 0x00000000#32 = false ∧ isNaN 0x7F800000#32 = false ∧
    f32OfRatio false (2 ^ 24 + 1) 1 = 0x4B800000#32 ∧ f32OfRatio true (2 ^ 128) 1 = 0xFF800000#32 ∧
    f32OfRatio false 1 (2 ^ 150) = 0x00000000#32 ∧ f32OfRatio false 3 (2 ^ 150) = 0x00000002#32 := by
  decide
/-- Both ends of the clamp, the guarded value and an infinity are no NaN. -/
theorem test_witness_TempEncodeFloorsToEighths : sourceLiterals State.reset ∧
    [0xC2800000#32, 0x42FF8000#32, 0x42FE0000#32, 0x7F800000#32].all (fun v => !isNaN v) = true := by decide
theorem test_witness_EncodersRejectNaN : isNaN 0x7FC00000#32 = true ∧ isNaN 0xFF800001#32 = true := by decide
/-- 127.0, and the greatest binary32 below 127.125. -/
theorem test_witness_SentinelGuard : isNaN 0x42FE0000#32 = false ∧ 127 * f32One ≤ f32Val 0x42FE0000#32 ∧
    isNaN 0x42FE3FFF#32 = false ∧ 8 * f32Val 0x42FE3FFF#32 < 1017 * f32One ∧
    8 * f32Val 0x42FE4000#32 = 1017 * f32One := by decide
/-- The lowest pair of the range, and the pair next to a sentinel. -/
theorem test_witness_ModernRoundTrip : sourceLiterals State.reset ∧ -64 ≤ (0xC0#8 : BitVec 8).toInt ∧
    (0x20#8 : BitVec 8).extractLsb' 0 5 = 0#5 ∧ -64 ≤ (0x7F#8 : BitVec 8).toInt ∧
    ¬(0x7F#8 = (0x7F#8 : BitVec 8) ∧ (0x20#8 = (0x00#8 : BitVec 8) ∨ 0x20#8 = (0xE0#8 : BitVec 8))) := by decide
theorem test_witness_LtempEncodeCascades : sourceLiterals State.reset ∧
    [0x00000000#32, 0x437FE666#32, 0x43800000#32, 0xC0400000#32].all (fun v => !isNaN v) = true := by decide
theorem test_witness_LegacyRoundTrip : sourceLiterals State.reset ∧ (0xE0#8 : BitVec 8).extractLsb' 0 5 = 0#5 := by decide

/-- No failure, a failure at the first register, and one at the last. -/
theorem test_witness_LutReadReturnsTable : sourceLiterals (governed 16) ∧ cfgWf (governed 16).cfg = true ∧
    LatchInv (governed 16) ∧ answersOk (governed 16) 16 ∧ failsAfter (failingAfter State.reset 0) 0 ∧
    LatchInv (failingAfter State.reset 0) ∧ failsAfter (failingAfter State.reset 15) 15 ∧
    LatchInv (failingAfter State.reset 15) :=
  ⟨rfl, test_cfgT_wf, latchInv_of_empty rfl, answersOk_ready rfl, by decide, latchInv_of_empty rfl, by decide,
    latchInv_of_empty rfl⟩
theorem test_witness_LutWriteStoresClampedTable : sourceLiterals (released 16) ∧ cfgWf (released 16).cfg = true ∧
    isLutAddr (released 16).cfg (released 16).cfg.fanConfig = false ∧ answersOk (released 16) 16 ∧
    lutGoverns (released 16) = false := ⟨rfl, test_cfgT_wf, by decide, answersOk_ready rfl, by decide⟩
/-- A failure at the first register and at the last; and the table governing. -/
theorem test_witness_LutWriteStopsAtItsFault : sourceLiterals (governed 1) ∧ cfgWf (governed 1).cfg = true ∧
    isLutAddr (governed 1).cfg (governed 1).cfg.fanConfig = false ∧
    failsAfter (failingAfter (released 0) 0) 0 ∧ lutGoverns (failingAfter (released 0) 0) = false ∧
    failsAfter (failingAfter (released 0) 15) 15 ∧
    answersOk (governed 1) 1 ∧ lutGoverns (governed 1) = true := ⟨rfl, test_cfgT_wf, by decide⟩
theorem test_witness_LutWriteThenRead : sourceLiterals (released 32) ∧ cfgWf (released 32).cfg = true ∧
    isLutAddr (released 32).cfg (released 32).cfg.fanConfig = false ∧ LatchInv (released 32) ∧
    answersOk (released 32) 32 ∧ lutGoverns (released 32) = false :=
  ⟨rfl, test_cfgT_wf, by decide, latchInv_of_empty rfl, answersOk_ready rfl, by decide⟩
/-- A read that succeeds and one that fails. -/
theorem test_witness_HystAndFanSpeedReadRaw : cfgWf (governed 1).cfg = true ∧ answersOk (governed 1) 1 ∧
    LatchInv (governed 1) ∧ failsAfter (failingAfter State.reset 0) 0 :=
  ⟨test_cfgT_wf, by decide, latchInv_of_empty rfl, by decide⟩

/-- A write that succeeds and one that fails. -/
theorem test_witness_LutHystWriteStoresRaw : cfgWf (governed 1).cfg = true ∧ namesDistinct (governed 1).cfg ∧
    answersOk (governed 1) 1 ∧ failsAfter (failingAfter State.reset 0) 0 :=
  ⟨test_cfgT_wf, test_cfgT_distinct, by decide⟩
/-- Released, governed, and a failing write. -/
theorem test_witness_FanSpeedSetResult : sourceLiterals (released 1) ∧ cfgWf (released 1).cfg = true ∧
    isLutAddr cfgT cfgT.fanSetting = false ∧ answersOk (released 1) 1 ∧ lutGoverns (released 1) = false ∧
    answersOk (governed 1) 1 ∧ lutGoverns (governed 1) = true ∧
    failsAfter (failingAfter State.reset 0) 0 ∧
    cmdRsv 0x0000000000003241#64 = 0x00#8 ∧ cmdOp 0x0000000000003241#64 = 0x41#8 :=
  ⟨rfl, test_cfgT_wf, by decide⟩
/-- The accepted range's two ends and the values just past them; minus zero; a NaN. -/
theorem test_witness_IntLimitSetAcceptsOrRejects : sourceLiterals (governed 1) ∧ cfgWf (governed 1).cfg = true ∧
    namesDistinct (governed 1).cfg ∧ answersOk (governed 1) 1 ∧
    failsAfter (failingAfter State.reset 0) 0 ∧
    f32Val 0x42AA0000#32 = 85 * f32One ∧ f32Val 0x80000000#32 = 0 ∧
    ¬ f32Val 0x42AA0001#32 ≤ 85 * f32One ∧ ¬ 0 ≤ f32Val 0x80000001#32 ∧ isNaN 0x7FC00000#32 = true :=
  ⟨rfl, test_cfgT_wf, test_cfgT_distinct, by decide, by decide, by decide⟩
/-- In standby and out of it: no failure, and a failure at each transaction. -/
theorem test_witness_ExtTempReadSequence : sourceLiterals (standby 4) ∧ cfgWf (standby 4).cfg = true ∧
    namesDistinct (standby 4).cfg ∧ answersOk (standby 4) 4 ∧ (regAt (standby 4) 0x03#8).getLsbD 6 = true ∧
    answersOk (governed 3) 3 ∧ (regAt (governed 3) 0x03#8).getLsbD 6 = false ∧
    (∀ k, k < 4 → failsAfter (failingAfter (standby 0) k) k) ∧
    (∀ k, k < 4 → (regAt (failingAfter (standby 0) k) 0x03#8).getLsbD 6 = true) ∧
    ∀ k, k < 3 → failsAfter (failingAfter (governed 0) k) k :=
  ⟨rfl, test_cfgT_wf, test_cfgT_distinct, by decide⟩
/-- No failure, a failure at the first read, and one at the second. -/
theorem test_witness_FanRpmGetConvertsPair : sourceLiterals (governed 2) ∧ cfgWf (governed 2).cfg = true ∧
    namesDistinct (governed 2).cfg ∧ answersOk (governed 2) 2 ∧ failsAfter (failingAfter State.reset 0) 0 ∧
    failsAfter (failingAfter State.reset 1) 1 := ⟨rfl, test_cfgT_wf, test_cfgT_distinct, by decide⟩
/-- No failure, a failure at the first transaction, and one at the second. -/
theorem test_witness_MinRpmGetConvertsPair : sourceLiterals (governed 2) ∧ cfgWf (governed 2).cfg = true ∧
    LatchInv (governed 2) ∧ answersOk (governed 2) 2 ∧ failsAfter (failingAfter State.reset 0) 0 ∧
    failsAfter (failingAfter State.reset 1) 1 ∧
    LatchInv (failingAfter State.reset 1) ∧
    cmdRsv 0x0000000000000045#64 = 0x00#8 ∧ cmdOp 0x0000000000000045#64 = 0x45#8 :=
  ⟨rfl, test_cfgT_wf, latchInv_of_empty rfl, by decide, by decide, by decide, latchInv_of_empty rfl, by decide⟩
theorem test_witness_MinRpmSetWritesCount : sourceLiterals (governed 2) ∧ cfgWf (governed 2).cfg = true ∧
    namesDistinct (governed 2).cfg ∧ answersOk (governed 2) 2 ∧
    failsAfter (failingAfter State.reset 0) 0 ∧
    failsAfter (failingAfter State.reset 1) 1 ∧
    cmdRsv 0x000003E800000046#64 = 0x00#8 ∧ cmdOp 0x000003E800000046#64 = 0x46#8 :=
  ⟨rfl, test_cfgT_wf, test_cfgT_distinct, by decide⟩
theorem test_witness_MinRpmSetThenGet : sourceLiterals (governed 4) ∧ cfgWf (governed 4).cfg = true ∧
    namesDistinct (governed 4).cfg ∧ answersOk (governed 4) 4 := ⟨rfl, test_cfgT_wf, test_cfgT_distinct, by decide⟩
/-- No failure, and a failure at the first, a middle and the last of Cfg_T's thirty writes. -/
theorem test_witness_ResetDefaultsEstablishesDefaults : cfgWf (governed 30).cfg = true ∧
    namesDistinct (governed 30).cfg ∧ answersOk (governed 30) ((governed 30).cfg.defaults.length + 1) ∧
    (resetWrites cfgT)[0]? = some (0x4A#8, 0x00#8) ∧ failsAfter (failingAfter State.reset 0) 0 ∧
    (resetWrites cfgT)[7]? = some (0x48#8, 0xFF#8) ∧ failsAfter (failingAfter State.reset 7) 7 ∧
    (resetWrites cfgT)[29]? = some (0x4A#8, 0x20#8) ∧ failsAfter (failingAfter State.reset 29) 29 :=
  ⟨test_cfgT_wf, test_cfgT_distinct, answersOk_ready rfl, by decide⟩
/-- No failure, a failure at the first read, and one at the last of Cfg_T's 29. -/
theorem test_witness_ValidateCountsMismatches : cfgWf (governed 29).cfg = true ∧ LatchInv (governed 29) ∧
    answersOk (governed 29) (governed 29).cfg.defaults.length ∧
    cfgT.defaults[0]? = some (0x03#8, 0x00#8) ∧ failsAfter (failingAfter State.reset 0) 0 ∧
    cfgT.defaults[28]? = some (0xBF#8, 0x00#8) ∧
    failsAfter (failingAfter State.reset 28) 28 ∧
    cmdRsv 0x0000000000000053#64 = 0x00#8 ∧ cmdOp 0x0000000000000053#64 = 0x53#8 :=
  ⟨test_cfgT_wf, latchInv_of_empty rfl, answersOk_ready rfl, by decide⟩
theorem test_witness_ResetThenValidatePasses : cfgWf (governed 59).cfg = true ∧ namesDistinct (governed 59).cfg ∧
    LatchInv (governed 59) ∧ answersOk (governed 59) (2 * (governed 59).cfg.defaults.length + 1) :=
  ⟨test_cfgT_wf, test_cfgT_distinct, latchInv_of_empty rfl, answersOk_ready rfl⟩

end Sys2Proof.Tests
end

section
/-! PROOF. What BF_DECODE gives (R102, R103): the bits of a field, its code, the slots of a decoded byte. -/

namespace Sys2Proof.Machine

/-! ## Fields of a well-formed layout (R101) -/

theorem layoutWf_iff (l : Layout) : layoutWf l = true ↔ l.fields.length ≤ 8 ∧
    (∀ f ∈ l.fields, fieldWf f = true) ∧ (∀ i < 8, bitOwners l i ≤ 1) ∧ ∀ i < 8, 1 ≤ bitOwners l i := by
  simp only [layoutWf, layoutDisjoint, layoutCovers, Bool.and_eq_true, List.all_eq_true, List.mem_range,
    decide_eq_true_eq, and_assoc]

theorem fieldWf_of_mem {l : Layout} {f : BitField} (h : layoutWf l = true) (hf : f ∈ l.fields) :
    fieldWf f = true := by
  obtain ⟨_, hfields, _, _⟩ := (layoutWf_iff l).1 h
  exact hfields f hf

theorem field_fits {f : BitField} (h : fieldWf f = true) : f.lo + f.w ≤ 8 := by
  simp only [fieldWf, Bool.and_eq_true, decide_eq_true_eq] at h
  obtain ⟨⟨_, hfits⟩, _⟩ := h
  exact hfits

theorem fallback_lt {f : BitField} {codes : List Nat} {fb : Nat} (h : fieldWf f = true)
    (hk : f.kind = .enum codes fb) : fb < 2 ^ f.w := by
  simp only [fieldWf, hk, Bool.and_eq_true, List.all_eq_true, decide_eq_true_eq, List.contains_iff_mem] at h
  obtain ⟨_, hcodes, hfb⟩ := h
  exact hcodes fb hfb

/-- No bit of a field is in FORCED, since each bit has one owner at most (R101 item 1). -/
theorem forced_field_bit {l : Layout} {f : BitField} (h : layoutWf l = true) (hf : f ∈ l.fields) {i : Nat}
    (hi : i < f.w) : l.forced.getLsbD (f.lo + i) = false := by
  have hbit : f.lo + i < 8 := by have := field_fits (fieldWf_of_mem h hf); omega
  have howned : 0 < l.fields.countP (fun g => fieldHasBit g (f.lo + i)) :=
    List.countP_pos_iff.2 ⟨f, hf, by simp [fieldHasBit, hi]⟩
  obtain ⟨_, _, hdisjoint, _⟩ := (layoutWf_iff l).1 h
  have hone := hdisjoint _ hbit
  cases hforced : l.forced.getLsbD (f.lo + i) with
  | false => rfl
  | true =>
    simp only [bitOwners, hforced, if_true] at hone
    omega

/-! ## The value of a field (R102) -/

theorem fieldSlice_eq (f : BitField) (b : Byte) : fieldSlice f b = (b.extractLsb' f.lo f.w).toNat := by
  rw [fieldSlice, BitVec.extractLsb'_toNat, Nat.shiftRight_eq_div_pow]

theorem fieldValue_lt {f : BitField} (h : fieldWf f = true) (b : Byte) : fieldValue f b < 2 ^ f.w := by
  have hslice : fieldSlice f b < 2 ^ f.w := Nat.mod_lt _ (Nat.two_pow_pos _)
  cases hk : f.kind with
  | bool => simpa [fieldValue, hk, resolveCode] using hslice
  | raw => simpa [fieldValue, hk, resolveCode] using hslice
  | enum codes fb =>
    simp only [fieldValue, hk, resolveCode]
    split
    · exact hslice
    · exact fallback_lt h hk

theorem fieldValue_lt_byte {f : BitField} (h : fieldWf f = true) (b : Byte) : fieldValue f b < 256 :=
  calc fieldValue f b < 2 ^ f.w := fieldValue_lt h b
    _ ≤ 2 ^ 8 := Nat.pow_le_pow_right (by decide) (by have := field_fits h; omega)

/-- A field reads no FORCED bit (R102). -/
theorem fieldValue_congr {l : Layout} {f : BitField} {b b' : Byte} (h : layoutWf l = true) (hf : f ∈ l.fields)
    (hb : b' ||| l.forced = b ||| l.forced) : fieldValue f b' = fieldValue f b := by
  have hbits : b'.extractLsb' f.lo f.w = b.extractLsb' f.lo f.w := by
    ext i hi
    have hor := congrArg (BitVec.getLsbD · (f.lo + i)) hb
    simpa [BitVec.getLsbD_or, forced_field_bit h hf hi] using hor
  simp only [fieldValue, fieldSlice_eq, hbits]

/-! ## The slots of a decoded byte (R102) -/

theorem decodeLayout_congr {l : Layout} {b b' : Byte} (h : layoutWf l = true)
    (hb : b' ||| l.forced = b ||| l.forced) : decodeLayout l b' = decodeLayout l b := by
  rw [decodeLayout, decodeLayout,
    List.map_congr_left fun f hf => congrArg (BitVec.ofNat 8) (fieldValue_congr h hf hb)]

theorem decodeLayout_slot (l : Layout) (b : Byte) (k : Fin 8) :
    (decodeLayout l b)[k] = (l.fields[k.val]?.map fun f => BitVec.ofNat 8 (fieldValue f b)).getD 0#8 := by
  simp [decodeLayout, bytes8]

theorem decodeLayout_unused {l : Layout} {k : Fin 8} (b : Byte) (hk : l.fields[k.val]? = none) :
    (decodeLayout l b)[k] = 0#8 := by
  rw [decodeLayout_slot, hk]
  rfl

theorem decodeLayout_field {l : Layout} {k : Fin 8} {f : BitField} (h : layoutWf l = true) (b : Byte)
    (hk : l.fields[k.val]? = some f) : ((decodeLayout l b)[k]).toNat = fieldValue f b := by
  have hlt := fieldValue_lt_byte (fieldWf_of_mem h (List.mem_of_getElem? hk)) b
  rw [decodeLayout_slot, hk]
  exact Nat.mod_eq_of_lt hlt

/-! ## BF_DECODE (R103) -/

theorem exec_bfDecode {s : State} {ls : Byte} {l : Layout} (b : Byte) (h : layoutOf s.cfg ls = some l) :
    exec (.bfDecode ls b) s = .next (finish s { Results.zero with status := statusOk, rv := decodeLayout l b }) := by
  rw [← finish_start s (.bfDecode ls b)]
  exact exec_of_ok (by simp [opBody, bfDecodeBody, h])

/-- Settles O29: BF_DECODE ends with `decodeLayout` in RV, whose slots hold the field values, and none of them
reads a FORCED bit. -/
theorem bfDecodeGivesFieldValues : Obligations.BfDecodeGivesFieldValues := by
  intro s ls b l hl hwf
  refine ⟨_, exec_bfDecode b hl, rfl, fun k => ?_, fun b' hb => ⟨_, exec_bfDecode b' hl, ?_⟩⟩
  · rw [finish_results]
    cases hk : l.fields[k.val]? with
    | none => rw [decodeLayout_unused b hk]; rfl
    | some f =>
      rw [decodeLayout_field hwf b hk, fieldValue, fieldSlice_eq]
      cases hkind : f.kind with
      | bool => simp [resolveCode, hkind]
      | raw => simp [resolveCode, hkind]
      | enum codes fb => simp [resolveCode, hkind]
  · rw [finish_results, finish_results, decodeLayout_congr hwf hb]

end Sys2Proof.Machine
end

section
/-! PROOF. What the reciprocal converters give (R121 to R124): the quotients under the source's literals, the results
of TACH_TO_RPM and RPM_TO_TACH, and the operand bits their opcodes select. -/

namespace Sys2Proof.Machine

/-! ## The quotients under the source's literals (R121, R122) -/

/-- A 16-bit count never exceeds `TACH_MAX`, so only the lower clamp acts. -/
theorem tachToRpm_source (t : BitVec 16) :
    (tachToRpm Literals.source t).toNat = 5400000 / max t.toNat 1 := by
  have hclamp : clampNat t.toNat 1 65535 = max t.toNat 1 := Nat.min_eq_left (by have := t.isLt; omega)
  have hfits : 5400000 / max t.toNat 1 < 2 ^ 32 := (Nat.div_le_self _ _).trans_lt (by decide)
  simp only [tachToRpm, Literals.source, hclamp, BitVec.toNat_ofNat, Nat.mod_eq_of_lt hfits]

/-- The slowest speed is that of the longest count, the fastest that of count 1 (R121). -/
theorem tachToRpm_source_bounds (t : BitVec 16) :
    82 ≤ (tachToRpm Literals.source t).toNat ∧ (tachToRpm Literals.source t).toNat ≤ 5400000 := by
  rw [tachToRpm_source]
  have hpos : 0 < max t.toNat 1 := by omega
  have hmax : max t.toNat 1 ≤ 65535 := by have := t.isLt; omega
  exact ⟨(Nat.le_div_iff_mul_le hpos).2 (by omega), Nat.div_le_self _ _⟩

/-- `RPM_MIN` is 83, so the count is at most 65060 and fits its 16 bits. -/
theorem rpmToTach_source (r : BitVec 32) :
    (rpmToTach Literals.source r).toNat = 5400000 / max r.toNat 83 := by
  have hclamp : clampNat r.toNat 83 (2 ^ 32 - 1) = max r.toNat 83 :=
    Nat.min_eq_left (by have := r.isLt; omega)
  have hfits : 5400000 / max r.toNat 83 < 2 ^ 16 :=
    calc 5400000 / max r.toNat 83 ≤ 5400000 / 83 := Nat.div_le_div_left (le_max_right _ _) (by decide)
      _ < 2 ^ 16 := by decide
  have hmin : rpmMin Literals.source = 83 := rfl
  rw [rpmToTach, hmin, hclamp]
  exact Nat.mod_eq_of_lt hfits

/-! ## TACH_TO_RPM and RPM_TO_TACH (R123, R124) -/

theorem decode_tachToRpm {w : BitVec 64} (hrsv : cmdRsv w = 0x00#8) (hop : cmdOp w = 0x10#8) :
    decode w = .ok (.tachToRpm (cmdW16 w)) := by
  simp only [decode, if_pos hrsv, decodeOp, hop]

theorem decode_rpmToTach {w : BitVec 64} (hrsv : cmdRsv w = 0x00#8) (hop : cmdOp w = 0x11#8) :
    decode w = .ok (.rpmToTach (cmdW w)) := by
  simp only [decode, if_pos hrsv, decodeOp, hop]

theorem exec_tachToRpm (s : State) (t : BitVec 16) :
    exec (.tachToRpm t) s = .next (finish s (okWord (tachToRpm s.cfg.lit t))) := by
  rw [← finish_start s (.tachToRpm t)]
  exact exec_of_ok rfl

theorem exec_rpmToTach (s : State) (r : BitVec 32) :
    exec (.rpmToTach r) s = .next (finish s (okWord ((rpmToTach s.cfg.lit r).setWidth 32))) := by
  rw [← finish_start s (.rpmToTach r)]
  exact exec_of_ok rfl

/-- Completing an operation is no transaction. -/
theorem finish_noTransaction (s : State) (r : Results) : NoTransaction s (finish s r) :=
  ⟨rfl, rfl, rfl, rfl, rfl⟩

/-- Settles O33: TACH_TO_RPM completes with the quotient by the count, of which only the count 0 is clamped. -/
theorem tachToRpmResult : Obligations.TachToRpmResult := by
  refine ⟨fun w hrsv hop => decode_tachToRpm hrsv hop, fun s x hlit => ⟨_, exec_tachToRpm s x, rfl, ?_⟩⟩
  rw [hlit]
  obtain ⟨hlo, hhi⟩ := tachToRpm_source_bounds x
  exact ⟨tachToRpm_source x, hlo, hhi, rfl, finish_noTransaction s _⟩

/-- Settles O34: RPM_TO_TACH completes with the quotient by the RPM, zero-extended from its 16 bits. -/
theorem rpmToTachResult : Obligations.RpmToTachResult := by
  refine ⟨fun w hrsv hop => decode_rpmToTach hrsv hop, fun s r hlit => ⟨_, exec_rpmToTach s r, rfl, ?_, rfl⟩⟩
  have hwiden : ((rpmToTach Literals.source r).setWidth 32).toNat = (rpmToTach Literals.source r).toNat :=
    BitVec.toNat_setWidth_of_le (by decide)
  rw [hlit]
  exact hwiden.trans (rpmToTach_source r)

end Sys2Proof.Machine
end

section
/-! PROOF. The accessors of the fan and of the tach limit: FAN_SPEED_SET, MIN_RPM_GET and MIN_RPM_SET (R192, R198,
R199), and the pair transactions of a read-write pair under them (R194, R195). -/

namespace Sys2Proof.Machine

/-! ## FAN_SPEED_SET (R192) -/

theorem minByte_toNat (a b : Byte) : (minByte a b).toNat = min a.toNat b.toNat := by
  unfold minByte
  split <;> omega

theorem attr_fanSetting {c : Cfg} (h : cfgWf c = true) : attrOf c c.fanSetting = .rw :=
  attr_rw h (by simp [rwNames])

theorem decode_fanSpeedSet {w : BitVec 64} (hrsv : cmdRsv w = 0x00#8) (hop : cmdOp w = 0x41#8) :
    decode w = .ok (.fanSpeedSet (cmdA w)) := by
  simp only [decode, if_pos hrsv, decodeOp, hop]

/-- An event entered after a store leaves the stored byte. -/
theorem regAt_record_setReg (s : State) (a : Addr) (v : Byte) (e : Event) :
    regAt (record (setReg s a v) e) a = v :=
  (regAt_setReg s a v a).trans (if_pos rfl)

/-- A write of FAN_SETTING that does not fail leaves its byte, or while the table governs perhaps the old one (R46). -/
theorem memWrite_fanSetting {s : State} (v : Byte) (ha : attrOf s.cfg s.cfg.fanSetting = .rw)
    (hf : (s.env.at 0).fails = false) (hl : isLutAddr s.cfg s.cfg.fanSetting = false) :
    ∃ t, memWrite s s.cfg.fanSetting v = .ok () t ∧ BusFrame s t ∧
      (regAt t s.cfg.fanSetting = v ∨
        lutGoverns s = true ∧ regAt t s.cfg.fanSetting = regAt s s.cfg.fanSetting) := by
  cases hg : lutGoverns s with
  | false =>
    obtain ⟨t, e, ht⟩ := memWrite_ok v ha hf (.inl hg)
    exact ⟨t, e, ht.frame, .inl (by rw [ht.regs, if_pos rfl])⟩
  | true =>
    have hfr := memWrite_frame s s.cfg.fanSetting v
    rw [memWrite_governed v ha hf hl rfl hg] at hfr ⊢
    refine ⟨_, rfl, hfr, ?_⟩
    rw [regAt_record_setReg]
    cases (s.env.at 0).takesNew with
    | true => exact .inl rfl
    | false => exact .inr ⟨rfl, rfl⟩

theorem exec_fanSpeedSet_of_memWrite {s t : State} {v : Byte}
    (h : memWrite (start s (.fanSpeedSet v)) s.cfg.fanSetting (minByte v s.cfg.lit.fanSpeedMax) = .ok () t) :
    exec (.fanSpeedSet v) s = .next (finish t okNone) :=
  exec_of_ok (by rw [opBody, fanSpeedSetBody, start_cfg, h, Res.bind_ok])

theorem exec_fanSpeedSet_of_raise {s t : State} {v : Byte} {f : FaultCode} {x : Word32}
    (h : memWrite (start s (.fanSpeedSet v)) s.cfg.fanSetting (minByte v s.cfg.lit.fanSpeedMax) = .raise f x t) :
    exec (.fanSpeedSet v) s = .next (takeFault t f x) :=
  exec_of_raise (by rw [opBody, fanSpeedSetBody, start_cfg, h, Res.bind_raise])

/-- FAN_SPEED_SET whose write does not fail ends with STATUS OK, whether the table governs or not. -/
theorem exec_fanSpeedSet_ok {s : State} (v : Byte) (hlit : sourceLiterals s) (hwf : cfgWf s.cfg = true)
    (hl : isLutAddr s.cfg s.cfg.fanSetting = false) (hok : answersOk s 1) :
    ∃ t, exec (.fanSpeedSet v) s = .next t ∧ t.results = Results.zero ∧ t.faults = s.faults ∧
      ((regAt t s.cfg.fanSetting).toNat = min v.toNat 32 ∨
        lutGoverns s = true ∧ regAt t s.cfg.fanSetting = regAt s s.cfg.fanSetting) := by
  obtain ⟨t, e, hfr, hheld⟩ := memWrite_fanSetting (s := start s (.fanSpeedSet v))
    (minByte v s.cfg.lit.fanSpeedMax) (attr_fanSetting hwf) (answersOk_zero hok) hl
  refine ⟨_, exec_fanSpeedSet_of_memWrite e, rfl, hfr.faults, hheld.imp_left fun hnew => ?_⟩
  have hmax : s.cfg.lit.fanSpeedMax.toNat = 32 := by rw [hlit]; rfl
  rw [← hmax, ← minByte_toNat]
  exact congrArg BitVec.toNat hnew

/-- FAN_SPEED_SET whose write fails ends with BUS_ERROR and FAN_SETTING's address. -/
theorem exec_fanSpeedSet_fails {s : State} (v : Byte) (hwf : cfgWf s.cfg = true) (hf : failsAfter s 0) :
    ∃ t, exec (.fanSpeedSet v) s = .next t ∧
      t.results = { Results.zero with status := 0x81#8, r32 := s.cfg.fanSetting.setWidth 32 } ∧
      t.faults = addFault s.faults .busError := by
  obtain ⟨t, u, e, ht⟩ := memWrite_busError (s := start s (.fanSpeedSet v))
    (minByte v s.cfg.lit.fanSpeedMax) (attr_fanSetting hwf) hf
  exact ⟨_, exec_fanSpeedSet_of_raise e, rfl, congrArg (addFault · .busError) ht.frame.faults⟩

/-- Settles O51: the write of FAN_SETTING stores min(speed, 32), and keeps the old byte only while the table governs. -/
theorem fanSpeedSetResult : Obligations.FanSpeedSetResult := by
  refine ⟨fun w hrsv hop => decode_fanSpeedSet hrsv hop, fun s v hlit hwf hl =>
    ⟨fun hok hg => ?_, fun hok _ => ?_, exec_fanSpeedSet_fails v hwf⟩⟩
  · obtain ⟨t, e, hres, hfaults, hnew | ⟨hg', -⟩⟩ := exec_fanSpeedSet_ok v hlit hwf hl hok
    · exact ⟨t, e, hres, hfaults, hnew⟩
    · rw [hg] at hg'
      cases hg'
  · obtain ⟨t, e, hres, hfaults, hheld⟩ := exec_fanSpeedSet_ok v hlit hwf hl hok
    exact ⟨t, e, hres, hfaults, hheld.symm.imp_left And.right⟩

/-! ## Reading a read-write pair (R194) -/

/-- The two addresses of a pair, in `PAIR_ORDER`. -/
def pairAddrs (p : PairCfg) : List Addr := [firstAddr p, secondAddr p]

theorem mem_pairAddrs {p : PairCfg} {a : Addr} : a ∈ pairAddrs p ↔ a = p.hi ∨ a = p.lo := by
  simp only [pairAddrs, List.mem_cons, List.not_mem_nil, or_false, firstAddr, secondAddr]
  cases p.order
  · exact Iff.rfl
  · exact or_comm

theorem attr_tachLimit {c : Cfg} (h : cfgWf c = true) {a : Addr} (ha : a ∈ pairAddrs c.tachLimit) :
    attrOf c a = .rw := by
  rcases mem_pairAddrs.1 ha with rfl | rfl
  all_goals exact attr_rw h (by simp [rwNames])

/-- `ReadPair` reads the pair's two addresses and gives the bytes as (hi, lo). -/
theorem readPair_eq_readList (s : State) (p : Pair) :
    readPair s p = (readList s (pairAddrs (pairCfg s.cfg p))).bind fun vs t =>
      .ok (if (pairCfg s.cfg p).order = .hiFirst then (vs.getD 0 0#8, vs.getD 1 0#8)
        else (vs.getD 1 0#8, vs.getD 0 0#8)) t := by
  rw [readPair_eq]
  simp only [pairAddrs, readList, Res.bind_assoc, Res.bind_ok]
  rfl

section
variable {s : State} {p : Pair} (ha : ∀ a, a ∈ pairAddrs (pairCfg s.cfg p) → attrOf s.cfg a = .rw)
  (hp : PairAttrs s.cfg) (hi : LatchInv s)
include ha hp hi

/-- Reading an RW pair, neither read failing, gives the two bytes held, read in `PAIR_ORDER`. -/
theorem readPair_rw (hok : answersOk s 2) :
    ∃ t, readPair s p = .ok (regAt s (pairCfg s.cfg p).hi, regAt s (pairCfg s.cfg p).lo) t ∧ BusFrame s t ∧
      t.history = s.history ++ (pairAddrs (pairCfg s.cfg p)).map fun a => .read a (regAt s a) := by
  obtain ⟨t, e, hfr, -, hh⟩ := readList_rw _ s ha hp hi hok
  refine ⟨t, ?_, hfr, hh⟩
  rw [readPair_eq_readList, e, Res.bind_ok, pairAddrs, firstAddr, secondAddr]
  cases (pairCfg s.cfg p).order <;> rfl

/-- Reading an RW pair of which the k-th read fails: BUS_ERROR with its address, and nothing read after it. -/
theorem readPair_rw_fails {k : Nat} {a : Addr} (hk : (pairAddrs (pairCfg s.cfg p))[k]? = some a)
    (hf : failsAfter s k) :
    ∃ t, readPair s p = .raise .busError (a.setWidth 32) t ∧ t.history = s.history ++
      (((pairAddrs (pairCfg s.cfg p)).take k).map (fun a => .read a (regAt s a)) ++ [.readFailed a]) := by
  obtain ⟨t, e, -, -, hh⟩ := readList_fails _ s k a ha hp hi hk hf
  exact ⟨t, by rw [readPair_eq_readList, e, Res.bind_raise], by rw [hh, List.append_assoc]⟩

end

/-! ## MIN_RPM_GET (R198) -/

theorem decode_minRpmGet {w : BitVec 64} (hrsv : cmdRsv w = 0x00#8) (hop : cmdOp w = 0x45#8) :
    decode w = .ok .minRpmGet := by
  simp only [decode, if_pos hrsv, decodeOp, hop]

theorem pairValue_toNat (hi lo : Byte) : (pairValue hi lo).toNat = hi.toNat * 256 + lo.toNat :=
  toNat_append_eq hi lo

/-- The conversion of a pair's count under the source's literals, as a 32-bit word (R121). -/
theorem tachToRpm_pairValue (hi lo : Byte) : tachToRpm Literals.source (pairValue hi lo) =
    BitVec.ofNat 32 (5400000 / max (hi.toNat * 256 + lo.toNat) 1) := by
  rw [← pairValue_toNat, ← tachToRpm_source, BitVec.ofNat_toNat, BitVec.setWidth_eq]

/-- A started operation holds the latches and registers it is issued with. -/
theorem LatchInv.start {s : State} (h : LatchInv s) (i : Instr) : LatchInv (start s i) :=
  ⟨h.latching, h.coherent⟩

theorem exec_minRpmGet_of_readPair {s t : State} {x : Byte × Byte}
    (h : readPair (start s .minRpmGet) .tachLimit = .ok x t) :
    exec .minRpmGet s = .next (finish t (okWord (tachToRpm t.cfg.lit (pairValue x.1 x.2)))) :=
  exec_of_ok (by rw [opBody, minRpmGetBody, h, Res.bind_ok])

theorem exec_minRpmGet_of_raise {s t : State} {f : FaultCode} {x : Word32}
    (h : readPair (start s .minRpmGet) .tachLimit = .raise f x t) :
    exec .minRpmGet s = .next (takeFault t f x) :=
  exec_of_raise (by rw [opBody, minRpmGetBody, h, Res.bind_raise])

/-- Settles O55: MIN_RPM_GET converts the bytes the TACH_LIMIT pair holds, or takes the fault of the read that
fails. -/
theorem minRpmGetConvertsPair : Obligations.MinRpmGetConvertsPair := by
  refine ⟨fun w hrsv hop => decode_minRpmGet hrsv hop, fun s hlit hwf hi => ?_⟩
  have ha : ∀ a, a ∈ pairAddrs s.cfg.tachLimit → attrOf s.cfg a = .rw := fun a => attr_tachLimit hwf
  have hp := pairAttrs_of_wf hwf
  have hi' := hi.start .minRpmGet
  refine ⟨fun hok => ?_, fun hf => ?_, fun hf => ?_⟩
  · obtain ⟨t, e, hfr, hh⟩ := readPair_rw (s := start s .minRpmGet) (p := .tachLimit) ha hp hi' hok
    refine ⟨_, exec_minRpmGet_of_readPair e, ?_, hh⟩
    rw [finish_results, hfr.cfg, start_cfg, hlit, tachToRpm_pairValue]
    rfl
  · obtain ⟨t, e, hh⟩ := readPair_rw_fails (s := start s .minRpmGet) (p := .tachLimit) ha hp hi' rfl hf
    exact ⟨_, exec_minRpmGet_of_raise e, rfl, hh⟩
  · obtain ⟨t, e, hh⟩ := readPair_rw_fails (s := start s .minRpmGet) (p := .tachLimit) ha hp hi' rfl hf
    exact ⟨_, exec_minRpmGet_of_raise e, rfl, hh⟩

/-! ## Two writes of plain registers -/

/-- A register whose write neither the table nor a trigger touches: RW, no table register, and neither FAN_SETTING
nor ONE_SHOT (R43, R46, R48). -/
structure PlainReg (c : Cfg) (a : Addr) : Prop where
  rw : attrOf c a = .rw
  notLut : isLutAddr c a = false
  notFanSetting : a ≠ c.fanSetting
  notOneShot : a ≠ c.oneShot

/-- A write of such a register that does not fail stores its byte, whether the table governs or not. -/
theorem memWrite_plainReg {s : State} {a : Addr} (v : Byte) (ha : PlainReg s.cfg a)
    (hf : (s.env.at 0).fails = false) :
    ∃ t, memWrite s a v = .ok () t ∧ WroteTo s t a v ∧ t.history = s.history ++ [.write a v .ok] := by
  obtain ⟨t, e, ht⟩ := memWrite_ok v ha.rw hf (.inr ⟨ha.notLut, ha.notFanSetting⟩)
  exact ⟨t, e, ht, by rw [ht.history, acceptedAs, if_neg ha.notOneShot]⟩

section
variable {s : State} {a b : Addr} (x y : Byte) (ha : PlainReg s.cfg a) (hne : a ≠ b)
include ha hne

/-- Neither write fails: both bytes are stored, in order. -/
theorem writeList_two_ok (hb : PlainReg s.cfg b) (hok : answersOk s 2) :
    ∃ t, writeList s [(a, x), (b, y)] = .ok () t ∧ regAt t a = x ∧ regAt t b = y ∧
      t.history = s.history ++ [.write a x .ok, .write b y .ok] := by
  obtain ⟨t, e, ht, hh⟩ := memWrite_plainReg x ha (answersOk_zero hok)
  obtain ⟨u, e', hu, hh'⟩ := memWrite_plainReg (s := t) y (by rw [ht.frame.cfg]; exact hb)
    (answersOk_zero (answersOk_pop hok ht.env))
  refine ⟨u, by simp only [writeList, e, e', Res.bind_ok], ?_, by rw [hu.regs, if_pos rfl], ?_⟩
  · rw [hu.regs, if_neg hne.symm, ht.regs, if_pos rfl]
  · rw [hh', hh, List.append_assoc]
    rfl

/-- The first write fails: BUS_ERROR with its address, and the second is not performed. -/
theorem writeList_two_fails_first (hf : failsAfter s 0) :
    ∃ t, writeList s [(a, x), (b, y)] = .raise .busError (a.setWidth 32) t ∧ regAt t b = regAt s b ∧
      t.history = s.history ++ [.write a x .failed] := by
  obtain ⟨t, u, e, ht⟩ := memWrite_busError x ha.rw hf
  exact ⟨t, by rw [writeList, e, Res.bind_raise], by rw [ht.regs, if_neg hne], ht.history⟩

/-- The second write fails: BUS_ERROR with its address, the first byte stored, the second old or new (R52). -/
theorem writeList_two_fails_second (hb : PlainReg s.cfg b) (hf : failsAfter s 1) :
    ∃ t, writeList s [(a, x), (b, y)] = .raise .busError (b.setWidth 32) t ∧ regAt t a = x ∧
      (regAt t b = regAt s b ∨ regAt t b = y) ∧
      t.history = s.history ++ [.write a x .ok, .write b y .failed] := by
  obtain ⟨t, e, ht, hh⟩ := memWrite_plainReg x ha (answersOk_zero hf.1)
  obtain ⟨u, v, e', hu⟩ := memWrite_busError (s := t) y (by rw [ht.frame.cfg]; exact hb.rw)
    (failsAfter_pop hf ht.env)
  refine ⟨u, by simp only [writeList, e, e', Res.bind_ok, Res.bind_raise], ?_, ?_, ?_⟩
  · rw [hu.regs, if_neg hne.symm, ht.regs, if_pos rfl]
  · have hold : regAt t b = regAt s b := by rw [ht.regs, if_neg hne]
    rw [hu.regs, if_pos rfl, ← hold]
    exact hu.oldOrNew.symm
  · rw [hu.history, hh, List.append_assoc]
    rfl

end

/-! ## Writing the TACH_LIMIT pair (R195) -/

theorem tachLimit_plainReg {c : Cfg} (hwf : cfgWf c = true) (hd : namesDistinct c) {a : Addr}
    (ha : a ∈ pairAddrs c.tachLimit) : PlainReg c a := by
  rcases mem_pairAddrs.1 ha with rfl | rfl
  all_goals exact ⟨attr_rw hwf (by simp [rwNames]), otherNames_notLut hd (by simp [otherNames]),
    (storedRegs_ne hd (by simp)).1, oneShot_ne hd (by simp)⟩

/-- The byte `WritePair` writes first, in `PAIR_ORDER`. -/
def firstByte (p : PairCfg) (hi lo : Byte) : Byte := if p.order = .hiFirst then hi else lo

/-- The byte `WritePair` writes second, in `PAIR_ORDER`. -/
def secondByte (p : PairCfg) (hi lo : Byte) : Byte := if p.order = .hiFirst then lo else hi

theorem writePair_eq_writeList (s : State) (p : Pair) (hi lo : Byte) :
    writePair s p hi lo = writeList s [(firstAddr (pairCfg s.cfg p), firstByte (pairCfg s.cfg p) hi lo),
      (secondAddr (pairCfg s.cfg p), secondByte (pairCfg s.cfg p) hi lo)] := by
  rw [writePair_eq, pairWrites, firstAddr, secondAddr, firstByte, secondByte]
  cases (pairCfg s.cfg p).order <;> rfl

/-- What the two writes leave in first and second place is what the pair holds as its high and low byte. -/
theorem pair_holds {p : PairCfg} {f : Addr → Byte} {hi lo : Byte} (hfirst : f (firstAddr p) = firstByte p hi lo)
    (hsecond : f (secondAddr p) = secondByte p hi lo) : f p.hi = hi ∧ f p.lo = lo := by
  revert hfirst hsecond
  unfold firstAddr secondAddr firstByte secondByte
  cases p.order
  · exact fun hfirst hsecond => ⟨hfirst, hsecond⟩
  · exact fun hfirst hsecond => ⟨hsecond, hfirst⟩

/-! ## MIN_RPM_SET (R199) -/

theorem decode_minRpmSet {w : BitVec 64} (hrsv : cmdRsv w = 0x00#8) (hop : cmdOp w = 0x46#8) :
    decode w = .ok (.minRpmSet (cmdW w)) := by
  simp only [decode, if_pos hrsv, decodeOp, hop]

theorem highByte_eq (t : BitVec 16) : highByte t = BitVec.ofNat 8 (t.toNat / 256) := by
  rw [highByte, BitVec.extractLsb', Nat.shiftRight_eq_div_pow]

theorem lowByte_eq (t : BitVec 16) : lowByte t = BitVec.ofNat 8 (t.toNat % 256) :=
  BitVec.eq_of_toNat_eq (by simp [lowByte])

/-- The writes of MIN_RPM_SET: the two bytes of the converted count, to the TACH_LIMIT pair (R122, R199). -/
def minRpmWrites (c : Cfg) (r : Word32) : List (BitVec 8 × BitVec 8) :=
  let hi := BitVec.ofNat 8 (5400000 / max r.toNat 83 / 256)
  let lo := BitVec.ofNat 8 (5400000 / max r.toNat 83 % 256)
  [(firstAddr c.tachLimit, firstByte c.tachLimit hi lo), (secondAddr c.tachLimit, secondByte c.tachLimit hi lo)]

theorem minRpmSetBody_eq {s : State} (r : Word32) (hlit : sourceLiterals s) :
    minRpmSetBody r s = (writeList s (minRpmWrites s.cfg r)).bind fun _ t => .ok okNone t := by
  rw [minRpmSetBody, hlit, highByte_eq, lowByte_eq, rpmToTach_source, writePair_eq_writeList]
  rfl

theorem exec_minRpmSet_of_writeList {s t : State} {r : Word32} (hlit : sourceLiterals s)
    (h : writeList (start s (.minRpmSet r)) (minRpmWrites s.cfg r) = .ok () t) :
    exec (.minRpmSet r) s = .next (finish t okNone) :=
  exec_of_ok (by rw [opBody, minRpmSetBody_eq (s := start s _) r hlit, start_cfg, h, Res.bind_ok])

theorem exec_minRpmSet_of_raise {s t : State} {r : Word32} {f : FaultCode} {x : Word32} (hlit : sourceLiterals s)
    (h : writeList (start s (.minRpmSet r)) (minRpmWrites s.cfg r) = .raise f x t) :
    exec (.minRpmSet r) s = .next (takeFault t f x) :=
  exec_of_raise (by rw [opBody, minRpmSetBody_eq (s := start s _) r hlit, start_cfg, h, Res.bind_raise])

/-- Settles O56: MIN_RPM_SET writes the two bytes of the converted count, or takes the fault of the write that
fails. -/
theorem minRpmSetWritesCount : Obligations.MinRpmSetWritesCount := by
  refine ⟨fun w hrsv hop => decode_minRpmSet hrsv hop, fun s r hlit hwf hd => ?_⟩
  have h1 : PlainReg s.cfg (firstAddr s.cfg.tachLimit) := tachLimit_plainReg hwf hd (by simp [pairAddrs])
  have h2 : PlainReg s.cfg (secondAddr s.cfg.tachLimit) := tachLimit_plainReg hwf hd (by simp [pairAddrs])
  have hne : firstAddr s.cfg.tachLimit ≠ secondAddr s.cfg.tachLimit := firstAddr_ne_second hd .tachLimit .tachLimit
  refine ⟨fun hok => ?_, fun hf => ?_, fun hf => ?_⟩
  · obtain ⟨t, e, hfirst, hsecond, hh⟩ := writeList_two_ok (s := start s (.minRpmSet r)) _ _ h1 hne h2 hok
    obtain ⟨hhi, hlo⟩ := pair_holds hfirst hsecond
    exact ⟨_, exec_minRpmSet_of_writeList hlit e, rfl, hhi, hlo, hh⟩
  · obtain ⟨t, e, hkept, hh⟩ := writeList_two_fails_first (s := start s (.minRpmSet r)) _ _ h1 hne hf
    exact ⟨_, exec_minRpmSet_of_raise hlit e, rfl, hkept, hh⟩
  · obtain ⟨t, e, hfirst, hsecond, hh⟩ :=
      writeList_two_fails_second (s := start s (.minRpmSet r)) _ _ h1 hne h2 hf
    exact ⟨_, exec_minRpmSet_of_raise hlit e, rfl, hfirst, hsecond, hh⟩

end Sys2Proof.Machine
end

section
/-! PROOF. The register operations: a single read or write that fails (R42, R43, R52, R220, R221), and VALIDATE's count
of the registers that differ from their defaults (R223). -/

namespace Sys2Proof.Machine

/-! ## A single read that fails (R42, R52) -/

/-- A failed read clears the latches of the pairs that hold its address (R45(d)). -/
theorem memRead_busError_latches {s : State} {a : Addr} (ha : attrOf s.cfg a ≠ .unmapped) (hf : failsAfter s 0)
    {p : Pair} (hp : inPair (pairCfg s.cfg p) a = true) : latchOf (memRead s a).state.latches p = none := by
  rw [memRead_fails ha hf.2, Res.state_raise, record_latches, touch_latches, latchOf_clearLatches]
  exact if_pos hp

/-- The operations whose body is one read of a: REG_READ, LUT_HYST_READ and FAN_SPEED_GET (R174, R191, R220). -/
theorem opBody_eq_regReadBody {s : State} {a : Addr} {i : Instr}
    (hi : i = .regRead a ∨ (i = .lutHystRead ∧ a = s.cfg.lutHyst) ∨ (i = .fanSpeedGet ∧ a = s.cfg.fanSetting)) :
    opBody i (start s i) = regReadBody a (start s i) := by
  obtain rfl | ⟨rfl, rfl⟩ | ⟨rfl, rfl⟩ := hi
  all_goals rfl

/-- Settles O24: the three operations have one body, a read of the address, and take the fault of that read. -/
theorem failedReadReportsBusError : Obligations.FailedReadReportsBusError := by
  intro s a ha hf i hi
  obtain ⟨t, e, ht⟩ := memRead_busError (s := start s i) ha hf
  have hclear := fun p => memRead_busError_latches (s := start s i) (p := p) ha hf
  rw [e] at hclear
  have hbody : opBody i (start s i) = .raise .busError (a.setWidth 32) t := by
    rw [opBody_eq_regReadBody hi, regReadBody, e, Res.bind_raise]
  exact ⟨_, exec_of_raise hbody, rfl, ht.mem, ht.history, congrArg (addFault · .busError) ht.frame.faults, hclear⟩

/-! ## A single write that fails (R43, R52) -/

/-- The operations whose body is one write of b to a: REG_WRITE, LUT_HYST_WRITE, FAN_SPEED_SET and an accepted
INT_LIMIT_SET (R175, R192, R193, R221). -/
theorem opBody_eq_regWriteBody {s : State} {a b : Addr} {i : Instr}
    (hi : i = .regWrite a b ∨ (i = .lutHystWrite b ∧ a = s.cfg.lutHyst) ∨
      (∃ v, i = .fanSpeedSet v ∧ a = s.cfg.fanSetting ∧ b = minByte v s.cfg.lit.fanSpeedMax) ∨
      (∃ v, i = .intLimitSet v ∧ a = s.cfg.intHighLimit ∧ intLimitAccepts s.cfg.lit v = true ∧
        b = floorByte v)) :
    opBody i (start s i) = regWriteBody a b (start s i) := by
  obtain rfl | ⟨rfl, rfl⟩ | ⟨v, rfl, rfl, rfl⟩ | ⟨v, rfl, rfl, haccepted, rfl⟩ := hi
  · rfl
  · rfl
  · rfl
  · rw [opBody, intLimitSetBody, start_cfg, if_pos haccepted]
    rfl

/-- Settles O27: the four operations have one body, a write of the byte, and take the fault of that write. -/
theorem failedWriteLeavesOldOrNew : Obligations.FailedWriteLeavesOldOrNew := by
  intro s a b ha hf i hi
  obtain ⟨t, u, e, ht⟩ := memWrite_busError (s := start s i) b ha hf
  have hbody : opBody i (start s i) = .raise .busError (a.setWidth 32) t := by
    rw [opBody_eq_regWriteBody hi, regWriteBody, e, Res.bind_raise]
  have hwritten : regAt t a = u := (ht.regs a).trans (if_pos rfl)
  have hothers : ∀ x, x ≠ a → regAt t x = regAt s x := fun x hx => (ht.regs x).trans (if_neg hx.symm)
  have holdOrNew : regAt t a = regAt s a ∨ regAt t a = b := by
    rw [hwritten]
    exact ht.oldOrNew.symm
  exact ⟨_, exec_of_raise hbody, rfl, holdOrNew, hothers, ht.history,
    congrArg (addFault · .busError) ht.frame.faults⟩

/-! ## VALIDATE (R223) -/

theorem decode_validate {w : BitVec 64} (hrsv : cmdRsv w = 0x00#8) (hop : cmdOp w = 0x53#8) :
    decode w = .ok .validate := by
  simp only [decode, if_pos hrsv, decodeOp, hop]

/-- Comparing the defaults with the bytes a register file holds at their addresses counts the entries that differ. -/
theorem mismatches_map (defaults : List (BitVec 8 × BitVec 8)) (f : Addr → Byte) :
    mismatches defaults ((defaults.map Prod.fst).map f) = defaults.countP fun e => f e.1 != e.2 := by
  induction defaults with
  | nil => rfl
  | cons e es ih =>
    rw [mismatches] at ih ⊢
    rw [List.map_cons, List.map_cons, List.zip_cons_cons, List.countP_cons, List.countP_cons, ih, bne_comm]

theorem exec_validate_of_readList {s t : State} {vs : List Byte}
    (h : readList (start s .validate) (s.cfg.defaults.map Prod.fst) = .ok vs t) :
    exec .validate s = .next (finish t (countResults (mismatches t.cfg.defaults vs))) :=
  exec_of_ok (by rw [opBody, validateBody, start_cfg, h, Res.bind_ok])

theorem exec_validate_of_raise {s t : State} {f : FaultCode} {x : Word32}
    (h : readList (start s .validate) (s.cfg.defaults.map Prod.fst) = .raise f x t) :
    exec .validate s = .next (takeFault t f x) :=
  exec_of_raise (by rw [opBody, validateBody, start_cfg, h, Res.bind_raise])

/-- Settles O59: VALIDATE reads the bytes held at the listed addresses and counts those that differ, or takes the
fault of the read that fails. -/
theorem validateCountsMismatches : Obligations.ValidateCountsMismatches := by
  refine ⟨fun w hrsv hop => decode_validate hrsv hop, fun s hwf hl => ?_⟩
  have hrw : ∀ a, a ∈ s.cfg.defaults.map Prod.fst → attrOf s.cfg a = .rw := by
    rintro a ha
    obtain ⟨e, he, rfl⟩ := List.mem_map.1 ha
    exact attr_default hwf he
  have hp := pairAttrs_of_wf hwf
  have hl' := hl.start .validate
  refine ⟨fun hok => ?_, fun k e hk hf => ?_⟩
  · obtain ⟨t, e, hfr, -, hh⟩ := readList_rw _ (start s .validate) hrw hp hl' (by rwa [List.length_map])
    refine ⟨_, exec_validate_of_readList e, ?_, ?_⟩
    · rw [hfr.cfg, start_cfg, mismatches_map]
      rfl
    · rw [finish_history, hh, List.map_map]
      rfl
  · obtain ⟨t, e', -, -, hh⟩ := readList_fails _ (start s .validate) k e.1 hrw hp hl'
      (by rw [List.getElem?_map, hk, Option.map_some]) hf
    refine ⟨_, exec_validate_of_raise e', rfl, ?_⟩
    rw [takeFault_history, hh, ← List.map_take, List.map_map]
    rfl

end Sys2Proof.Machine
end

section
/-! PROOF. The command format read back (R60, R62 to R65): the fields a word's decoding reads, and the fields the
encoding of an operation has. -/

namespace Sys2Proof.Machine

/-! ## The fields of a word -/

@[simp] theorem cmdOp_and (w m : BitVec 64) : cmdOp (w &&& m) = cmdOp w &&& cmdOp m := BitVec.extractLsb'_and
@[simp] theorem cmdA_and (w m : BitVec 64) : cmdA (w &&& m) = cmdA w &&& cmdA m := BitVec.extractLsb'_and
@[simp] theorem cmdB_and (w m : BitVec 64) : cmdB (w &&& m) = cmdB w &&& cmdB m := BitVec.extractLsb'_and
@[simp] theorem cmdRsv_and (w m : BitVec 64) : cmdRsv (w &&& m) = cmdRsv w &&& cmdRsv m := BitVec.extractLsb'_and
@[simp] theorem cmdW_and (w m : BitVec 64) : cmdW (w &&& m) = cmdW w &&& cmdW m := BitVec.extractLsb'_and

@[simp] theorem cmdOp_ofNat (n : Nat) : cmdOp (BitVec.ofNat 64 n) = BitVec.ofNat 8 (n % 2 ^ 64 / 2 ^ 0) := by
  rw [cmdOp, BitVec.extractLsb', BitVec.toNat_ofNat, Nat.shiftRight_eq_div_pow]
@[simp] theorem cmdA_ofNat (n : Nat) : cmdA (BitVec.ofNat 64 n) = BitVec.ofNat 8 (n % 2 ^ 64 / 2 ^ 8) := by
  rw [cmdA, BitVec.extractLsb', BitVec.toNat_ofNat, Nat.shiftRight_eq_div_pow]
@[simp] theorem cmdB_ofNat (n : Nat) : cmdB (BitVec.ofNat 64 n) = BitVec.ofNat 8 (n % 2 ^ 64 / 2 ^ 16) := by
  rw [cmdB, BitVec.extractLsb', BitVec.toNat_ofNat, Nat.shiftRight_eq_div_pow]
@[simp] theorem cmdRsv_ofNat (n : Nat) : cmdRsv (BitVec.ofNat 64 n) = BitVec.ofNat 8 (n % 2 ^ 64 / 2 ^ 24) := by
  rw [cmdRsv, BitVec.extractLsb', BitVec.toNat_ofNat, Nat.shiftRight_eq_div_pow]
@[simp] theorem cmdW_ofNat (n : Nat) : cmdW (BitVec.ofNat 64 n) = BitVec.ofNat 32 (n % 2 ^ 64 / 2 ^ 32) := by
  rw [cmdW, BitVec.extractLsb', BitVec.toNat_ofNat, Nat.shiftRight_eq_div_pow]

/-- A word is a packed one exactly when it has its fields, and RSV = 0x00 (R60). -/
theorem eq_pack_iff (w : BitVec 64) (op a b : BitVec 8) (x : BitVec 32) :
    w = pack op a b x ↔ cmdRsv w = 0x00#8 ∧ cmdOp w = op ∧ cmdA w = a ∧ cmdB w = b ∧ cmdW w = x := by
  constructor
  · rintro rfl
    simp
  · rintro ⟨hrsv, rfl, rfl, rfl, rfl⟩
    exact (pack_fields w hrsv).symm

/-- W masked to its low half is `CMD[47:32]`, zero-extended (R62). -/
theorem cmdW_low_half (w : BitVec 64) : cmdW w &&& 0x0000FFFF#32 = 0#16 ++ cmdW16 w := by
  apply BitVec.eq_of_toNat_eq
  rw [cmdW16_eq, toNat_append_eq, BitVec.toNat_and, BitVec.toNat_setWidth]
  simpa using Nat.and_two_pow_sub_one_eq_mod (cmdW w).toNat 16

theorem zeroExtend_inj (t u : BitVec 16) : (0#16 ++ t : BitVec 32) = 0#16 ++ u ↔ t = u := by
  rw [← BitVec.toNat_inj, ← BitVec.toNat_inj, toNat_append_eq, toNat_append_eq]
  simp

/-! ## Decoding, as a condition on the fields -/

/-- The operand fields a decoding to an operation reads (R62, R63). -/
def operandsRead (w : BitVec 64) : Instr → Prop
  | .bfDecode ls b => cmdA w = ls ∧ cmdB w = b
  | .bfEncode ls => cmdA w = ls
  | .tachToRpm t => cmdW16 w = t
  | .rpmToTach r => cmdW w = r
  | .tempDecode msb lsb => cmdA w = msb ∧ cmdB w = lsb
  | .tempEncode v => cmdW w = v
  | .ltempDecode whole frac => cmdA w = whole ∧ cmdB w = frac
  | .ltempEncode v => cmdW w = v
  | .lutRead => True
  | .lutWrite => True
  | .lutHystRead => True
  | .lutHystWrite b => cmdA w = b
  | .fanSpeedGet => True
  | .fanSpeedSet speed => cmdA w = speed
  | .intLimitSet v => cmdW w = v
  | .extTempRead => True
  | .fanRpmGet => True
  | .minRpmGet => True
  | .minRpmSet r => cmdW w = r
  | .regRead a => cmdA w = a
  | .regWrite a b => cmdA w = a ∧ cmdB w = b
  | .resetDefaults => True
  | .validate => True

/-- The selected operation's opcode and operands are the word's. -/
theorem decodeOp_eq_ok_iff (w : BitVec 64) (i : Instr) :
    decodeOp w = .ok i ↔ cmdOp w = i.opcode ∧ operandsRead w i := by
  constructor
  · intro h
    unfold decodeOp at h
    split at h
    case h_24 =>
      exfalso
      split at h
      · cases h
      · split at h <;> cases h
    all_goals
      next hop =>
        cases h
        simp [Instr.opcode, operandsRead, hop]
  · rintro ⟨hop, hargs⟩
    cases i <;> simp_all [decodeOp, Instr.opcode, operandsRead]

theorem decode_eq_ok_iff (w : BitVec 64) (i : Instr) :
    decode w = .ok i ↔ cmdRsv w = 0x00#8 ∧ cmdOp w = i.opcode ∧ operandsRead w i := by
  rw [← decodeOp_eq_ok_iff, decode]
  split
  next hrsv => simp [hrsv]
  next hrsv => simp [hrsv]

/-- A word masked to the bits an operation uses is its encoding exactly when the word has its opcode and operands. -/
theorem masked_eq_encode_iff (w : BitVec 64) (i : Instr) :
    w &&& usedMask i = encode i ↔ cmdRsv w = 0x00#8 ∧ cmdOp w = i.opcode ∧ operandsRead w i := by
  have all8 : ∀ x : BitVec 8, x &&& 255#8 = x := fun x => BitVec.and_allOnes
  have all32 : ∀ x : BitVec 32, x &&& 4294967295#32 = x := fun x => BitVec.and_allOnes
  cases i <;>
    simp [encode, usedMask, eq_pack_iff, Instr.opcode, operandsRead, all8, all32, cmdW_low_half, zeroExtend_inj]

/-! ## The statements -/

/-- Settles O1: the encoding has RSV = 0x00, its operation's opcode and its operands, which is what decoding reads. -/
theorem decodeOfEncode : Obligations.DecodeOfEncode := by
  intro i
  rw [decode_eq_ok_iff]
  cases i <;> simp [encode, Instr.opcode, operandsRead]

/-- Settles O2: both sides say that the word has RSV = 0x00, the operation's opcode and its operands. -/
theorem decodeReadsExactlyTheUsedBits : Obligations.DecodeReadsExactlyTheUsedBits := fun w i =>
  (decode_eq_ok_iff w i).trans (masked_eq_encode_iff w i).symm

/-- Settles O3, by evaluating the decoder at the nine words. -/
theorem specWordsDecode : Obligations.SpecWordsDecode := by
  unfold Obligations.SpecWordsDecode
  decide

end Sys2Proof.Machine
end

section
/-! PROOF. Steps of the machine (R23, R27, R64, R256, R270): what a step from one state to the next can have done,
the host's moves, illegal commands, and the state after reset. -/

namespace Sys2Proof.Machine

/-! ## What a step does -/

theorem step_of_move {s : State} {m : HostMove} {ms : List HostMove} (hwf : cfgWf s.cfg = true)
    (hidle : s.seq = .idle) (hm : s.moves = m :: ms) : step s = hostMove m { s with moves := ms } := by
  simp [step, hwf, hidle, hm]

theorem hostMove_issue_of_decode {s : State} {w : Command} {i : Instr} (h : decode w = .ok i) :
    hostMove (.issue w) s = exec i { s with cmd := w } := by
  simp only [hostMove, issue, h]
  rfl

theorem hostMove_issue_of_error {s : State} {w : Command} {e : DecodeError} (h : decode w = .error e) :
    hostMove (.issue w) s = .next (illegalCommand { s with cmd := w }) := by
  simp only [hostMove, issue, h]
  rfl

/-- The host or nobody moved: no operation ran, and only ports of the host's side may differ. -/
def PortMove (s t : State) : Prop :=
  ∃ ov obuf moves received, t = { s with ov := ov, obuf := obuf, moves := moves, received := received }

/-- The state an issued command finds: the move is taken, and the word is in CMD. -/
def issued (s : State) (ms : List HostMove) (w : Command) : State := { s with moves := ms, cmd := w }

/-- What a move that has a next state did: it touched ports alone, ran an operation, or was an illegal command. -/
theorem hostMove_cases {s t : State} {m : HostMove} {ms : List HostMove}
    (h : hostMove m { s with moves := ms } = .next t) :
    PortMove s t ∨ ∃ w, (∃ i, exec i (issued s ms w) = .next t) ∨ t = illegalCommand (issued s ms w) := by
  cases m with
  | setOv v =>
    cases h
    exact .inl ⟨v, s.obuf, ms, s.received, rfl⟩
  | setObuf v =>
    cases h
    exact .inl ⟨s.ov, v, ms, s.received, rfl⟩
  | read p =>
    simp only [hostMove, hostRead] at h
    split at h
    · cases h
      exact .inl ⟨s.ov, s.obuf, ms, _, rfl⟩
    · cases h
  | issue w =>
    cases hd : decode w with
    | ok i =>
      rw [hostMove_issue_of_decode hd] at h
      exact .inr ⟨w, .inl ⟨i, h⟩⟩
    | error e =>
      rw [hostMove_issue_of_error hd] at h
      cases h
      exact .inr ⟨w, .inr rfl⟩

/-- What a step that has a next state did (R27, R28, R256). -/
theorem step_cases {s t : State} (h : step s = .next t) : cfgWf s.cfg = true ∧ s.seq = .idle ∧
    (PortMove s t ∨ ∃ ms w, (∃ i, exec i (issued s ms w) = .next t) ∨ t = illegalCommand (issued s ms w)) := by
  unfold step at h
  split at h
  next hwf =>
    split at h
    next => cases h
    next hidle _ =>
      cases h
      exact ⟨hwf, hidle, .inl ⟨s.ov, s.obuf, s.moves, s.received, rfl⟩⟩
    next m ms hidle _ =>
      refine ⟨hwf, hidle, ?_⟩
      obtain hport | ⟨w, hrun⟩ := hostMove_cases h
      · exact .inl hport
      · exact .inr ⟨ms, w, hrun⟩
  next => cases h

/-- Settles O4, by the decoded branch of the step. -/
theorem stepRunsDecodedInstruction : Obligations.StepRunsDecodedInstruction := by
  intro s w ms i hwf hidle hm hd
  rw [step_of_move hwf hidle hm, hostMove_issue_of_decode hd]

/-- Settles O6: every body ends, completed or abandoned. -/
theorem everyOperationEndsInANextState : Obligations.EveryOperationEndsInANextState := fun i s =>
  ⟨_, exec_eq i s, ended_seq _, ended_resultsWritten _⟩

/-- Settles O10, by the first test of the step. -/
theorem illFormedConfigHasNoRun : Obligations.IllFormedConfigHasNoRun := by
  intro s hwf
  simp [step, hwf]

/-- Settles O11, by each branch of the host's move. -/
theorem hostPortMoves : Obligations.HostPortMoves := by
  intro s ms hwf hidle
  refine ⟨fun p hm hw => ?_, fun p hm hw => ?_, fun v hm => step_of_move hwf hidle hm,
    fun v hm => step_of_move hwf hidle hm⟩
  · rw [step_of_move hwf hidle hm]
    simp [hostMove, hostRead, hw]
  · rw [step_of_move hwf hidle hm]
    simp [hostMove, hostRead, hw]

/-! ## Illegal commands (R64) -/

theorem opcode_range (i : Instr) : 0 < i.opcode.toNat ∧ i.opcode.toNat < 0xE0 := by
  cases i <;> simp [Instr.opcode]

/-- A word with RSV ≠ 0x00, or whose OP is no operation's, does not decode. -/
theorem decode_error {w : BitVec 64} (h : cmdRsv w ≠ 0x00#8 ∨ ∀ i : Instr, i.opcode ≠ cmdOp w) :
    ∃ e, decode w = .error e := by
  cases hd : decode w with
  | error e => exact ⟨e, rfl⟩
  | ok i =>
    obtain ⟨hrsv, -, hop⟩ := decode_ok hd
    exact absurd h (not_or.2 ⟨not_not.2 hrsv, fun hno => hno i hop⟩)

/-- Settles O5: such a word does not decode, so the step takes the fault; no opcode is 0x00 or from 0xE0 on. -/
theorem illegalCommandReported : Obligations.IllegalCommandReported := by
  refine ⟨fun s w ms hwf hidle hm hbad => ?_, fun w hop i hi => ?_⟩
  · obtain ⟨e, he⟩ := decode_error hbad
    have hstep := step_of_move hwf hidle hm
    rw [hostMove_issue_of_error he] at hstep
    have hinfo : w.setWidth 32 = w.extractLsb' 0 32 := BitVec.setWidth_eq_extractLsb' (by decide)
    exact ⟨_, hstep, rfl, hinfo, ⟨rfl, rfl, rfl, rfl⟩,
      ⟨rfl, rfl, rfl, rfl, rfl⟩, rfl, rfl, rfl, rfl, rfl, rfl, rfl, rfl, rfl⟩
  · obtain ⟨hlo, hhi⟩ := opcode_range i
    rw [hi] at hlo hhi
    rcases hop with hop | hop
    · rw [hop] at hlo
      exact absurd hlo (by decide)
    · omega

/-! ## Reset (R33, R34, R270) -/

theorem resetWith_memInv (c : Cfg) : MemInv (State.resetWith c) where
  canonical := resetWith_canonical c
  onlyRw := nofun

theorem resetWith_latch (c : Cfg) (p : Pair) : latchOf (State.resetWith c).latches p = none := by
  cases p <;> rfl

theorem resetWith_latchInv (c : Cfg) : LatchInv (State.resetWith c) where
  latching p hp := by rw [resetWith_latch] at hp; cases hp
  coherent p b hb := by rw [resetWith_latch] at hb; cases hb

theorem resetWith_inv (c : Cfg) : MachineInv (State.resetWith c) where
  idle := rfl
  mem := resetWith_memInv c
  latch := resetWith_latchInv c
  result := ⟨nofun, nofun⟩

/-- Settles O8: no byte is listed, no latch held and no result written. -/
theorem resetHasInv : Obligations.ResetHasInv := ⟨resetWith_inv, resetWith_inv cfgT⟩

/-- Settles O9: an unlisted RW byte reads as its default. -/
theorem resetLeavesIdleAndDefaults : Obligations.ResetLeavesIdleAndDefaults := fun c =>
  ⟨rfl, rfl, ⟨fun a _ => regAt_resetWith c a, rfl⟩, rfl, rfl⟩

end Sys2Proof.Machine
end

section
/-! PROOF. How an operation can end (R240, R243, R246): the statuses it completes with, the faults it raises, and what
its end leaves in the result ports and in FAULTS. -/

namespace Sys2Proof.Machine

/-! ## Completions and faults of a sequence -/

/-- Whatever the progress completes with meets P. -/
def Res.Gives {α : Type} (P : α → Prop) (r : Res α) : Prop := ∀ v t, r = .ok v t → P v

/-- Whatever fault the progress raises meets P. -/
def Res.Raises {α : Type} (P : FaultCode → Prop) (r : Res α) : Prop := ∀ f x t, r = .raise f x t → P f

theorem Res.gives_ok {α : Type} {P : α → Prop} {v : α} {s : State} (h : P v) : (Res.ok v s).Gives P := by
  intro w t e
  cases e
  exact h

theorem Res.gives_raise {α : Type} {P : α → Prop} {f : FaultCode} {x : Word32} {s : State} :
    (Res.raise f x s : Res α).Gives P := by
  intro _ _ e
  cases e

theorem Res.gives_bind {α β : Type} {P : β → Prop} {r : Res α} {k : α → State → Res β}
    (hk : ∀ v t, (k v t).Gives P) : (r.bind k).Gives P := by
  cases r with
  | ok v s => exact hk v s
  | raise f x s => exact Res.gives_raise

theorem Res.raises_ok {α : Type} {P : FaultCode → Prop} {v : α} {s : State} : (Res.ok v s).Raises P := by
  intro _ _ _ e
  cases e

theorem Res.raises_raise {α : Type} {P : FaultCode → Prop} {f : FaultCode} {x : Word32} {s : State} (h : P f) :
    (Res.raise f x s : Res α).Raises P := by
  intro g y t e
  cases e
  exact h

theorem Res.Raises.mono {α : Type} {P Q : FaultCode → Prop} {r : Res α} (h : r.Raises P) (hPQ : ∀ f, P f → Q f) :
    r.Raises Q := fun f x t e => hPQ f (h f x t e)

theorem Res.raises_bind {α β : Type} {P : FaultCode → Prop} {r : Res α} {k : α → State → Res β} (hr : r.Raises P)
    (hk : ∀ v t, r = .ok v t → (k v t).Raises P) : (r.bind k).Raises P := by
  cases r with
  | ok v s => exact hk v s rfl
  | raise f x s => exact Res.raises_raise (hr f x s rfl)

/-- A continuation that only builds a value raises nothing more. -/
theorem Res.raises_map {α β : Type} {P : FaultCode → Prop} {r : Res α} {f : α → State → β} (hr : r.Raises P) :
    (r.bind fun v s => .ok (f v s) s).Raises P :=
  Res.raises_bind hr fun _ _ _ => Res.raises_ok

/-! ## The statuses an operation completes with (R240) -/

/-- The operations that complete with a status: OK by all, the circuit faults by the temperature readings, REJECTED by
INT_LIMIT_SET, MISMATCH by VALIDATE. -/
def CompletesWith (i : Instr) (x : Byte) : Prop :=
  x = statusOk ∨
  (x = statusOpenCircuit ∨ x = statusShortCircuit) ∧ ((∃ m l, i = .tempDecode m l) ∨ i = .extTempRead) ∨
  x = statusRejected ∧ (∃ v, i = .intLimitSet v) ∨
  x = statusMismatch ∧ i = .validate

theorem diodeCode_cases (d : DiodeStatus) :
    diodeCode d = statusOk ∨ diodeCode d = statusOpenCircuit ∨ diodeCode d = statusShortCircuit := by
  cases d
  · exact .inl rfl
  · exact .inr (.inl rfl)
  · exact .inr (.inr rfl)

/-- A modern reading completes with its pair's diode status (R142). -/
theorem readTemp_gives (msb lsb : Byte) (s : State) :
    (readTemp msb lsb s).Gives fun x => x.2 = diodeCode (diodeStatus s.cfg.lit msb lsb) := by
  unfold readTemp
  split
  next h => exact Res.gives_ok (by rw [h]; rfl)
  next h => exact Res.gives_ok rfl

theorem readTemp_raises {P : FaultCode → Prop} (msb lsb : Byte) (s : State) : (readTemp msb lsb s).Raises P := by
  unfold readTemp
  split <;> exact Res.raises_ok

/-- The results of a reading complete a temperature operation. -/
theorem readTemp_completes {i : Instr} (hi : (∃ m l, i = .tempDecode m l) ∨ i = .extTempRead) (msb lsb : Byte)
    (f : Word32 × Byte → Results) (hf : ∀ x, (f x).status = x.2) (s : State) :
    ((readTemp msb lsb s).bind fun x t => .ok (f x) t).Gives fun r => CompletesWith i r.status := by
  intro r t h
  cases hr : readTemp msb lsb s with
  | raise f x u => exact (readTemp_raises (P := fun _ => False) msb lsb s f x u hr).elim
  | ok x u =>
    rw [hr] at h
    cases h
    rw [hf, readTemp_gives msb lsb s x t hr]
    rcases diodeCode_cases (diodeStatus s.cfg.lit msb lsb) with h | h
    · exact .inl h
    · exact .inr (.inl ⟨h, hi⟩)

theorem validateCode_completes (n : Nat) : CompletesWith .validate (validateCode n) := by
  unfold validateCode
  split
  · exact .inl rfl
  · exact .inr (.inr (.inr ⟨rfl, rfl⟩))

/-- Every body completes with a status of its row. -/
theorem opBody_completes (i : Instr) (s : State) : (opBody i s).Gives fun r => CompletesWith i r.status := by
  have ok : ∀ {r : Results} {t : State}, r.status = statusOk →
      (Res.ok r t).Gives fun r => CompletesWith i r.status := fun h => Res.gives_ok (.inl h)
  cases i with
  | bfDecode ls b =>
    simp only [opBody, bfDecodeBody]
    split
    · exact Res.gives_raise
    · exact ok rfl
  | bfEncode ls =>
    simp only [opBody, bfEncodeBody]
    split
    · exact Res.gives_raise
    · split
      · exact Res.gives_raise
      · exact ok rfl
  | tachToRpm t => exact ok rfl
  | rpmToTach r => exact ok rfl
  | tempDecode msb lsb => exact readTemp_completes (.inl ⟨msb, lsb, rfl⟩) msb lsb _ (fun _ => rfl) s
  | tempEncode v =>
    simp only [opBody, encodeTempBody]
    split
    · exact Res.gives_raise
    · exact ok rfl
  | ltempDecode whole frac => exact ok rfl
  | ltempEncode v =>
    simp only [opBody, encodeTempBody]
    split
    · exact Res.gives_raise
    · exact ok rfl
  | intLimitSet v =>
    simp only [opBody, intLimitSetBody]
    split
    · exact Res.gives_bind fun _ _ => ok rfl
    · exact Res.gives_ok (.inr (.inr (.inl ⟨rfl, v, rfl⟩)))
  | extTempRead =>
    exact Res.gives_bind fun _ _ => Res.gives_bind fun _ _ => Res.gives_bind fun p t =>
      readTemp_completes (.inr rfl) p.1 p.2 _ (fun _ => rfl) t
  | validate => exact Res.gives_bind fun _ _ => Res.gives_ok (validateCode_completes _)
  | lutRead | lutWrite | lutHystRead | lutHystWrite b | fanSpeedGet | fanSpeedSet speed | fanRpmGet | minRpmGet
  | minRpmSet r | regRead a | regWrite a b | resetDefaults => exact Res.gives_bind fun _ _ => ok rfl

/-! ## What an end leaves -/

theorem hasFault_addFault (m : FaultSet) (f g : FaultCode) :
    hasFault (addFault m f) g = true ↔ g = f ∨ hasFault m g = true := by
  cases f <;> cases g <;> simp [hasFault, addFault]

theorem CompletesWith.listed {i : Instr} {x : Byte} (h : CompletesWith i x) : listedStatus x := by
  rcases h with rfl | ⟨rfl | rfl, -⟩ | ⟨rfl, -⟩ | ⟨rfl, -⟩
  all_goals
    unfold listedStatus
    decide

theorem CompletesWith.noFaultBit {i : Instr} {x : Byte} (h : CompletesWith i x) : x.getLsbD 7 = false := by
  rcases h with rfl | ⟨rfl | rfl, -⟩ | ⟨rfl, -⟩ | ⟨rfl, -⟩ <;> decide

theorem faultCode_listed (f : FaultCode) : listedStatus (faultCode f) := by
  unfold listedStatus
  cases f <;> decide

theorem faultCode_faultBit (f : FaultCode) : (faultCode f).getLsbD 7 = true := by cases f <;> decide

/-- The two ways an operation ends: completed with a status of its row and FAULTS as before, or abandoned with a fault
its body raised (R243, R246). -/
theorem exec_ends {i : Instr} {s t : State} (h : exec i s = .next t) :
    (CompletesWith i t.results.status ∧ t.faults = s.faults) ∨
    ∃ f x u, opBody i (start s i) = .raise f x u ∧
      t.results = { Results.zero with status := faultCode f, r32 := x } ∧ t.faults = addFault s.faults f := by
  have hfr := opBody_frame i (start s i)
  rw [exec_next h]
  cases hb : opBody i (start s i) with
  | ok r u =>
    rw [hb] at hfr
    exact .inl ⟨opBody_completes i _ r u hb, hfr.faults⟩
  | raise f x u =>
    rw [hb] at hfr
    exact .inr ⟨f, x, u, rfl, rfl, congrArg (addFault · f) hfr.faults⟩

theorem otherPortsZero_fault (x : Byte) (y : Word32) : OtherPortsZero { Results.zero with status := x, r32 := y } :=
  ⟨rfl, rfl, rfl, rfl⟩

/-- Settles O14: a completion's status has bit 7 clear, a fault's code has it set. -/
theorem faultEntryZeroesPortsAndMarks : Obligations.FaultEntryZeroesPortsAndMarks := by
  intro i s t h
  rcases exec_ends h with ⟨hc, hf⟩ | ⟨f, x, u, -, hr, hf⟩
  · refine ⟨fun hbit => ?_, fun _ => hf⟩
    rw [hc.noFaultBit] at hbit
    cases hbit
  · rw [hr]
    refine ⟨fun _ => ⟨otherPortsZero_fault _ x, f, rfl, hf⟩, fun hbit => ?_⟩
    rw [faultCode_faultBit] at hbit
    cases hbit

/-! ## The invariant (R27, R29, R30, R240) -/

theorem takeFault_resultInv (s : State) (f : FaultCode) (x : Word32) : ResultInv (takeFault s f x) where
  listed _ := faultCode_listed f
  fault _ _ := ⟨otherPortsZero_fault _ x, f, rfl, (hasFault_addFault s.faults f f).2 (.inl rfl)⟩

theorem exec_resultInv {i : Instr} {s t : State} (h : exec i s = .next t) : ResultInv t := by
  rcases exec_ends h with ⟨hc, -⟩ | ⟨f, x, u, hb, -, -⟩
  · refine ⟨fun _ => hc.listed, fun _ hbit => ?_⟩
    rw [hc.noFaultBit] at hbit
    cases hbit
  · rw [exec_next h, hb]
    exact takeFault_resultInv u f x

theorem LatchInv.congr {s t : State} (h : LatchInv s) (hc : t.cfg = s.cfg) (hm : t.mem = s.mem)
    (hl : t.latches = s.latches) : LatchInv t :=
  h.clear hc fun _ => .inr ⟨by rw [hl], regAt_congr hc hm _⟩

/-- An operation keeps the invariant: transactions keep the register space's, and the end writes the ports. -/
theorem exec_keeps_inv {i : Instr} {s t : State} (hwf : cfgWf s.cfg = true) (hm : MemInv s) (hl : LatchInv s)
    (h : exec i s = .next t) : MachineInv t := by
  obtain ⟨-, hregs⟩ := keepsRegs_kept.body i (start s i)
  obtain ⟨hm', hl'⟩ := hregs (pairAttrs_of_wf hwf) (hm.congr rfl rfl) (hl.start i)
  have hres := exec_resultInv h
  rw [exec_next h] at hres ⊢
  exact ⟨ended_seq _, hm'.congr (ended_cfg _) (ended_mem _),
    hl'.congr (ended_cfg _) (ended_mem _) (ended_latches _), hres⟩

/-- Settles O7: a move of ports keeps each part as it is, an operation keeps them by `exec_keeps_inv`, an illegal command
touches the result ports alone. -/
theorem stepKeepsInv : Obligations.StepKeepsInv := by
  intro s t hinv h
  obtain ⟨hidle, hm, hl, hr⟩ := hinv
  obtain ⟨hwf, -, ⟨ov, obuf, moves, received, rfl⟩ | ⟨ms, w, ⟨i, h⟩ | rfl⟩⟩ := step_cases h
  · exact ⟨hidle, hm.congr rfl rfl, hl.congr rfl rfl rfl, ⟨hr.listed, hr.fault⟩⟩
  · exact exec_keeps_inv (s := issued s ms w) hwf (hm.congr rfl rfl) (hl.congr rfl rfl rfl) h
  · exact ⟨rfl, hm.congr rfl rfl, hl.congr rfl rfl rfl, takeFault_resultInv _ _ _⟩

/-! ## What no step undoes (R28, R35, R246) -/

/-- What only grows or stays: the configuration, the fault marks, the history, the ports' validity. -/
theorem exec_keeps_marks {i : Instr} {s t : State} (h : exec i s = .next t) :
    t.cfg = s.cfg ∧ (∀ f, hasFault s.faults f = true → hasFault t.faults f = true) ∧
      s.history <+: t.history ∧ t.resultsWritten = true := by
  have hfr := opBody_frame i (start s i)
  have hmarks : ∀ f, hasFault s.faults f = true → hasFault t.faults f = true := by
    rcases exec_ends h with ⟨-, hf⟩ | ⟨g, x, u, -, -, hf⟩
    · rw [hf]
      exact fun _ => id
    · rw [hf]
      exact fun f hfault => (hasFault_addFault s.faults g f).2 (.inr hfault)
  rw [exec_next h] at hmarks ⊢
  refine ⟨(ended_cfg _).trans hfr.cfg, hmarks, ?_, ended_resultsWritten _⟩
  rw [ended_history]
  exact hfr.history

/-- Settles O12: only an operation or an illegal command writes any of these, and each only adds. -/
theorem stepKeepsCfgMarksAndHistory : Obligations.StepKeepsCfgMarksAndHistory := by
  intro s t h
  obtain ⟨-, -, ⟨ov, obuf, moves, received, rfl⟩ | ⟨ms, w, ⟨i, h⟩ | rfl⟩⟩ := step_cases h
  · exact ⟨rfl, fun _ => id, List.prefix_rfl, id⟩
  · obtain ⟨hc, hmarks, hh, hw⟩ := exec_keeps_marks h
    exact ⟨hc, hmarks, hh, fun _ => hw⟩
  · exact ⟨rfl, fun f hf => (hasFault_addFault s.faults _ f).2 (.inr hf), List.prefix_rfl, fun _ => rfl⟩

end Sys2Proof.Machine
end

section
/-! PROOF. Which faults each operation raises (R240, R241, R244): a read or write of a mapped register raises none but
BUS_ERROR and, at a locked table register, LUT_LOCKED. -/

namespace Sys2Proof.Machine

/-! ## Reads -/

theorem memRead_raises (s : State) (a : Addr) : (memRead s a).Raises fun f =>
    f = .busError ∨ f = .unmappedRegister ∧ attrOf s.cfg a = .unmapped := by
  by_cases hu : attrOf s.cfg a = .unmapped
  · rw [memRead_unmapped hu]
    exact Res.raises_raise (.inr ⟨rfl, hu⟩)
  · cases hf : (s.env.at 0).fails with
    | true =>
      rw [memRead_fails hu hf]
      exact Res.raises_raise (.inl rfl)
    | false =>
      obtain ⟨v, t, e, -⟩ := memRead_ok hu hf
      rw [e]
      exact Res.raises_ok

theorem memRead_raises_mapped {s : State} {a : Addr} (h : attrOf s.cfg a ≠ .unmapped) :
    (memRead s a).Raises (· = .busError) :=
  (memRead_raises s a).mono fun _ hf => hf.resolve_right fun hu => h hu.2

theorem memRead_ok_cfg {s t : State} {a : Addr} {v : Byte} (h : memRead s a = .ok v t) : t.cfg = s.cfg := by
  have hc := (memRead_frame s a).cfg
  rwa [h] at hc

theorem readList_raises (as : List Addr) : ∀ s : State, (∀ a, a ∈ as → attrOf s.cfg a ≠ .unmapped) →
    (readList s as).Raises (· = .busError) := by
  induction as with
  | nil => exact fun _ _ => Res.raises_ok
  | cons a as ih =>
    intro s h
    refine Res.raises_bind (memRead_raises_mapped (h a (by simp))) fun v t e => Res.raises_map (ih t ?_)
    rw [memRead_ok_cfg e]
    exact fun b hb => h b (by simp [hb])

theorem readPair_raises {s : State} {p : Pair}
    (h : ∀ a, a ∈ pairAddrs (pairCfg s.cfg p) → attrOf s.cfg a ≠ .unmapped) :
    (readPair s p).Raises (· = .busError) := by
  rw [readPair_eq_readList]
  exact Res.raises_map (readList_raises _ s h)

/-! ## Writes -/

/-- A write the environment lets through, of a register that is not locked, is accepted. -/
theorem memWrite_unlocked_ok {s : State} {a : Addr} (v : Byte) (ha : attrOf s.cfg a = .rw)
    (hf : (s.env.at 0).fails = false) (hu : isLutAddr s.cfg a = false ∨ lutGoverns s = false) :
    ∃ t, memWrite s a v = .ok () t := by
  cases hg : lutGoverns s with
  | false => exact ⟨_, memWrite_stores v ha hf (.inl hg)⟩
  | true =>
    have hl : isLutAddr s.cfg a = false := hu.resolve_right (by simp [hg])
    by_cases hfan : a = s.cfg.fanSetting
    · exact ⟨_, memWrite_governed v ha hf hl hfan hg⟩
    · exact ⟨_, memWrite_stores v ha hf (.inr ⟨hl, hfan⟩)⟩

theorem memWrite_raises (s : State) (a : Addr) (v : Byte) : (memWrite s a v).Raises fun f =>
    f = .busError ∨ (f = .lutLocked ∧ isLutAddr s.cfg a = true ∧ lutGoverns s = true) ∨
      f = .unmappedRegister ∧ attrOf s.cfg a = .unmapped := by
  cases ha : attrOf s.cfg a with
  | unmapped =>
    rw [memWrite_unmapped v ha]
    exact Res.raises_raise (.inr (.inr ⟨rfl, rfl⟩))
  | ro =>
    rw [memWrite_ro v ha]
    exact Res.raises_raise (.inl rfl)
  | rw =>
    cases hf : (s.env.at 0).fails with
    | true =>
      rw [memWrite_fails v ha hf]
      exact Res.raises_raise (.inl rfl)
    | false =>
      by_cases hlocked : isLutAddr s.cfg a = true ∧ lutGoverns s = true
      · rw [memWrite_locked v ha hf hlocked.1 hlocked.2]
        exact Res.raises_raise (.inr (.inl ⟨rfl, hlocked⟩))
      · obtain ⟨t, e⟩ := memWrite_unlocked_ok v ha hf (by simpa [or_iff_not_imp_left] using hlocked)
        rw [e]
        exact Res.raises_ok

theorem memWrite_raises_mapped {s : State} {a : Addr} (v : Byte) (h : attrOf s.cfg a = .rw) :
    (memWrite s a v).Raises fun f => f = .busError ∨ f = .lutLocked := by
  refine (memWrite_raises s a v).mono fun f hf => ?_
  rcases hf with hf | ⟨hf, -⟩ | ⟨-, hu⟩
  · exact .inl hf
  · exact .inr hf
  · simp [h] at hu

theorem memWrite_raises_unlocked {s : State} {a : Addr} (v : Byte) (h : attrOf s.cfg a = .rw)
    (hu : isLutAddr s.cfg a = false ∨ lutGoverns s = false) : (memWrite s a v).Raises (· = .busError) := by
  refine (memWrite_raises s a v).mono fun f hf => ?_
  rcases hf with hf | ⟨-, hl, hg⟩ | ⟨-, hunmapped⟩
  · exact hf
  · simp [hl, hg] at hu
  · simp [h] at hunmapped

theorem memWrite_ok_cfg {s t : State} {a : Addr} {v : Byte} (h : memWrite s a v = .ok () t) : t.cfg = s.cfg := by
  have hc := (memWrite_frame s a v).cfg
  rwa [h] at hc

theorem writeList_raises (es : List (BitVec 8 × BitVec 8)) : ∀ s : State,
    (∀ e, e ∈ es → attrOf s.cfg e.1 = .rw) →
    (writeList s es).Raises fun f => f = .busError ∨ f = .lutLocked := by
  induction es with
  | nil => exact fun _ _ => Res.raises_ok
  | cons e es ih =>
    intro s h
    refine Res.raises_bind (memWrite_raises_mapped e.2 (h e (by simp))) fun _ t ht => ih t ?_
    rw [memWrite_ok_cfg ht]
    exact fun d hd => h d (by simp [hd])

/-- Writes of registers that are not the table's meet no lock. -/
theorem writeList_raises_notLut (es : List (BitVec 8 × BitVec 8)) : ∀ s : State,
    (∀ e, e ∈ es → attrOf s.cfg e.1 = .rw ∧ isLutAddr s.cfg e.1 = false) →
    (writeList s es).Raises (· = .busError) := by
  induction es with
  | nil => exact fun _ _ => Res.raises_ok
  | cons e es ih =>
    intro s h
    obtain ⟨hrw, hl⟩ := h e (by simp)
    refine Res.raises_bind (memWrite_raises_unlocked e.2 hrw (.inl hl)) fun _ t ht => ih t ?_
    rw [memWrite_ok_cfg ht]
    exact fun d hd => h d (by simp [hd])

/-- A write of another register than FAN_CONFIG leaves the table released (R43). -/
theorem memWrite_ok_governs {s t : State} {a : Addr} {v : Byte} (h : memWrite s a v = .ok () t)
    (ha : a ≠ s.cfg.fanConfig) : lutGoverns t = lutGoverns s := by
  have hr := memWrite_regAt s a v s.cfg.fanConfig ha.symm
  rw [h] at hr
  exact lutGoverns_congr (memWrite_ok_cfg h) hr

/-- Writes of registers other than FAN_CONFIG while the table is released meet no lock. -/
theorem writeList_raises_released (es : List (BitVec 8 × BitVec 8)) : ∀ s : State,
    (∀ e, e ∈ es → attrOf s.cfg e.1 = .rw ∧ e.1 ≠ s.cfg.fanConfig) → lutGoverns s = false →
    (writeList s es).Raises (· = .busError) := by
  induction es with
  | nil => exact fun _ _ _ => Res.raises_ok
  | cons e es ih =>
    intro s h hg
    obtain ⟨hrw, hne⟩ := h e (by simp)
    refine Res.raises_bind (memWrite_raises_unlocked e.2 hrw (.inr hg)) fun _ t ht => ih t ?_ ?_
    · rw [memWrite_ok_cfg ht]
      exact fun d hd => h d (by simp [hd])
    · rw [memWrite_ok_governs ht hne, hg]

theorem writePair_raises {s : State} {p : Pair} (hi lo : Byte)
    (h : ∀ a, a ∈ pairAddrs (pairCfg s.cfg p) → attrOf s.cfg a = .rw ∧ isLutAddr s.cfg a = false) :
    (writePair s p hi lo).Raises (· = .busError) := by
  rw [writePair_eq_writeList]
  refine writeList_raises_notLut _ s fun e he => h e.1 ?_
  simp only [List.mem_cons, List.not_mem_nil, or_false] at he
  rcases he with rfl | rfl <;> simp [pairAddrs]

/-! ## The writes of RESET_DEFAULTS (R222) -/

@[simp] theorem bitOf_setBit (b : Byte) (i : Fin 8) (x : Bool) : bitOf (setBit b i x) i = x := by
  cases x <;> simp [bitOf, setBit]

/-- Writing FAN_CONFIG's default with the table's bit turned off, if accepted, releases the table. -/
theorem memWrite_releases {s t : State} (b : Byte) (hrw : attrOf s.cfg s.cfg.fanConfig = .rw)
    (hd : namesDistinct s.cfg)
    (h : memWrite s s.cfg.fanConfig (setBit b s.cfg.lutCtrlBit (!s.cfg.lutCtrlActive)) = .ok () t) :
    lutGoverns t = false := by
  have hf : (s.env.at 0).fails = false := by
    cases hf : (s.env.at 0).fails with
    | false => rfl
    | true =>
      rw [memWrite_fails _ hrw hf] at h
      cases h
  have hl : isLutAddr s.cfg s.cfg.fanConfig = false := otherNames_notLut hd (by simp [otherNames])
  obtain ⟨u, e, hu⟩ := memWrite_ok (setBit b s.cfg.lutCtrlBit (!s.cfg.lutCtrlActive)) hrw hf
    (.inr ⟨hl, (fanRegs_ne hd).1⟩)
  rw [h] at e
  cases e
  rw [lutGoverns, hu.frame.cfg, hu.regs, if_pos rfl, bitOf_setBit]
  cases s.cfg.lutCtrlActive <;> rfl

theorem attr_fanConfig {c : Cfg} (h : cfgWf c = true) : attrOf c c.fanConfig = .rw :=
  attr_rw h (by simp [rwNames])

/-- The defaults other than FAN_CONFIG's. -/
def otherDefaults (c : Cfg) : List (BitVec 8 × BitVec 8) := c.defaults.filter (fun e => e.1 != c.fanConfig)

theorem otherDefaults_rw {c : Cfg} (h : cfgWf c = true) {e : BitVec 8 × BitVec 8} (he : e ∈ otherDefaults c) :
    attrOf c e.1 = .rw ∧ e.1 ≠ c.fanConfig := by
  obtain ⟨hmem, hne⟩ := List.mem_filter.1 he
  exact ⟨attr_default h hmem, by simpa using hne⟩

theorem writeList_resetWrites (s : State) : writeList s (resetWrites s.cfg) =
    (memWrite s s.cfg.fanConfig
      (setBit (defaultOf s.cfg s.cfg.fanConfig) s.cfg.lutCtrlBit (!s.cfg.lutCtrlActive))).bind fun _ t =>
    (writeList t (otherDefaults s.cfg)).bind fun _ u =>
      writeList u [(s.cfg.fanConfig, defaultOf s.cfg s.cfg.fanConfig)] := by
  simp only [resetWrites, List.cons_append, writeList, writeList_append, otherDefaults]

/-- The first write releases the table, so no later one meets the lock. -/
theorem writeList_resetWrites_raises {s : State} (hwf : cfgWf s.cfg = true) (hd : namesDistinct s.cfg) :
    (writeList s (resetWrites s.cfg)).Raises (· = .busError) := by
  have hrw := attr_fanConfig hwf
  have hl : isLutAddr s.cfg s.cfg.fanConfig = false := otherNames_notLut hd (by simp [otherNames])
  rw [writeList_resetWrites]
  refine Res.raises_bind (memWrite_raises_unlocked _ hrw (.inl hl)) fun _ t ht => ?_
  have hc := memWrite_ok_cfg ht
  refine Res.raises_bind (writeList_raises_released _ t ?_ (memWrite_releases _ hrw hd ht)) fun _ u hu => ?_
  · rw [hc]
    exact fun e he => otherDefaults_rw hwf he
  · have hcu := (writeList_frame (otherDefaults s.cfg) t).cfg
    rw [hu, Res.state_ok, hc] at hcu
    refine writeList_raises_notLut _ u ?_
    rw [hcu]
    simpa using ⟨hrw, hl⟩

/-! ## The faults of each operation (R240) -/

/-- The operations of a fault's row. -/
def raisedBy (i : Instr) : FaultCode → Prop
  | .illegalCommand => False
  | .busError => usesBus i = true
  | .invalidOperand => (∃ ls, i = .bfEncode ls) ∨ (∃ v, i = .tempEncode v) ∨ ∃ v, i = .ltempEncode v
  | .programmerError => (∃ ls b, i = .bfDecode ls b) ∨ ∃ ls, i = .bfEncode ls
  | .lutLocked => i = .lutWrite ∨ ∃ a b, i = .regWrite a b
  | .unmappedRegister => (∃ a, i = .regRead a) ∨ ∃ a b, i = .regWrite a b

section
variable {i : Instr} {α β : Type} {r : Res α} {f : α → State → β}

theorem raisedBy_of_bus (hi : usesBus i = true) (hr : r.Raises (· = .busError)) :
    (r.bind fun v s => .ok (f v s) s).Raises (raisedBy i) :=
  Res.raises_map (hr.mono fun _ h => by rw [h]; exact hi)

end

theorem encodeTempBody_raises {i : Instr} (enc : Literals → Word32 → Byte × Byte) (v : Word32) (s : State)
    (hi : raisedBy i .invalidOperand) : (encodeTempBody enc v s).Raises (raisedBy i) := by
  unfold encodeTempBody
  split
  · exact Res.raises_raise hi
  · exact Res.raises_ok

/-- The standby trigger writes ONE_SHOT, which is never locked (R196). -/
theorem triggerIfStandby_raises (c : Byte) {s : State} (hwf : cfgWf s.cfg = true) (hd : namesDistinct s.cfg) :
    (triggerIfStandby c s).Raises (· = .busError) := by
  unfold triggerIfStandby
  split
  · exact Res.raises_bind (memWrite_raises_unlocked _ (attr_rw hwf (by simp [rwNames]))
      (.inl (otherNames_notLut hd (by simp [otherNames])))) fun _ _ _ => Res.raises_ok
  · exact Res.raises_ok

theorem triggerIfStandby_frame (c : Byte) (s : State) : BusFrame s (triggerIfStandby c s).state := by
  unfold triggerIfStandby
  split
  · exact busFrame_kept.bind (memWrite_frame s _ _) fun _ t => sleep_frame t _
  · exact BusFrame.refl s

theorem triggerIfStandby_ok_cfg {c : Byte} {s t : State} (h : triggerIfStandby c s = .ok () t) : t.cfg = s.cfg := by
  have hc := (triggerIfStandby_frame c s).cfg
  rwa [h] at hc

/-- Every body raises only faults of whose row the operation is (R240). -/
theorem opBody_raises (i : Instr) {s : State} (hwf : cfgWf s.cfg = true) (hd : namesDistinct s.cfg) :
    (opBody i s).Raises (raisedBy i) := by
  have ro : ∀ {a}, a ∈ roNames s.cfg → attrOf s.cfg a ≠ .unmapped := fun ha => by simp [attr_ro hwf ha]
  have rw' : ∀ {a}, a ∈ rwNames s.cfg → attrOf s.cfg a ≠ .unmapped := fun ha => by simp [attr_rw hwf ha]
  cases i with
  | bfDecode ls b =>
    simp only [opBody, bfDecodeBody]
    split
    · exact Res.raises_raise (.inl ⟨ls, b, rfl⟩)
    · exact Res.raises_ok
  | bfEncode ls =>
    simp only [opBody, bfEncodeBody]
    split
    · exact Res.raises_raise (.inr ⟨ls, rfl⟩)
    · split
      · exact Res.raises_raise (.inl ⟨ls, rfl⟩)
      · exact Res.raises_ok
  | tachToRpm t => exact Res.raises_ok
  | rpmToTach r => exact Res.raises_ok
  | tempDecode msb lsb => exact Res.raises_map (readTemp_raises msb lsb s)
  | tempEncode v => exact encodeTempBody_raises _ v s (.inr (.inl ⟨v, rfl⟩))
  | ltempDecode whole frac => exact Res.raises_ok
  | ltempEncode v => exact encodeTempBody_raises _ v s (.inr (.inr ⟨v, rfl⟩))
  | lutRead =>
    refine raisedBy_of_bus rfl (readList_raises _ s fun a ha => ?_)
    obtain ⟨j, hj, rfl⟩ := List.mem_map.1 ha
    simp [attr_lut hwf (List.mem_range.1 hj)]
  | lutWrite =>
    refine Res.raises_map ((writeList_raises _ s fun e he => ?_).mono fun f hf => ?_)
    · obtain ⟨j, hj, rfl⟩ := List.mem_map.1 he
      exact attr_lut hwf (List.mem_range.1 hj)
    · rcases hf with rfl | rfl
      · exact rfl
      · exact .inl rfl
  | lutHystRead => exact raisedBy_of_bus rfl (memRead_raises_mapped (rw' (by simp [rwNames])))
  | lutHystWrite b =>
    exact raisedBy_of_bus rfl (memWrite_raises_unlocked _ (attr_rw hwf (by simp [rwNames]))
      (.inl (otherNames_notLut hd (by simp [otherNames]))))
  | fanSpeedGet => exact raisedBy_of_bus rfl (memRead_raises_mapped (rw' (by simp [rwNames])))
  | fanSpeedSet speed =>
    exact raisedBy_of_bus rfl (memWrite_raises_unlocked _ (attr_fanSetting hwf)
      (.inl (otherNames_notLut hd (by simp [otherNames]))))
  | intLimitSet v =>
    simp only [opBody, intLimitSetBody]
    split
    · exact raisedBy_of_bus rfl (memWrite_raises_unlocked _ (attr_rw hwf (by simp [rwNames]))
        (.inl (otherNames_notLut hd (by simp [otherNames]))))
    · exact Res.raises_ok
  | extTempRead =>
    have hpair : ∀ a, a ∈ pairAddrs s.cfg.extTemp → attrOf s.cfg a ≠ .unmapped := fun a ha => ro (by
      rcases mem_pairAddrs.1 ha with rfl | rfl <;> simp [roNames])
    refine (Res.raises_bind (memRead_raises_mapped (rw' (by simp [rwNames]))) fun c t ht => ?_).mono
      (Q := raisedBy .extTempRead) fun f hf => by rw [hf]; exact rfl
    have hct := memRead_ok_cfg ht
    refine Res.raises_bind (triggerIfStandby_raises c (by rw [hct]; exact hwf) (by rw [hct]; exact hd))
      fun _ u hu => ?_
    have hcu := triggerIfStandby_ok_cfg hu
    rw [hct] at hcu
    refine Res.raises_bind (readPair_raises ?_) fun p w _ => Res.raises_map (readTemp_raises p.1 p.2 w)
    rw [hcu]
    exact hpair
  | fanRpmGet =>
    refine raisedBy_of_bus rfl (readPair_raises fun a ha => ro ?_)
    rcases mem_pairAddrs.1 ha with rfl | rfl <;> simp [roNames, pairCfg]
  | minRpmGet =>
    exact raisedBy_of_bus rfl (readPair_raises fun a ha => by simp [attr_tachLimit hwf ha])
  | minRpmSet r =>
    exact raisedBy_of_bus rfl (writePair_raises _ _ fun a ha =>
      ⟨attr_tachLimit hwf ha, (tachLimit_plainReg hwf hd ha).notLut⟩)
  | regRead a =>
    refine Res.raises_map ((memRead_raises s a).mono fun f hf => ?_)
    rcases hf with rfl | ⟨rfl, -⟩
    · exact rfl
    · exact .inl ⟨a, rfl⟩
  | regWrite a b =>
    refine Res.raises_map ((memWrite_raises s a b).mono fun f hf => ?_)
    rcases hf with rfl | ⟨rfl, -⟩ | ⟨rfl, -⟩
    · exact rfl
    · exact .inr ⟨a, b, rfl⟩
    · exact .inr ⟨a, b, rfl⟩
  | resetDefaults => exact raisedBy_of_bus rfl (writeList_resetWrites_raises hwf hd)
  | validate =>
    refine raisedBy_of_bus rfl (readList_raises _ s fun a ha => ?_)
    obtain ⟨e, he, rfl⟩ := List.mem_map.1 ha
    simp [attr_default hwf he]

/-- Settles O15: a completion has a status of its row, and a fault is one of its row. -/
theorem statusCodesAndTheirWriters : Obligations.StatusCodesAndTheirWriters := by
  intro i s t hwf hd h
  rcases exec_ends h with ⟨hc, -⟩ | ⟨f, x, u, hb, hr, -⟩
  · refine ⟨hc.listed, ?_⟩
    rcases hc with e | ⟨e | e, hi⟩ | ⟨e, hi⟩ | ⟨e, hi⟩
    · simp [e, statusOk]
    · simp [e, statusOpenCircuit, hi]
    · simp [e, statusShortCircuit, hi]
    · simp [e, statusRejected, hi]
    · simp [e, statusMismatch, hi]
  · have hrow := opBody_raises i (s := start s i) hwf hd f x u hb
    rw [hr]
    refine ⟨faultCode_listed f, ?_⟩
    cases f with
    | illegalCommand => exact hrow.elim
    | busError | invalidOperand | programmerError | lutLocked | unmappedRegister =>
      simp only [raisedBy] at hrow
      simp [faultCode, hrow]

end Sys2Proof.Machine
end

section
/-! PROOF. What an operation's results depend on (R21, R35, R65): two states that agree on the configuration, the
register space and the environment run every body in step. -/

namespace Sys2Proof.Machine

/-- Two states in step: alike in what operations read, with the same events after the histories h and h'. -/
structure Twin (h h' : List Event) (s s' : State) : Prop where
  cfg : s'.cfg = s.cfg
  mem : s'.mem = s.mem
  latches : s'.latches = s.latches
  env : s'.env = s.env
  events : ∃ es, s.history = h ++ es ∧ s'.history = h' ++ es

/-- Two progresses in step: the same value or the same fault, in states in step. -/
def TwinRes {α : Type} (h h' : List Event) : Res α → Res α → Prop
  | .ok v s, .ok v' s' => v' = v ∧ Twin h h' s s'
  | .raise f x s, .raise f' x' s' => (f' = f ∧ x' = x) ∧ Twin h h' s s'
  | .ok _ _, .raise _ _ _ => False
  | .raise _ _ _, .ok _ _ => False

section
variable {h h' : List Event} {s s' : State}

theorem Twin.regAt (ht : Twin h h' s s') (a : Addr) : regAt s' a = regAt s a := regAt_congr ht.cfg ht.mem a

theorem Twin.lutGoverns (ht : Twin h h' s s') : lutGoverns s' = lutGoverns s :=
  lutGoverns_congr ht.cfg (ht.regAt _)

theorem Twin.useAnswer (ht : Twin h h' s s') : Twin h h' (useAnswer s) (useAnswer s') :=
  ⟨ht.cfg, ht.mem, ht.latches, by rw [useAnswer_env, useAnswer_env, ht.env], ht.events⟩

theorem Twin.touch (ht : Twin h h' s s') (a : Addr) : Twin h h' (touch s a) (touch s' a) :=
  ⟨ht.cfg, ht.mem, by rw [touch_latches, touch_latches, ht.cfg, ht.latches], ht.env, ht.events⟩

theorem Twin.setReg (ht : Twin h h' s s') (a : Addr) (v : Byte) : Twin h h' (setReg s a v) (setReg s' a v) :=
  ⟨ht.cfg, by rw [setReg_mem, setReg_mem, ht.cfg, ht.mem], ht.latches, ht.env, ht.events⟩

theorem Twin.record (ht : Twin h h' s s') (e : Event) : Twin h h' (record s e) (record s' e) := by
  obtain ⟨es, hs, hs'⟩ := ht.events
  exact ⟨ht.cfg, ht.mem, ht.latches, ht.env, es ++ [e], by simp [hs], by simp [hs']⟩

theorem Twin.plainReadState (ht : Twin h h' s s') (a : Addr) :
    Twin h h' (plainReadState s a) (plainReadState s' a) := by
  have hv : plainByte s' a (s'.env.at 0) = plainByte s a (s.env.at 0) := by
    simp only [plainByte, ht.cfg, ht.env, ht.regAt]
  have ho : otherByte s' a (s'.env.at 0) = otherByte s a (s.env.at 0) :=
    funext fun p => by simp only [otherByte, ht.cfg, ht.env, ht.regAt]
  have hrec := ht.useAnswer.record (.read a (plainByte s a (s.env.at 0)))
  refine ⟨ht.cfg, ht.mem, ?_, hrec.env, ?_⟩
  · simp only [Machine.plainReadState, ho, ht.cfg, ht.latches]
  · simp only [Machine.plainReadState, hv]
    exact hrec.events

theorem TwinRes.bind {α β : Type} {r r' : Res α} {k k' : α → State → Res β} (hr : TwinRes h h' r r')
    (hk : ∀ v t t', Twin h h' t t' → TwinRes h h' (k v t) (k' v t')) : TwinRes h h' (r.bind k) (r'.bind k') := by
  cases r with
  | ok v t =>
    cases r' with
    | ok v' t' =>
      obtain ⟨rfl, ht⟩ := hr
      exact hk _ t t' ht
    | raise f x t' => exact hr.elim
  | raise f x t =>
    cases r' with
    | ok v' t' => exact hr.elim
    | raise f' x' t' => exact hr

/-! ## Transactions in step -/

theorem memRead_twin (ht : Twin h h' s s') (a : Addr) : TwinRes h h' (memRead s a) (memRead s' a) := by
  by_cases hu : attrOf s.cfg a = .unmapped
  · rw [memRead_unmapped hu, memRead_unmapped (by rw [ht.cfg, hu])]
    exact ⟨⟨rfl, rfl⟩, ht⟩
  · have hu' : attrOf s'.cfg a ≠ .unmapped := by rwa [ht.cfg]
    cases hf : (s.env.at 0).fails with
    | true =>
      rw [memRead_fails hu hf, memRead_fails hu' (by rw [ht.env, hf])]
      exact ⟨⟨rfl, rfl⟩, (ht.useAnswer.touch a).record _⟩
    | false =>
      have hf' : (s'.env.at 0).fails = false := by rw [ht.env, hf]
      cases hl : latchedByte s.cfg s.latches a with
      | none =>
        rw [memRead_plain hu hf hl, memRead_plain hu' hf' (by rw [ht.cfg, ht.latches, hl])]
        exact ⟨by simp only [plainByte, ht.cfg, ht.env, ht.regAt], ht.plainReadState a⟩
      | some b =>
        rw [memRead_latched hu hf hl, memRead_latched hu' hf' (by rw [ht.cfg, ht.latches, hl])]
        exact ⟨rfl, (ht.useAnswer.touch a).record _⟩

theorem writeByte_twin (ht : Twin h h' s s') (a : Addr) (v : Byte) (d : BusAnswer) :
    TwinRes h h' (writeByte s a v d) (writeByte s' a v d) := by
  simp only [writeByte, ht.cfg, ht.lutGoverns, ht.regAt]
  split
  · exact ⟨⟨rfl, rfl⟩, (ht.touch a).record _⟩
  · split
    · exact ⟨rfl, ((ht.touch a).setReg a _).record _⟩
    · exact ⟨rfl, ((ht.touch a).setReg a v).record _⟩

theorem memWrite_twin (ht : Twin h h' s s') (a : Addr) (v : Byte) :
    TwinRes h h' (memWrite s a v) (memWrite s' a v) := by
  simp only [memWrite, ht.cfg, ht.env, ht.regAt]
  split
  · exact ⟨⟨rfl, rfl⟩, ht⟩
  · exact ⟨⟨rfl, rfl⟩, (ht.touch a).record _⟩
  · split
    · exact ⟨⟨rfl, rfl⟩, ((ht.useAnswer.touch a).setReg a _).record _⟩
    · exact writeByte_twin ht.useAnswer a v _

theorem readPair_twin (ht : Twin h h' s s') (p : Pair) : TwinRes h h' (readPair s p) (readPair s' p) := by
  rw [readPair_eq, readPair_eq, ht.cfg]
  exact (memRead_twin ht _).bind fun x t t' ht => (memRead_twin ht _).bind fun y u u' hu => ⟨rfl, hu⟩

theorem readTemp_twin (ht : Twin h h' s s') (msb lsb : Byte) :
    TwinRes h h' (readTemp msb lsb s) (readTemp msb lsb s') := by
  simp only [readTemp, ht.cfg]
  split
  · exact ⟨rfl, ht⟩
  · exact ⟨by rw [ht.env], rfl, ht.mem, ht.latches, congrArg Env.popNaN ht.env, ht.events⟩

theorem triggerIfStandby_twin (ht : Twin h h' s s') (c : Byte) :
    TwinRes h h' (triggerIfStandby c s) (triggerIfStandby c s') := by
  simp only [triggerIfStandby, ht.cfg]
  split
  · refine (memWrite_twin ht _ _).bind fun _ t t' ht => ?_
    rw [ht.cfg]
    exact ⟨rfl, ht.record _⟩
  · exact ⟨rfl, ht⟩

end

theorem readList_twin {h h' : List Event} (as : List Addr) : ∀ {s s' : State}, Twin h h' s s' →
    TwinRes h h' (readList s as) (readList s' as) := by
  induction as with
  | nil => exact fun ht => ⟨rfl, ht⟩
  | cons a as ih =>
    exact fun ht => (memRead_twin ht a).bind fun v t t' ht => (ih ht).bind fun vs u u' hu => ⟨rfl, hu⟩

theorem writeList_twin {h h' : List Event} (es : List (BitVec 8 × BitVec 8)) : ∀ {s s' : State}, Twin h h' s s' →
    TwinRes h h' (writeList s es) (writeList s' es) := by
  induction es with
  | nil => exact fun ht => ⟨rfl, ht⟩
  | cons e es ih => exact fun ht => (memWrite_twin ht e.1 e.2).bind fun _ t t' ht => ih ht

/-! ## Bodies in step -/

/-- Every body runs in step, given the operand port it reads: OV for BF_ENCODE, OBUF for LUT_WRITE (R65). -/
theorem opBody_twin {h h' : List Event} {s s' : State} (i : Instr) (ht : Twin h h' s s')
    (hov : (∃ ls, i = .bfEncode ls) → s'.ov = s.ov) (hobuf : i = .lutWrite → s'.obuf = s.obuf) :
    TwinRes h h' (opBody i s) (opBody i s') := by
  have fault : ∀ {f : FaultCode} {x : Word32}, TwinRes h h' (.raise f x s : Res Results) (.raise f x s') :=
    ⟨⟨rfl, rfl⟩, ht⟩
  have done : ∀ {r : Results}, TwinRes h h' (.ok r s) (.ok r s') := ⟨rfl, ht⟩
  cases i with
  | bfDecode ls b =>
    simp only [opBody, bfDecodeBody, ht.cfg]
    split
    · exact fault
    · exact done
  | bfEncode ls =>
    simp only [opBody, bfEncodeBody, ht.cfg, hov ⟨ls, rfl⟩]
    split
    · exact fault
    · split
      · exact fault
      · exact done
  | tachToRpm t =>
    simp only [opBody, tachToRpmBody, ht.cfg]
    exact done
  | rpmToTach r =>
    simp only [opBody, rpmToTachBody, ht.cfg]
    exact done
  | tempDecode msb lsb => exact (readTemp_twin ht msb lsb).bind fun x t t' ht => ⟨rfl, ht⟩
  | tempEncode v =>
    simp only [opBody, encodeTempBody, ht.cfg]
    split
    · exact fault
    · exact done
  | ltempDecode whole frac =>
    simp only [opBody, ltempDecodeBody, ht.cfg]
    exact done
  | ltempEncode v =>
    simp only [opBody, encodeTempBody, ht.cfg]
    split
    · exact fault
    · exact done
  | lutRead =>
    simp only [opBody, lutReadBody, ht.cfg]
    exact (readList_twin _ ht).bind fun vs t t' ht => ⟨rfl, ht⟩
  | lutWrite =>
    simp only [opBody, lutWriteBody, ht.cfg, hobuf rfl]
    exact (writeList_twin _ ht).bind fun _ t t' ht => ⟨rfl, ht⟩
  | lutHystRead =>
    simp only [opBody, lutHystReadBody, ht.cfg]
    exact (memRead_twin ht _).bind fun v t t' ht => ⟨rfl, ht⟩
  | lutHystWrite b =>
    simp only [opBody, lutHystWriteBody, ht.cfg]
    exact (memWrite_twin ht _ b).bind fun _ t t' ht => ⟨rfl, ht⟩
  | fanSpeedGet =>
    simp only [opBody, fanSpeedGetBody, ht.cfg]
    exact (memRead_twin ht _).bind fun v t t' ht => ⟨rfl, ht⟩
  | fanSpeedSet speed =>
    simp only [opBody, fanSpeedSetBody, ht.cfg]
    exact (memWrite_twin ht _ _).bind fun _ t t' ht => ⟨rfl, ht⟩
  | intLimitSet v =>
    simp only [opBody, intLimitSetBody, ht.cfg]
    split
    · exact (memWrite_twin ht _ _).bind fun _ t t' ht => ⟨rfl, ht⟩
    · exact done
  | extTempRead =>
    simp only [opBody, extTempReadBody, ht.cfg]
    exact (memRead_twin ht _).bind fun c t t' ht => (triggerIfStandby_twin ht c).bind fun _ t t' ht =>
      (readPair_twin ht _).bind fun p t t' ht => (readTemp_twin ht p.1 p.2).bind fun x t t' ht => ⟨rfl, ht⟩
  | fanRpmGet => exact (readPair_twin ht _).bind fun p t t' ht => ⟨by rw [ht.cfg], ht⟩
  | minRpmGet => exact (readPair_twin ht _).bind fun p t t' ht => ⟨by rw [ht.cfg], ht⟩
  | minRpmSet r =>
    simp only [opBody, minRpmSetBody, writePair_eq, ht.cfg]
    exact (writeList_twin _ ht).bind fun _ t t' ht => ⟨rfl, ht⟩
  | regRead a => exact (memRead_twin ht a).bind fun v t t' ht => ⟨rfl, ht⟩
  | regWrite a b => exact (memWrite_twin ht a b).bind fun _ t t' ht => ⟨rfl, ht⟩
  | resetDefaults =>
    simp only [opBody, resetDefaultsBody, ht.cfg]
    exact (writeList_twin _ ht).bind fun _ t t' ht => ⟨rfl, ht⟩
  | validate =>
    simp only [opBody, validateBody, ht.cfg]
    exact (readList_twin _ ht).bind fun vs t t' ht => ⟨by rw [ht.cfg], ht⟩

/-- Progresses in step end in states with the same result ports, in step. -/
theorem ended_twin {h h' : List Event} {r r' : Res Results} (hr : TwinRes h h' r r') :
    (ended r').results = (ended r).results ∧ Twin h h' (ended r) (ended r') := by
  cases r with
  | ok v t =>
    cases r' with
    | ok v' t' =>
      obtain ⟨rfl, ht⟩ := hr
      exact ⟨rfl, ht.cfg, ht.mem, ht.latches, ht.env, ht.events⟩
    | raise f x t' => exact hr.elim
  | raise f x t =>
    cases r' with
    | ok v' t' => exact hr.elim
    | raise f' x' t' =>
      obtain ⟨⟨rfl, rfl⟩, ht⟩ := hr
      exact ⟨rfl, ht.cfg, ht.mem, ht.latches, ht.env, ht.events⟩

/-- Settles O13: the two states are in step at the start, so their bodies and ends are. -/
theorem resultsDependOnlyOnTheirInputs : Obligations.ResultsDependOnlyOnTheirInputs := by
  intro i s s' hc hm hl he hov hobuf
  have hstart : Twin s.history s'.history (start s i) (start s' i) :=
    ⟨hc, hm, hl, he, [], (List.append_nil _).symm, (List.append_nil _).symm⟩
  obtain ⟨hres, ht⟩ := ended_twin (opBody_twin i hstart hov hobuf)
  exact ⟨_, _, exec_eq i s, exec_eq i s', hres, ht.mem, ht.latches, ht.env, ht.events⟩

end Sys2Proof.Machine
end

section
/-! PROOF. Frames (R42, R43, R100): the ports no operation writes, the codecs that perform no transaction, and the
registers and latches each bus operation stays within. -/

namespace Sys2Proof.Machine

theorem exec_samePorts {i : Instr} {s t : State} (h : exec i s = .next t) : SamePorts s t := by
  have hfr := opBody_frame i (start s i)
  rw [exec_next h]
  exact ⟨(ended_cfg _).trans hfr.cfg, (ended_cmd _).trans hfr.cmd, (ended_ov _).trans hfr.ov,
    (ended_obuf _).trans hfr.obuf, (ended_moves _).trans hfr.moves, (ended_received _).trans hfr.received⟩

/-! ## The codecs (R100) -/

theorem NoTransaction.refl (s : State) : NoTransaction s s := ⟨rfl, rfl, rfl, rfl, rfl⟩

theorem readTemp_noTransaction (msb lsb : Byte) (s : State) : NoTransaction s (readTemp msb lsb s).state := by
  unfold readTemp
  split
  · exact NoTransaction.refl s
  · exact ⟨rfl, rfl, rfl, rfl, rfl⟩

/-- The body of a codec leaves the register space alone. -/
theorem opBody_noTransaction {i : Instr} (hi : usesBus i = false) (s : State) :
    NoTransaction s (opBody i s).state := by
  have here : NoTransaction s s := NoTransaction.refl s
  cases i with
  | bfDecode ls b =>
    simp only [opBody, bfDecodeBody]
    split <;> exact here
  | bfEncode ls =>
    simp only [opBody, bfEncodeBody]
    split
    · exact here
    · split <;> exact here
  | tachToRpm t => exact here
  | rpmToTach r => exact here
  | tempDecode msb lsb =>
    have hr := readTemp_noTransaction msb lsb s
    simp only [opBody, tempDecodeBody]
    cases e : readTemp msb lsb s <;> rwa [e] at hr
  | tempEncode v =>
    simp only [opBody, encodeTempBody]
    split <;> exact here
  | ltempDecode whole frac => exact here
  | ltempEncode v =>
    simp only [opBody, encodeTempBody]
    split <;> exact here
  | lutRead | lutWrite | lutHystRead | lutHystWrite b | fanSpeedGet | fanSpeedSet speed | intLimitSet v
  | extTempRead | fanRpmGet | minRpmGet | minRpmSet r | regRead a | regWrite a b | resetDefaults | validate =>
    cases hi

/-- Settles O16: the bodies of the codecs perform no transaction, and no end does. -/
theorem codecsPerformNoTransaction : Obligations.CodecsPerformNoTransaction := by
  intro i s t hi h
  obtain ⟨hm, hl, hh, ha, hs⟩ := opBody_noTransaction hi (start s i)
  refine ⟨exec_samePorts h, ?_⟩
  rw [exec_next h]
  exact ⟨(ended_mem _).trans hm, (ended_latches _).trans hl, (ended_history _).trans hh,
    by rw [ended_env, ha, start_env], by rw [ended_env, hs, start_env]⟩

/-! ## What transactions stay within -/

/-- Only the registers rs were stored to, and only latches of pairs that hold an address of ls were touched. -/
structure Footprint (rs ls : List Addr) (s t : State) : Prop where
  cfg : t.cfg = s.cfg
  regs : regsOutside s t rs
  latches : latchesOutside s t ls

theorem Footprint.refl {rs ls : List Addr} (s : State) : Footprint rs ls s s := ⟨rfl, fun _ _ => rfl, fun _ _ => rfl⟩

theorem Footprint.trans {rs ls : List Addr} {s t u : State} (h : Footprint rs ls s t) (g : Footprint rs ls t u) :
    Footprint rs ls s u :=
  ⟨g.cfg.trans h.cfg, fun a ha => (g.regs a ha).trans (h.regs a ha),
    fun p hp => (g.latches p (by rw [h.cfg]; exact hp)).trans (h.latches p hp)⟩

section
variable {rs ls : List Addr}

theorem Footprint.bind {α β : Type} {s : State} {r : Res α} {k : α → State → Res β}
    (hr : Footprint rs ls s r.state) (hk : ∀ v t, r = .ok v t → Footprint rs ls t (k v t).state) :
    Footprint rs ls s (r.bind k).state :=
  Res.bind_keeps (R := Footprint rs ls) Footprint.trans hr hk

/-- A continuation that only builds a value. -/
theorem Footprint.map {α β : Type} {s : State} {r : Res α} {f : α → State → β}
    (hr : Footprint rs ls s r.state) : Footprint rs ls s (r.bind fun v t => .ok (f v t) t).state :=
  hr.bind fun _ t _ => Footprint.refl t

theorem memRead_footprint (s : State) {a : Addr} (ha : a ∈ ls) : Footprint rs ls s (memRead s a).state :=
  ⟨(memRead_frame s a).cfg, fun b _ => regAt_congr (memRead_frame s a).cfg (memRead_mem s a) b,
    fun p hp => memRead_latches s a p (hp a ha)⟩

theorem memWrite_footprint (s : State) {a : Addr} (v : Byte) (hr : a ∈ rs) (hl : a ∈ ls) :
    Footprint rs ls s (memWrite s a v).state := by
  refine ⟨(memWrite_frame s a v).cfg, fun b hb => memWrite_regAt s a v b fun e => hb (e ▸ hr), fun p hp => ?_⟩
  exact (memWrite_latches s a v p).resolve_right fun h => by simp [hp a hl] at h

theorem sleep_footprint (s : State) (ms : Word32) : Footprint rs ls s (sleep s ms) :=
  ⟨rfl, fun _ _ => rfl, fun _ _ => rfl⟩

theorem readTemp_footprint (msb lsb : Byte) (s : State) : Footprint rs ls s (readTemp msb lsb s).state := by
  unfold readTemp
  split
  · exact Footprint.refl s
  · exact ⟨rfl, fun _ _ => rfl, fun _ _ => rfl⟩

theorem readList_footprint (as : List Addr) (h : ∀ a, a ∈ as → a ∈ ls) :
    ∀ s, Footprint rs ls s (readList s as).state := by
  induction as with
  | nil => exact Footprint.refl
  | cons a as ih =>
    intro s
    exact (memRead_footprint s (h a (by simp))).bind fun _ t _ => (ih (fun b hb => h b (by simp [hb])) t).map

theorem writeList_footprint (es : List (BitVec 8 × BitVec 8)) (hr : ∀ e, e ∈ es → e.1 ∈ rs)
    (hl : ∀ e, e ∈ es → e.1 ∈ ls) : ∀ s, Footprint rs ls s (writeList s es).state := by
  induction es with
  | nil => exact Footprint.refl
  | cons e es ih =>
    intro s
    exact (memWrite_footprint s e.2 (hr e (by simp)) (hl e (by simp))).bind fun _ t _ =>
      ih (fun d hd => hr d (by simp [hd])) (fun d hd => hl d (by simp [hd])) t

theorem readPair_footprint {s : State} {p : Pair} (hhi : (pairCfg s.cfg p).hi ∈ ls)
    (hlo : (pairCfg s.cfg p).lo ∈ ls) : Footprint rs ls s (readPair s p).state := by
  rw [readPair_eq_readList]
  refine (readList_footprint _ (fun a ha => ?_) s).map
  rcases mem_pairAddrs.1 ha with rfl | rfl
  · exact hhi
  · exact hlo

/-- An operation stays within its body's footprint. -/
theorem exec_footprint {i : Instr} {s t : State} (h : exec i s = .next t)
    (hb : Footprint rs ls (start s i) (opBody i (start s i)).state) :
    SamePorts s t ∧ regsOutside s t rs ∧ latchesOutside s t ls := by
  refine ⟨exec_samePorts h, ?_⟩
  rw [exec_next h]
  refine ⟨fun a ha => ?_, fun p hp => ?_⟩
  · rw [regAt_congr (ended_cfg _) (ended_mem _)]
    exact hb.regs a ha
  · rw [ended_latches]
    exact hb.latches p hp

end

/-- Settles O17: each body only reads, and reads the addresses named. -/
theorem readsLeaveRegistersUnchanged : Obligations.ReadsLeaveRegistersUnchanged := by
  intro s t
  refine ⟨fun h => exec_footprint h ?_, fun h => exec_footprint h ?_, fun h => exec_footprint h ?_,
    fun h => exec_footprint h ?_, fun h => exec_footprint h ?_, fun a h => exec_footprint h ?_,
    fun h => exec_footprint h ?_⟩
  · exact (readList_footprint _ (fun _ => id) _).map
  · exact (memRead_footprint _ (by simp)).map
  · exact (memRead_footprint _ (by simp)).map
  · exact (readPair_footprint (by simp [pairCfg]) (by simp [pairCfg])).map
  · exact (readPair_footprint (by simp [pairCfg]) (by simp [pairCfg])).map
  · exact (memRead_footprint _ (by simp)).map
  · exact (readList_footprint _ (fun _ => id) _).map

/-! ## The writing operations -/

/-- EXT_TEMP_READ stores to ONE_SHOT when the byte read from CONFIG says standby, and to nothing else (R196). -/
theorem extTempRead_footprint (s : State) :
    Footprint (extTempStores s) [s.cfg.config, s.cfg.oneShot, s.cfg.extTemp.hi, s.cfg.extTemp.lo]
      (start s .extTempRead) (extTempReadBody (start s .extTempRead)).state := by
  refine (memRead_footprint _ (by simp)).bind fun c t ht => ?_
  have hc : t.cfg = s.cfg := (memRead_ok_cfg ht).trans (start_cfg s _)
  have htrigger : Footprint (extTempStores s)
      [s.cfg.config, s.cfg.oneShot, s.cfg.extTemp.hi, s.cfg.extTemp.lo] t (triggerIfStandby c t).state := by
    unfold triggerIfStandby
    split
    next hbit =>
      have hstores : extTempStores s = [s.cfg.oneShot] := by
        rw [hc] at hbit
        rw [start_cfg] at ht
        simp only [extTempStores, ht, hbit, if_true]
      refine (memWrite_footprint t _ ?_ ?_).bind fun _ u _ => sleep_footprint u _
      · simp [hstores, hc]
      · simp [hc]
    · exact Footprint.refl t
  refine htrigger.bind fun _ u hu => ?_
  have hcu : u.cfg = s.cfg := (triggerIfStandby_ok_cfg hu).trans hc
  exact (readPair_footprint (by simp [pairCfg, hcu]) (by simp [pairCfg, hcu])).bind fun p v _ =>
    (readTemp_footprint p.1 p.2 v).map

/-- Settles O18: each body reads and writes only the addresses named. -/
theorem writesLeaveOtherRegistersUnchanged : Obligations.WritesLeaveOtherRegistersUnchanged := by
  intro s t
  refine ⟨fun h => exec_footprint h ?_, fun b h => exec_footprint h ?_, fun v h => exec_footprint h ?_,
    fun v h => exec_footprint h ?_, fun h => exec_footprint h ?_, fun r h => exec_footprint h ?_,
    fun a b h => exec_footprint h ?_, fun h => exec_footprint h ?_⟩
  · exact (writeList_footprint _ (fun _ => List.mem_map_of_mem) (fun _ => List.mem_map_of_mem) _).map
  · exact (memWrite_footprint _ _ (by simp) (by simp)).map
  · exact (memWrite_footprint _ _ (by simp) (by simp)).map
  · rw [opBody, intLimitSetBody, start_cfg]
    cases intLimitAccepts s.cfg.lit v
    · exact Footprint.refl _
    · exact (memWrite_footprint _ _ (by simp) (by simp)).map
  · exact extTempRead_footprint s
  · have hin : ∀ e, e ∈ pairWrites s.cfg.tachLimit (highByte (rpmToTach s.cfg.lit r))
        (lowByte (rpmToTach s.cfg.lit r)) → e.1 ∈ [s.cfg.tachLimit.hi, s.cfg.tachLimit.lo] := by
      unfold pairWrites
      split <;> simp
    simp only [opBody, minRpmSetBody, writePair_eq]
    exact (writeList_footprint _ hin hin _).map
  · exact (memWrite_footprint _ _ (by simp) (by simp)).map
  · exact (writeList_footprint _ (fun _ => List.mem_map_of_mem) (fun _ => List.mem_map_of_mem) _).map

end Sys2Proof.Machine
end

section
/-! PROOF. REG_READ and REG_WRITE (R42 to R46, R220, R221): one read or one write, case by case. -/

namespace Sys2Proof.Machine

/-! ## One read -/

theorem exec_regRead_of_memRead {s t : State} {a : Addr} {v : Byte}
    (h : memRead (start s (.regRead a)) a = .ok v t) : exec (.regRead a) s = .next (finish t (okWord (v.setWidth 32))) :=
  exec_of_ok (by rw [opBody, regReadBody, h, Res.bind_ok])

theorem exec_regRead_of_raise {s t : State} {a : Addr} {f : FaultCode} {x : Word32}
    (h : memRead (start s (.regRead a)) a = .raise f x t) : exec (.regRead a) s = .next (takeFault t f x) :=
  exec_of_raise (by rw [opBody, regReadBody, h, Res.bind_raise])

/-- Settles O19: a read of an RW register gives the byte held, latched or not. -/
theorem regReadReturnsHeldByte : Obligations.RegReadReturnsHeldByte := by
  intro s a ha hok hi
  obtain ⟨t, e, ht⟩ := memRead_rw (s := start s (.regRead a)) ha (answersOk_zero hok) (hi.start _)
  exact ⟨_, exec_regRead_of_memRead e, rfl, ht.history, ht.frame.faults⟩

/-- The latches after a read of an RO register that no latch served. -/
theorem plainReadState_latch_ro {s : State} {a : Addr} (ha : attrOf s.cfg a = .ro) {p : Pair}
    (hp : inPair (pairCfg s.cfg p) a = true) : latchOf (plainReadState s a).latches p =
      if (pairCfg s.cfg p).latching = true ∧ firstAddr (pairCfg s.cfg p) = a then some (s.env.at 0).second
      else none := by
  simp [plainReadState, latchOf_fillLatches, latchOf_clearLatches, hp, otherByte, ha]

/-- Settles O20: such a read gives the drawn byte and fills or clears the latches of the pairs that hold the address. -/
theorem regReadOfReadOnlyIsDraw : Obligations.RegReadOfReadOnlyIsDraw := by
  intro s a ha hok hfree
  have e := memRead_plain (s := start s (.regRead a)) (a := a) (by simp [ha]) (answersOk_zero hok)
    (latchedByte_none hfree)
  refine ⟨_, exec_regRead_of_memRead e, ?_, fun p hp => plainReadState_latch_ro (s := start s _) ha hp⟩
  simp only [plainByte, start_cfg, ha, if_true]
  rfl

/-- A byte latched for one pair's second address alone is the one a read finds. -/
theorem latchedByte_of_unique {c : Cfg} {l : Latches} {p : Pair} {b : Byte} (h : latchOf l p = some b)
    (hu : ∀ q, q ≠ p → secondAddr (pairCfg c q) ≠ secondAddr (pairCfg c p)) :
    latchedByte c l (secondAddr (pairCfg c p)) = some b := by
  cases hl : latchedByte c l (secondAddr (pairCfg c p)) with
  | some d =>
    obtain ⟨q, hq, hd⟩ := latchedByte_some hl
    obtain rfl : q = p := by
      by_contra hne
      exact hu q hne hq
    rw [← hd, h]
  | none =>
    rw [latchedByte, List.findSome?_eq_none_iff] at hl
    have hp := hl p (by cases p <;> simp [allPairs])
    rw [if_pos (beq_self_eq_true _), h] at hp
    cases hp

/-- Settles O21: the latched byte is found and given, and the latch of its pair is cleared. -/
theorem regReadConsumesLatch : Obligations.RegReadConsumesLatch := by
  intro s p b ha hok hb hu
  have e := memRead_latched (s := start s (.regRead (secondAddr (pairCfg s.cfg p)))) ha (answersOk_zero hok)
    (latchedByte_of_unique hb hu)
  refine ⟨_, exec_regRead_of_memRead e, rfl, ?_⟩
  simp [latchOf_clearLatches, inPair_second]

/-- Settles O22: the first read latches the other byte of its sample, and the second read is served from the latch. -/
theorem latchedPairIsOneSample : Obligations.LatchedPairIsOneSample := by
  intro s p hd hlatching h1 h2 hok
  have e1 := memRead_firstRo (s := start s (.regRead (firstAddr (pairCfg s.cfg p)))) p hd h1 (answersOk_zero hok)
  have hlatch := latch_after_first (s := start s (.regRead (firstAddr (pairCfg s.cfg p)))) p h1
  rw [start_cfg, hlatching, if_pos rfl] at hlatch
  refine ⟨_, _, exec_regRead_of_memRead e1, exec_regRead_of_memRead (memRead_latched ?_ ?_
    ((latchedByte_second hd _ p).trans hlatch)), rfl, rfl⟩
  · rw [start_cfg, finish_cfg]
    exact fun hu => by simp [plainReadState, h2] at hu
  · exact (congrArg BusAnswer.fails (Env.at_pop s.env 0)).trans (hok 1 (by decide))

/-! ## One write -/

theorem exec_regWrite_of_memWrite {s t : State} {a : Addr} {v : Byte}
    (h : memWrite (start s (.regWrite a v)) a v = .ok () t) : exec (.regWrite a v) s = .next (finish t okNone) :=
  exec_of_ok (by rw [opBody, regWriteBody, h, Res.bind_ok])

theorem exec_regWrite_of_raise {s t : State} {a : Addr} {v : Byte} {f : FaultCode} {x : Word32}
    (h : memWrite (start s (.regWrite a v)) a v = .raise f x t) :
    exec (.regWrite a v) s = .next (takeFault t f x) :=
  exec_of_raise (by rw [opBody, regWriteBody, h, Res.bind_raise])

/-- Settles O23: an unmapped address raises the fault with the state as it was. -/
theorem unmappedAccessFaults : Obligations.UnmappedAccessFaults := by
  intro s a b ha i hi
  obtain rfl | rfl := hi
  · exact ⟨_, exec_regRead_of_raise (memRead_unmapped ha), rfl, ⟨rfl, rfl, rfl, rfl, rfl⟩, rfl⟩
  · exact ⟨_, exec_regWrite_of_raise (memWrite_unmapped b ha), rfl, ⟨rfl, rfl, rfl, rfl, rfl⟩, rfl⟩

/-- Settles O26, by the RO case of a write. -/
theorem readOnlyWriteRejected : Obligations.ReadOnlyWriteRejected := fun _ _ b ha =>
  ⟨_, exec_regWrite_of_raise (memWrite_ro b ha), rfl, rfl, rfl, rfl⟩

/-- Settles O28, by the locked case of a write. -/
theorem tableRegisterWriteLocked : Obligations.TableRegisterWriteLocked := fun _ _ b ha hok hl hg =>
  ⟨_, exec_regWrite_of_raise (memWrite_locked b ha (answersOk_zero hok) hl hg), rfl, rfl, rfl, rfl⟩

/-- A write of a governed FAN_SETTING that does not fail: the old byte or the new one (R46). -/
theorem memWrite_fanSetting_governed {s : State} (v : Byte) (ha : attrOf s.cfg s.cfg.fanSetting = .rw)
    (hf : (s.env.at 0).fails = false) (hl : isLutAddr s.cfg s.cfg.fanSetting = false) (hg : lutGoverns s = true) :
    ∃ t, memWrite s s.cfg.fanSetting v = .ok () t ∧ BusFrame s t ∧
      (regAt t s.cfg.fanSetting = regAt s s.cfg.fanSetting ∨ regAt t s.cfg.fanSetting = v) ∧
      (∀ x, x ≠ s.cfg.fanSetting → regAt t x = regAt s x) ∧
      t.history = s.history ++ [.write s.cfg.fanSetting v .ok] ∧
      ∀ p, inPair (pairCfg s.cfg p) s.cfg.fanSetting = true → latchOf t.latches p = none := by
  obtain ⟨t, e, hfr, hheld⟩ := memWrite_fanSetting v ha hf hl
  have hothers := memWrite_regAt s s.cfg.fanSetting v
  rw [e] at hothers
  refine ⟨t, e, hfr, (hheld.imp_right And.right).symm, hothers, ?_⟩
  rw [memWrite_governed v ha hf hl rfl hg] at e
  cases e
  exact ⟨rfl, fun p hp => by simp [latchOf_clearLatches, hp]⟩

/-- Settles O25, by the stored and the governed case of a write. -/
theorem regWriteStoresByte : Obligations.RegWriteStoresByte := by
  intro s a b ha hok
  refine ⟨fun hg => ?_, fun hg hl hfan => ?_⟩
  · obtain ⟨t, e, ht⟩ := memWrite_ok (s := start s (.regWrite a b)) b ha (answersOk_zero hok) hg
    refine ⟨_, exec_regWrite_of_memWrite e, rfl, ?_, ht.history, ht.frame.faults, fun p hp => ?_⟩
    · exact (ht.regs a).trans (if_pos rfl)
    · exact (ht.latches p).trans (if_pos hp)
  · subst hfan
    obtain ⟨t, e, hfr, hheld, hothers, hh, hclear⟩ :=
      memWrite_fanSetting_governed (s := start s (.regWrite s.cfg.fanSetting b)) b ha (answersOk_zero hok) hl hg
    exact ⟨_, exec_regWrite_of_memWrite e, rfl, hheld, hothers, hh, hfr.faults, hclear⟩

end Sys2Proof.Machine
end

section
/-! PROOF. What BF_ENCODE gives (R104 to R106): the bits of an assembled byte, the lowest bad slot, and the round trips
between bytes and field values. -/

namespace Sys2Proof.Machine

/-! ## The slots of a vector -/

theorem ovSlot_eq (v : Bytes8) (k : Fin 8) : ovSlot v k.val = v[k] := by
  simp [ovSlot]

/-- A field of a well-formed layout has a slot (R101). -/
theorem slot_lt {l : Layout} {k : Nat} {f : BitField} (h : layoutWf l = true) (hk : l.fields[k]? = some f) : k < 8 := by
  obtain ⟨hlen, -, -, -⟩ := (layoutWf_iff l).1 h
  have := (List.getElem?_eq_some_iff.1 hk).1
  omega

/-! ## The lowest bad slot (R105, R244) -/

/-- Every slot from k on is in its field's domain. -/
def SlotsOk (v : Bytes8) (fs : List BitField) (k : Nat) : Prop :=
  ∀ j f, fs[j]? = some f → inDomain f (ovSlot v (k + j)).toNat = true

theorem slotsOk_cons {v : Bytes8} {f : BitField} {fs : List BitField} {k : Nat} :
    SlotsOk v (f :: fs) k ↔ inDomain f (ovSlot v k).toNat = true ∧ SlotsOk v fs (k + 1) := by
  constructor
  · intro h
    refine ⟨h 0 f rfl, fun j g hg => ?_⟩
    rw [Nat.add_assoc, Nat.add_comm 1 j]
    exact h (j + 1) g hg
  · rintro ⟨h0, h⟩ j g hg
    cases j with
    | zero =>
      cases hg
      exact h0
    | succ j =>
      rw [Nat.add_comm j 1, ← Nat.add_assoc]
      exact h j g hg

theorem badSlot_eq_none_iff (v : Bytes8) (fs : List BitField) :
    ∀ k, badSlot v fs k = none ↔ SlotsOk v fs k := by
  induction fs with
  | nil => exact fun k => ⟨fun _ j f hf => by simp at hf, fun _ => rfl⟩
  | cons f fs ih =>
    intro k
    rw [badSlot, slotsOk_cons, ← ih]
    cases inDomain f (ovSlot v k).toNat <;> simp

/-- The first slot outside its domain is the one reported. -/
theorem badSlot_eq_some {v : Bytes8} {fs : List BitField} {f : BitField} : ∀ {k j : Nat}, fs[j]? = some f →
    inDomain f (ovSlot v (k + j)).toNat = false →
    (∀ i g, i < j → fs[i]? = some g → inDomain g (ovSlot v (k + i)).toNat = true) →
    badSlot v fs k = some (k + j) := by
  induction fs with
  | nil => intro k j hf; simp at hf
  | cons d fs ih =>
    intro k j hf hbad hbefore
    cases j with
    | zero =>
      cases hf
      rw [badSlot, if_neg (by simpa using hbad), Nat.add_zero]
    | succ j =>
      have h0 : inDomain d (ovSlot v k).toNat = true := hbefore 0 d (by omega) rfl
      rw [badSlot, if_pos h0]
      have hshift : ∀ i, k + (i + 1) = k + 1 + i := fun i => by omega
      rw [hshift j] at hbad ⊢
      exact ih hf hbad fun i g hi hg => hshift i ▸ hbefore (i + 1) g (by omega) hg

/-! ## The bits of an assembled byte (R105) -/

theorem orSlots_testBit (v : Bytes8) (fs : List BitField) (i : Nat) : ∀ k x, (orSlots v fs k x).testBit i = true ↔
    x.testBit i = true ∨ ∃ j f, fs[j]? = some f ∧ f.lo ≤ i ∧ (ovSlot v (k + j)).toNat.testBit (i - f.lo) = true := by
  induction fs with
  | nil => intro k x; simp [orSlots]
  | cons f fs ih =>
    intro k x
    rw [orSlots, ih, Nat.testBit_or, Nat.testBit_shiftLeft, Bool.or_eq_true, Bool.and_eq_true, decide_eq_true_eq,
      or_assoc]
    refine or_congr_right ⟨?_, ?_⟩
    · rintro (⟨hlo, hbit⟩ | ⟨j, g, hg, hlo, hbit⟩)
      · exact ⟨0, f, rfl, hlo, hbit⟩
      · exact ⟨j + 1, g, hg, hlo, by rwa [Nat.add_comm j 1, ← Nat.add_assoc]⟩
    · rintro ⟨j, g, hg, hlo, hbit⟩
      cases j with
      | zero =>
        cases hg
        exact .inl ⟨hlo, hbit⟩
      | succ j => exact .inr ⟨j, g, hg, hlo, by rwa [Nat.add_assoc, Nat.add_comm 1 j]⟩

/-- The byte `encode_L` assembles from a vector (R105). -/
def encodeByte (l : Layout) (v : Bytes8) : Byte := BitVec.ofNat 8 (orSlots v l.fields 0 l.forced.toNat)

theorem encodeByte_getLsbD (l : Layout) (v : Bytes8) {i : Nat} (hi : i < 8) :
    (encodeByte l v).getLsbD i = true ↔ l.forced.getLsbD i = true ∨
      ∃ j f, l.fields[j]? = some f ∧ f.lo ≤ i ∧ (ovSlot v j).toNat.testBit (i - f.lo) = true := by
  rw [encodeByte, BitVec.getLsbD_ofNat, decide_eq_true hi, Bool.true_and, orSlots_testBit]
  simp only [Nat.zero_add]
  rfl

/-- At most one entry of a list meets a test that at most one meets. -/
theorem index_unique_of_countP {α : Type} {p : α → Bool} {as : List α} (h : as.countP p ≤ 1) :
    ∀ {j k : Nat} {a b : α}, as[j]? = some a → as[k]? = some b → p a = true → p b = true → j = k := by
  induction as with
  | nil => intro j k a b hj; simp at hj
  | cons d as ih =>
    intro j k a b hj hk ha hb
    have first : ∀ {m : Nat} {x : α}, p d = true → as[m]? = some x → p x = true → False := fun hd hx hpx => by
      have hpos : 0 < as.countP p := List.countP_pos_iff.2 ⟨_, List.mem_of_getElem? hx, hpx⟩
      rw [List.countP_cons, if_pos hd] at h
      omega
    cases j with
    | zero =>
      cases k with
      | zero => rfl
      | succ k =>
        cases hj
        exact (first ha hk hb).elim
    | succ j =>
      cases k with
      | zero =>
        cases hk
        exact (first hb hj ha).elim
      | succ k =>
        have hle : as.countP p ≤ 1 := le_trans (by rw [List.countP_cons]; exact Nat.le_add_right _ _) h
        rw [ih hle hj hk ha hb]

/-- A bit has one field at most (R101 item 1). -/
theorem field_unique {l : Layout} (h : layoutWf l = true) {j k i : Nat} {f g : BitField}
    (hf : l.fields[j]? = some f) (hg : l.fields[k]? = some g) (hi : i < 8) (hfi : fieldHasBit f i = true)
    (hgi : fieldHasBit g i = true) : j = k := by
  obtain ⟨-, -, hdisjoint, -⟩ := (layoutWf_iff l).1 h
  exact index_unique_of_countP (le_trans (Nat.le_add_right _ _) (hdisjoint i hi)) hf hg hfi hgi

theorem lt_of_inDomain {f : BitField} {x : Nat} (h : inDomain f x = true) : x < 2 ^ f.w := by
  simp only [inDomain, Bool.and_eq_true, decide_eq_true_eq] at h
  exact h.1

/-- A slot in its domain sets no bit outside its field. -/
theorem fieldHasBit_of_slot {f : BitField} {x i : Nat} (h : inDomain f x = true) (hlo : f.lo ≤ i)
    (hbit : x.testBit (i - f.lo) = true) : fieldHasBit f i = true := by
  have hlt : i - f.lo < f.w := by
    by_contra hge
    have hsmall : x < 2 ^ (i - f.lo) :=
      (lt_of_inDomain h).trans_le (Nat.pow_le_pow_right (by decide) (by omega))
    rw [Nat.testBit_lt_two_pow hsmall] at hbit
    cases hbit
  simp only [fieldHasBit, Bool.and_eq_true, decide_eq_true_eq]
  omega

section
variable {l : Layout} {v : Bytes8} (hwf : layoutWf l = true) (hv : SlotsOk v l.fields 0)
include hwf hv

/-- In a field's bits the assembled byte has the field's slot. -/
theorem encodeByte_field_bit {k i : Nat} {f : BitField} (hk : l.fields[k]? = some f) (hi : i < f.w) :
    (encodeByte l v).getLsbD (f.lo + i) = (ovSlot v k).toNat.testBit i := by
  have hmem := List.mem_of_getElem? hk
  have h8 : f.lo + i < 8 := by have := field_fits (fieldWf_of_mem hwf hmem); omega
  have hown : fieldHasBit f (f.lo + i) = true := by simp [fieldHasBit, hi]
  rw [Bool.eq_iff_iff, encodeByte_getLsbD l v h8, forced_field_bit hwf hmem hi]
  constructor
  · rintro (hfalse | ⟨j, g, hg, hlo, hbit⟩)
    · cases hfalse
    · have hdom : inDomain g (ovSlot v j).toNat = true := by simpa using hv j g hg
      obtain rfl := field_unique hwf hg hk h8 (fieldHasBit_of_slot hdom hlo hbit) hown
      rw [hg] at hk
      cases hk
      simpa using hbit
  · exact fun hbit => .inr ⟨k, f, hk, by omega, by simpa using hbit⟩

theorem encodeByte_field {k : Nat} {f : BitField} (hk : l.fields[k]? = some f) :
    ((encodeByte l v).extractLsb' f.lo f.w).toNat = (ovSlot v k).toNat := by
  have hdom : inDomain f (ovSlot v k).toNat = true := by simpa using hv k f hk
  apply Nat.eq_of_testBit_eq
  intro i
  rw [BitVec.testBit_toNat, BitVec.getLsbD_extractLsb']
  by_cases hi : i < f.w
  · rw [decide_eq_true hi, Bool.true_and, encodeByte_field_bit hwf hv hk hi]
  · rw [decide_eq_false hi, Bool.false_and, Nat.testBit_lt_two_pow]
    exact (lt_of_inDomain hdom).trans_le (Nat.pow_le_pow_right (by decide) (by omega))

end

theorem encodeByte_forced (l : Layout) (v : Bytes8) : encodeByte l v &&& l.forced = l.forced := by
  apply BitVec.eq_of_getLsbD_eq
  intro i hi
  rw [BitVec.getLsbD_and, Bool.and_eq_right_iff_imp]
  exact fun hf => (encodeByte_getLsbD l v hi).2 (.inl hf)

theorem encodeLayout_of_slotsOk {l : Layout} {v : Bytes8} (hv : SlotsOk v l.fields 0) :
    encodeLayout l v = .ok (encodeByte l v) := by
  rw [encodeLayout, (badSlot_eq_none_iff v l.fields 0).2 hv, encodeByte]

theorem slotsOk_of_encodeLayout {l : Layout} {v : Bytes8} {e : Byte} (h : encodeLayout l v = .ok e) :
    SlotsOk v l.fields 0 ∧ e = encodeByte l v := by
  unfold encodeLayout at h
  split at h
  · cases h
  next hbad =>
    cases h
    exact ⟨(badSlot_eq_none_iff v l.fields 0).1 hbad, rfl⟩

/-! ## BF_ENCODE (R104) -/

theorem exec_bfEncode_ok {s : State} {ls b : Byte} {l : Layout} (hl : layoutOf s.cfg ls = some l)
    (h : encodeLayout l s.ov = .ok b) : exec (.bfEncode ls) s = .next (finish s (okWord (b.setWidth 32))) := by
  rw [← finish_start s (.bfEncode ls)]
  exact exec_of_ok (by simp [opBody, bfEncodeBody, hl, h])

theorem exec_bfEncode_error {s : State} {ls : Byte} {l : Layout} {k : Nat} (hl : layoutOf s.cfg ls = some l)
    (h : encodeLayout l s.ov = .error k) :
    exec (.bfEncode ls) s = .next (takeFault s .invalidOperand (BitVec.ofNat 32 k)) := by
  rw [← takeFault_start s (.bfEncode ls)]
  exact exec_of_raise (by simp [opBody, bfEncodeBody, hl, h])

/-- Settles O30: the assembled byte has FORCED and, in each field's bits, the slot. -/
theorem bfEncodeAssemblesFields : Obligations.BfEncodeAssemblesFields := by
  intro s ls l hl hwf hdom
  have hv : SlotsOk s.ov l.fields 0 := fun j f hf => by simpa using hdom j f hf
  exact ⟨_, encodeByte l s.ov, exec_bfEncode_ok hl (encodeLayout_of_slotsOk hv), rfl, encodeByte_forced l s.ov,
    fun k f hk => encodeByte_field hwf hv hk⟩

/-! ## Operand faults (R103, R104, R244) -/

theorem layoutOf_outside (c : Cfg) {ls : Byte} (h : 6 < ls.toNat) : layoutOf c ls = none := by
  unfold layoutOf
  split
  case h_8 => rfl
  all_goals exact absurd h (by decide)

theorem opBody_layout_outside {s : State} {ls b : Byte} {i : Instr} (h : 6 < ls.toNat)
    (hi : i = .bfDecode ls b ∨ i = .bfEncode ls) :
    opBody i (start s i) = .raise .programmerError (ls.setWidth 32) (start s i) := by
  obtain rfl | rfl := hi
  · simp [opBody, bfDecodeBody, layoutOf_outside _ h]
  · simp [opBody, bfEncodeBody, layoutOf_outside _ h]

/-- Settles O31: no layout has such an id; else the lowest slot outside its domain is found. -/
theorem bitfieldOperandFaults : Obligations.BitfieldOperandFaults := by
  refine ⟨fun s ls b h i hi => ⟨_, exec_of_raise (opBody_layout_outside h hi), rfl, rfl⟩,
    fun s ls l k f hl hk hbad hbefore => ?_⟩
  have hslot : badSlot s.ov l.fields 0 = some k := by
    have hs := badSlot_eq_some (v := s.ov) (k := 0) hk (by simpa using hbad)
      fun i g hi hg => by simpa using hbefore i g hi hg
    rwa [Nat.zero_add] at hs
  exact ⟨_, exec_bfEncode_error hl (by rw [encodeLayout, hslot]), rfl, rfl⟩

/-! ## Round trips (R106) -/

theorem fieldValue_eq (f : BitField) (b : Byte) :
    fieldValue f b = resolveCode f.kind (b.extractLsb' f.lo f.w).toNat := by rw [fieldValue, fieldSlice_eq]

/-- A value in a field's domain is recognised, so it is no fallback's. -/
theorem resolveCode_of_inDomain {f : BitField} {x : Nat} (h : inDomain f x = true) : resolveCode f.kind x = x := by
  simp only [inDomain, Bool.and_eq_true] at h
  cases hk : f.kind with
  | bool => rfl
  | raw => rfl
  | enum codes fb =>
    rw [hk] at h
    exact if_pos h.2

/-- What a field decodes to is in its domain (R102, R105). -/
theorem fieldValue_inDomain {f : BitField} (h : fieldWf f = true) (b : Byte) : inDomain f (fieldValue f b) = true := by
  have hlt := fieldValue_lt h b
  rw [inDomain, decide_eq_true hlt, Bool.true_and]
  cases hk : f.kind with
  | bool => rfl
  | raw => rfl
  | enum codes fb =>
    simp only [fieldWf, hk, Bool.and_eq_true] at h
    simp only [fieldValue, hk, resolveCode]
    split
    · assumption
    · exact h.2.2

theorem decodeLayout_ovSlot {l : Layout} {k : Nat} {f : BitField} (h : layoutWf l = true) (b : Byte)
    (hk : l.fields[k]? = some f) : (ovSlot (decodeLayout l b) k).toNat = fieldValue f b := by
  have h8 := slot_lt h hk
  rw [ovSlot_eq _ ⟨k, h8⟩]
  exact decodeLayout_field h b hk

theorem decodeLayout_slotsOk {l : Layout} (h : layoutWf l = true) (b : Byte) :
    SlotsOk (decodeLayout l b) l.fields 0 := by
  intro k f hk
  rw [Nat.zero_add, decodeLayout_ovSlot h b hk]
  exact fieldValue_inDomain (fieldWf_of_mem h (List.mem_of_getElem? hk)) b

/-- Each field's bits after decoding and encoding a byte. -/
theorem reencode_field {l : Layout} {f : BitField} (h : layoutWf l = true) (b : Byte) (hf : f ∈ l.fields) :
    ((encodeByte l (decodeLayout l b)).extractLsb' f.lo f.w).toNat =
      resolveCode f.kind (b.extractLsb' f.lo f.w).toNat := by
  obtain ⟨k, hk⟩ := List.mem_iff_getElem?.1 hf
  rw [encodeByte_field h (decodeLayout_slotsOk h b) hk, decodeLayout_ovSlot h b hk, fieldValue_eq]

/-- Two bytes with FORCED's bits alike and every field's bits alike are one byte (R101 item 2). -/
theorem eq_of_fields {l : Layout} (h : layoutWf l = true) {b c : Byte}
    (hforced : ∀ i, l.forced.getLsbD i = true → b.getLsbD i = c.getLsbD i)
    (hfields : ∀ f ∈ l.fields, b.extractLsb' f.lo f.w = c.extractLsb' f.lo f.w) : b = c := by
  obtain ⟨-, -, -, hcovers⟩ := (layoutWf_iff l).1 h
  apply BitVec.eq_of_getLsbD_eq
  intro i hi
  cases hf : l.forced.getLsbD i with
  | true => exact hforced i hf
  | false =>
    have hpos : 0 < l.fields.countP fun f => fieldHasBit f i := by
      simpa [bitOwners, hf, Nat.one_le_iff_ne_zero, Nat.pos_iff_ne_zero] using hcovers i hi
    obtain ⟨f, hmem, hbit⟩ := List.countP_pos_iff.1 hpos
    simp only [fieldHasBit, Bool.and_eq_true, decide_eq_true_eq] at hbit
    have hb := congrArg (BitVec.getLsbD · (i - f.lo)) (hfields f hmem)
    simpa [BitVec.getLsbD_extractLsb', show i - f.lo < f.w by omega, show f.lo + (i - f.lo) = i by omega] using hb

/-- When every Enum code is recognised, decoding and encoding a byte sets FORCED and nothing else. -/
theorem reencode_recognised {l : Layout} (h : layoutWf l = true) {b : Byte}
    (hrec : ∀ f ∈ l.fields, ∀ codes fb, f.kind = .enum codes fb → (b.extractLsb' f.lo f.w).toNat ∈ codes) :
    encodeByte l (decodeLayout l b) = b ||| l.forced := by
  refine eq_of_fields h (fun i hf => ?_) fun f hmem => ?_
  · have hset : (encodeByte l (decodeLayout l b)).getLsbD i = true :=
      (encodeByte_getLsbD l _ (BitVec.lt_of_getLsbD hf)).2 (.inl hf)
    rw [hset, BitVec.getLsbD_or, hf, Bool.or_true]
  · have hsame : (encodeByte l (decodeLayout l b)).extractLsb' f.lo f.w = b.extractLsb' f.lo f.w := by
      apply BitVec.eq_of_toNat_eq
      rw [reencode_field h b hmem]
      cases hk : f.kind with
      | bool => rfl
      | raw => rfl
      | enum codes fb => exact if_pos (List.contains_iff_mem.2 (hrec f hmem codes fb hk))
    rw [hsame]
    apply BitVec.eq_of_getLsbD_eq
    intro i hi
    rw [BitVec.getLsbD_extractLsb', BitVec.getLsbD_extractLsb', BitVec.getLsbD_or, forced_field_bit h hmem hi,
      Bool.or_false]

/-- Decoding what a vector encodes to gives the vector, its unused slots being 0. -/
theorem redecode {l : Layout} {v : Bytes8} (h : layoutWf l = true) (hv : SlotsOk v l.fields 0)
    (hunused : ∀ k : Fin 8, l.fields.length ≤ k.val → v[k] = 0#8) : decodeLayout l (encodeByte l v) = v := by
  apply Vector.ext
  intro k h8
  change (decodeLayout l (encodeByte l v))[(⟨k, h8⟩ : Fin 8)] = v[(⟨k, h8⟩ : Fin 8)]
  cases hk : l.fields[k]? with
  | none => rw [decodeLayout_unused _ hk, hunused ⟨k, h8⟩ (List.getElem?_eq_none_iff.1 hk)]
  | some f =>
    have hdom : inDomain f (ovSlot v k).toNat = true := by simpa using hv k f hk
    apply BitVec.eq_of_toNat_eq
    rw [decodeLayout_field h _ hk, fieldValue_eq, encodeByte_field h hv hk, resolveCode_of_inDomain hdom]
    exact congrArg BitVec.toNat (ovSlot_eq v ⟨k, h8⟩)

/-- Settles O32: field by field, an encoded byte holds the slots, and a decoded slot the field. -/
theorem layoutRoundTrip : Obligations.LayoutRoundTrip := by
  intro l h
  refine ⟨fun b => ⟨_, encodeLayout_of_slotsOk (decodeLayout_slotsOk h b), encodeByte_forced l _, fun f hf => ?_,
    reencode_recognised h⟩, fun v e he hunused => ?_⟩
  · rw [reencode_field h b hf]
    cases hk : f.kind with
    | bool => rfl
    | raw => rfl
    | enum codes fb => simp [resolveCode]
  · obtain ⟨hv, rfl⟩ := slotsOk_of_encodeLayout he
    exact redecode h hv hunused

end Sys2Proof.Machine
end

section
/-! PROOF. The laws of the reciprocal pair (R125), from the quotients of both converters. -/

namespace Sys2Proof.Machine

/-- The count a speed of at least RPM_MIN converts to, as a quotient (R122). -/
theorem rpmToTach_source_of_le {r : BitVec 32} (h : 83 ≤ r.toNat) :
    (rpmToTach Literals.source r).toNat = 5400000 / r.toNat := by
  rw [rpmToTach_source, Nat.max_eq_left h]

theorem tachToRpm_source_of_pos {t : BitVec 16} (h : 1 ≤ t.toNat) :
    (tachToRpm Literals.source t).toNat = 5400000 / t.toNat := by
  rw [tachToRpm_source, Nat.max_eq_left h]

/-- Both converters fall as their operand rises (R125(a), (b)). -/
theorem tachToRpm_antitone {t u : BitVec 16} (h : t.toNat ≤ u.toNat) :
    (tachToRpm Literals.source u).toNat ≤ (tachToRpm Literals.source t).toNat := by
  rw [tachToRpm_source, tachToRpm_source]
  exact Nat.div_le_div_left (max_le_max_right 1 h) (by omega)

theorem rpmToTach_antitone {r q : BitVec 32} (h : r.toNat ≤ q.toNat) :
    (rpmToTach Literals.source q).toNat ≤ (rpmToTach Literals.source r).toNat := by
  rw [rpmToTach_source, rpmToTach_source]
  exact Nat.div_le_div_left (max_le_max_right 83 h) (by omega)

/-- There and back in the range of the counts: the quotient by the quotient. -/
theorem roundTrip_source {r : BitVec 32} (hlo : 83 ≤ r.toNat) (hhi : r.toNat ≤ 5400000) :
    (tachToRpm Literals.source (rpmToTach Literals.source r)).toNat = 5400000 / (5400000 / r.toNat) := by
  have ht := rpmToTach_source_of_le hlo
  have hpos : 1 ≤ (rpmToTach Literals.source r).toNat := by
    rw [ht]
    exact Nat.div_pos hhi (by omega)
  rw [tachToRpm_source_of_pos hpos, ht]

/-- Dividing twice gives back at least the divisor. -/
theorem le_div_div {n r : Nat} (hr : 0 < r) (hrn : r ≤ n) : r ≤ n / (n / r) :=
  (Nat.le_div_iff_mul_le (Nat.div_pos hrn hr)).2 (Nat.mul_div_le n r)

/-- Dividing twice gives at most one more than the divisor, when the remainder is less than twice the quotient. -/
theorem div_div_le_succ {n r : Nat} (hm : n % r < 2 * (n / r)) : n / (n / r) ≤ r + 1 := by
  have hq : 0 < n / r := by omega
  rw [← Nat.lt_succ_iff, Nat.div_lt_iff_lt_mul hq]
  calc n = r * (n / r) + n % r := (Nat.div_add_mod n r).symm
    _ < r * (n / r) + 2 * (n / r) := by omega
    _ = (r + 1).succ * (n / r) := by rw [← Nat.add_mul]

/-- Up to 3286 the quotient is at least half the divisor; from there to 3318 the remainders are small enough. -/
theorem remainder_lt_twice_quotient {r : Nat} (hr : 0 < r) (h : r ≤ 3318) : 5400000 % r < 2 * (5400000 / r) := by
  rcases le_or_gt r 3286 with hle | hgt
  · have hq : 5400000 / 3286 ≤ 5400000 / r := Nat.div_le_div_left hle hr
    have hm : 5400000 % r < r := Nat.mod_lt _ hr
    omega
  · have hsmall : ∀ d < 32, 5400000 % (3287 + d) < 2 * (5400000 / (3287 + d)) := by decide
    obtain ⟨d, rfl⟩ := Nat.exists_eq_add_of_le hgt
    exact hsmall d (by omega)

/-- Settles O35: (a) and (b) are the quotients' monotony, (c) and (d) bound the quotient by a quotient. -/
theorem reciprocalLaws : Obligations.ReciprocalLaws := by
  refine ⟨fun t u => tachToRpm_antitone, fun r q => rpmToTach_antitone, fun r hlo hhi => ?_, fun r hlo hhi => ?_,
    by decide, fun r h => ?_⟩
  · beta_reduce
    rw [roundTrip_source hlo hhi]
    exact le_div_div (by omega) hhi
  · rcases hlo.eq_or_lt with h82 | hlo
    · obtain rfl : r = 82#32 := BitVec.eq_of_toNat_eq h82.symm
      decide
    · beta_reduce
      rw [roundTrip_source hlo (by omega)]
      have hle := le_div_div (n := 5400000) (r := r.toNat) (by omega) (by omega)
      exact ⟨div_div_le_succ (remainder_lt_twice_quotient (by omega) hhi), by omega⟩
  · have hzero : (rpmToTach Literals.source r).toNat = 0 := by
      rw [rpmToTach_source_of_le (by omega), Nat.div_eq_of_lt h]
    exact (tachToRpm_source _).trans (by rw [hzero]; rfl)

end Sys2Proof.Machine
end

section
/-! PROOF. binary32 in exact arithmetic (R11): the magnitudes of the patterns, the grid a magnitude is rounded on, and
that rounding gives a nearest pattern, the even one of two. -/

namespace Sys2Proof.Machine

/-! ## Magnitudes of patterns -/

/-- The magnitude bits of a pattern: all but the sign. -/
def magBits (b : Word32) : Nat := b.toNat % 2 ^ 31

/-- The magnitude that magnitude bits spell, in units of 2^-149. -/
def magOf (m : Nat) : Nat := if m / 2 ^ 23 = 0 then m % 2 ^ 23 else (2 ^ 23 + m % 2 ^ 23) * 2 ^ (m / 2 ^ 23 - 1)

/-- The magnitude bits of the infinities, the greatest that are no NaN's. -/
def infBits : Nat := 255 * 2 ^ 23

theorem f32Exp_eq (b : Word32) : f32Exp b = magBits b / 2 ^ 23 := by
  unfold f32Exp magBits
  omega

theorem f32Frac_eq (b : Word32) : f32Frac b = magBits b % 2 ^ 23 := by
  unfold f32Frac magBits
  omega

theorem f32Mag_eq (b : Word32) : f32Mag b = magOf (magBits b) := by
  rw [f32Mag, f32Exp_eq, f32Frac_eq, magOf]

theorem isNaN_eq_false_iff (b : Word32) : isNaN b = false ↔ magBits b ≤ infBits := by
  rw [isNaN, f32Exp_eq, f32Frac_eq, Bool.and_eq_false_iff, beq_eq_false_iff_ne, bne_eq_false_iff_eq]
  unfold magBits infBits
  omega

/-- A significand j on the grid of 2^k: the pattern it has there spells j * 2^k. -/
theorem magOf_grid {j k : Nat} (hj : j ≤ 2 ^ 24) (hk : k = 0 ∨ 2 ^ 23 ≤ j) : magOf (k * 2 ^ 23 + j) = j * 2 ^ k := by
  unfold magOf
  rcases Nat.lt_or_ge j (2 ^ 23) with hlow | hhigh
  · obtain rfl : k = 0 := hk.resolve_right (by omega)
    rw [if_pos (by omega)]
    omega
  · rcases hj.lt_or_eq with hlt | rfl
    · have hdiv : (k * 2 ^ 23 + j) / 2 ^ 23 = k + 1 := by omega
      have hmod : 2 ^ 23 + (k * 2 ^ 23 + j) % 2 ^ 23 = j := by omega
      rw [if_neg (by omega), hdiv, hmod, Nat.add_sub_cancel]
    · have hdiv : (k * 2 ^ 23 + 2 ^ 24) / 2 ^ 23 = k + 2 := by omega
      have hmod : 2 ^ 23 + (k * 2 ^ 23 + 2 ^ 24) % 2 ^ 23 = 2 ^ 23 := by omega
      rw [if_neg (by omega), hdiv, hmod]
      calc 2 ^ 23 * 2 ^ (k + 2 - 1) = 2 ^ 23 * (2 ^ k * 2) := by rw [← Nat.pow_succ]; rfl
        _ = 2 ^ 24 * 2 ^ k := by ring

theorem magOf_infBits : magOf infBits = 2 ^ 23 * 2 ^ 254 := by
  have h := magOf_grid (j := 2 ^ 23) (k := 254) (by decide) (.inr le_rfl)
  exact h

/-- A pattern lies below the binade of 2^(23 + k), or on the grid of 2^k. -/
theorem magOf_below_or_grid (m k : Nat) : magOf m < 2 ^ 23 * 2 ^ k ∨ ∃ i, magOf m = i * 2 ^ k := by
  rcases Nat.lt_or_ge k (m / 2 ^ 23) with hk | hk
  · right
    obtain ⟨d, hd⟩ := Nat.exists_eq_add_of_lt hk
    refine ⟨(2 ^ 23 + m % 2 ^ 23) * 2 ^ d, ?_⟩
    rw [magOf, if_neg (by omega), hd, Nat.add_sub_cancel, Nat.mul_assoc, ← Nat.pow_add, Nat.add_comm d k]
  · left
    have hfrac : m % 2 ^ 23 < 2 ^ 23 := Nat.mod_lt _ (by decide)
    rw [magOf]
    split
    · exact hfrac.trans_le (Nat.le_mul_of_pos_right _ (Nat.two_pow_pos k))
    · obtain ⟨e, he⟩ : ∃ e, m / 2 ^ 23 = e + 1 := Nat.exists_eq_succ_of_ne_zero ‹_›
      rw [he, Nat.add_sub_cancel]
      calc (2 ^ 23 + m % 2 ^ 23) * 2 ^ e < 2 ^ 24 * 2 ^ e := Nat.mul_lt_mul_of_pos_right (by omega) (Nat.two_pow_pos e)
        _ = 2 ^ 23 * 2 ^ (e + 1) := by rw [Nat.pow_succ]; ring
        _ ≤ 2 ^ 23 * 2 ^ k := Nat.mul_le_mul_left _ (Nat.pow_le_pow_right (by decide) (by omega))

/-- No pattern that is no NaN spells more than the infinities. -/
theorem magOf_le_inf {m : Nat} (h : m ≤ infBits) : magOf m ≤ 2 ^ 23 * 2 ^ 254 := by
  rcases h.lt_or_eq with hlt | rfl
  · have hexp : m / 2 ^ 23 ≤ 254 := by unfold infBits at hlt; omega
    rcases magOf_below_or_grid m 254 with hbelow | ⟨i, -⟩
    · exact hbelow.le
    · have hfrac : m % 2 ^ 23 < 2 ^ 23 := Nat.mod_lt _ (by decide)
      rw [magOf]
      split
      · exact hfrac.le.trans (Nat.le_mul_of_pos_right _ (Nat.two_pow_pos 254))
      · calc (2 ^ 23 + m % 2 ^ 23) * 2 ^ (m / 2 ^ 23 - 1) ≤ 2 ^ 24 * 2 ^ 253 :=
              Nat.mul_le_mul (by omega) (Nat.pow_le_pow_right (by decide) (by omega))
          _ = 2 ^ 23 * 2 ^ 254 := by norm_num
  · exact magOf_infBits.le

/-! ## Rounding on a grid -/

/-- Rounding goes down below the half, up above it, and to the even one at the half. -/
theorem roundHalfEven_cases (n d : Nat) :
    (roundHalfEven n d = n / d ∧ 2 * (n % d) < d) ∨ (roundHalfEven n d = n / d + 1 ∧ d < 2 * (n % d)) ∨
      ((roundHalfEven n d = n / d ∨ roundHalfEven n d = n / d + 1) ∧ 2 * (n % d) = d ∧
        roundHalfEven n d % 2 = 0) := by
  simp only [roundHalfEven]
  split
  · omega
  · split
    · omega
    · omega

theorem roundHalfEven_bounds (n d : Nat) : n / d ≤ roundHalfEven n d ∧ roundHalfEven n d ≤ n / d + 1 := by
  rcases roundHalfEven_cases n d with h | h | h <;> omega

/-- The rounded multiple of d is at most half of d away from n. -/
theorem roundHalfEven_error {n d : Nat} (hd : 0 < d) : 2 * |(d * roundHalfEven n d : Int) - n| ≤ d := by
  have hn : (n : Int) = d * (n / d : Nat) + (n % d : Nat) := by exact_mod_cast (Nat.div_add_mod n d).symm
  have hr : n % d < d := Nat.mod_lt n hd
  have hup : (d * (n / d + 1 : Nat) : Int) = d * (n / d : Nat) + d := by push_cast; ring
  rw [Int.abs_eq_natAbs]
  rcases roundHalfEven_cases n d with ⟨e, h⟩ | ⟨e, h⟩ | ⟨e | e, h, -⟩ <;> rw [e] <;> omega

/-- The rounded multiple of d is nearest to n among all, and even when another is as near. -/
theorem roundHalfEven_nearest {n d : Nat} (hd : 0 < d) (i : Int) :
    |(d * roundHalfEven n d : Int) - n| ≤ |d * i - n| ∧
      (|(d * roundHalfEven n d : Int) - n| = |d * i - n| → i ≠ roundHalfEven n d → roundHalfEven n d % 2 = 0) := by
  have hn : (n : Int) = d * (n / d : Nat) + (n % d : Nat) := by exact_mod_cast (Nat.div_add_mod n d).symm
  have hr : n % d < d := Nat.mod_lt n hd
  have hup : (d * (n / d + 1 : Nat) : Int) = d * (n / d : Nat) + d := by push_cast; ring
  have hi : (d * i : Int) ≤ d * (n / d : Nat) - d ∨ i = (n / d : Nat) ∨ i = (n / d + 1 : Nat) ∨
      (d * (n / d : Nat) + 2 * d : Int) ≤ d * i := by
    rcases lt_or_ge i (n / d : Nat) with hlt | hge
    · left
      nlinarith
    · rcases lt_or_ge ((n / d + 1 : Nat) : Int) i with hgt | hle
      · right; right; right
        have hge2 : ((n / d : Nat) : Int) + 2 ≤ i := by omega
        nlinarith
      · omega
  simp only [Int.abs_eq_natAbs]
  rcases roundHalfEven_cases n d with ⟨e, h⟩ | ⟨e, h⟩ | ⟨e | e, h, heven⟩
  all_goals
    rw [e] at *
    rcases hi with hi | rfl | rfl | hi <;> omega

end Sys2Proof.Machine
end

section
/-! PROOF. Rounding a rational to binary32 (R11): the grid it uses, the exact and the nearest pattern, and values under
clamping. -/

namespace Sys2Proof.Machine

/-! ## The grid a quotient is rounded on -/

theorem f32One_eq : f32One = 2 ^ 149 := rfl

/-- The exponent of the grid num/den is rounded on. -/
def roundShift (num den : Nat) : Nat := f32Shift (num * f32One / den)

/-- The significand num/den is rounded to. -/
def roundSig (num den : Nat) : Nat := roundHalfEven (num * f32One) (den * 2 ^ roundShift num den)

theorem f32RoundMag_eq (num den : Nat) :
    f32RoundMag num den = min (roundShift num den * 2 ^ 23 + roundSig num den) infBits := rfl

theorem f32Shift_bounds (q : Nat) :
    q < 2 ^ 24 * 2 ^ f32Shift q ∧ (f32Shift q = 0 ∨ 2 ^ 23 * 2 ^ f32Shift q ≤ q) := by
  unfold f32Shift
  split
  next h => exact ⟨by simpa using h, .inl rfl⟩
  next h =>
    have hlog : 23 ≤ Nat.log2 q := (Nat.le_log2 (by omega)).2 (by omega)
    obtain ⟨k, hk⟩ := Nat.exists_eq_add_of_le hlog
    rw [hk, Nat.add_sub_cancel_left, ← Nat.pow_add, ← Nat.pow_add]
    refine ⟨?_, .inr ?_⟩
    · rw [← Nat.log2_lt (by omega)]
      omega
    · rw [← Nat.le_log2 (by omega)]
      omega

/-- A magnitude below the binade of 2^(24 + k) needs no coarser grid than that of 2^k. -/
theorem f32Shift_le {q k : Nat} (h : q < 2 ^ 24 * 2 ^ k) : f32Shift q ≤ k := by
  rcases (f32Shift_bounds q).2 with h0 | hlo
  · omega
  · have hlt : 2 ^ (23 + f32Shift q) < 2 ^ (24 + k) := by
      rw [Nat.pow_add, Nat.pow_add]
      exact hlo.trans_lt h
    have := (Nat.pow_lt_pow_iff_right (by decide)).1 hlt
    omega

theorem roundSig_bounds (num den : Nat) :
    roundSig num den ≤ 2 ^ 24 ∧ (roundShift num den = 0 ∨ 2 ^ 23 ≤ roundSig num den) := by
  obtain ⟨hhi, hlo⟩ := f32Shift_bounds (num * f32One / den)
  obtain ⟨hdown, hup⟩ := roundHalfEven_bounds (num * f32One) (den * 2 ^ roundShift num den)
  have hpos : 0 < 2 ^ roundShift num den := Nat.two_pow_pos _
  rw [← Nat.div_div_eq_div_mul] at hdown hup
  have hquot : num * f32One / den / 2 ^ roundShift num den < 2 ^ 24 := (Nat.div_lt_iff_lt_mul hpos).2 hhi
  exact ⟨hup.trans hquot, hlo.imp_right fun h => ((Nat.le_div_iff_mul_le hpos).2 h).trans hdown⟩

/-- What rounding spells: the significand on its grid, or an infinity past the greatest finite value. -/
theorem f32RoundMag_cases (num den : Nat) :
    (roundShift num den ≤ 253 ∧ f32RoundMag num den = roundShift num den * 2 ^ 23 + roundSig num den ∧
      magOf (f32RoundMag num den) = roundSig num den * 2 ^ roundShift num den) ∨
    (254 ≤ roundShift num den ∧ f32RoundMag num den = infBits) := by
  obtain ⟨hsig, hnormal⟩ := roundSig_bounds num den
  rw [f32RoundMag_eq]
  rcases Nat.lt_or_ge (roundShift num den) 254 with hk | hk
  · have hle : roundShift num den * 2 ^ 23 + roundSig num den ≤ infBits := by unfold infBits; omega
    rw [Nat.min_eq_left hle]
    exact .inl ⟨by omega, rfl, magOf_grid hsig hnormal⟩
  · refine .inr ⟨hk, Nat.min_eq_right ?_⟩
    unfold infBits
    omega

theorem f32RoundMag_le_inf (num den : Nat) : f32RoundMag num den ≤ infBits := Nat.min_le_right _ _

/-! ## Nearest, ties to even -/

/-- How far, times den, magnitude x is from num/den. -/
def distTo (num den : Nat) (x : Int) : Int := |den * x - (num * f32One : Nat)|

/-- The significand is nearest on its grid, and even when another is as near. -/
theorem roundSig_nearest {num den : Nat} (hd : 0 < den) (i : Nat) :
    distTo num den (roundSig num den * 2 ^ roundShift num den : Nat) ≤
        distTo num den (i * 2 ^ roundShift num den : Nat) ∧
      (distTo num den (roundSig num den * 2 ^ roundShift num den : Nat) =
        distTo num den (i * 2 ^ roundShift num den : Nat) → i ≠ roundSig num den → roundSig num den % 2 = 0) := by
  have hgrid : ∀ j : Nat, distTo num den (j * 2 ^ roundShift num den : Nat) =
      |((den * 2 ^ roundShift num den : Nat) : Int) * j - (num * f32One : Nat)| := fun j => by
    unfold distTo
    congr 2
    push_cast
    ring
  rw [hgrid, hgrid]
  obtain ⟨hle, htie⟩ := roundHalfEven_nearest (n := num * f32One) (Nat.mul_pos hd (Nat.two_pow_pos _)) i
  exact ⟨hle, fun h hne => htie h (by exact_mod_cast hne)⟩

/-- num/den is at least the bottom of the binade its grid belongs to. -/
theorem bottom_le {num den : Nat} (hk : roundShift num den ≠ 0) :
    den * (2 ^ 23 * 2 ^ roundShift num den) ≤ num * f32One := by
  obtain ⟨-, hlo⟩ := f32Shift_bounds (num * f32One / den)
  calc den * (2 ^ 23 * 2 ^ roundShift num den) ≤ den * (num * f32One / den) :=
        Nat.mul_le_mul_left _ (hlo.resolve_left hk)
    _ ≤ num * f32One := Nat.mul_div_le _ _

/-- Below a magnitude that num/den reaches, the smaller is the farther. -/
theorem distTo_lt_of_lt {num den x y : Nat} (hd : 0 < den) (hxy : x < y) (hy : den * y ≤ num * f32One) :
    distTo num den y < distTo num den x := by
  have hlt : den * x < den * y := Nat.mul_lt_mul_of_pos_left hxy hd
  simp only [distTo, Int.abs_eq_natAbs, ← Int.natCast_mul]
  omega

/-- The rounded magnitude is nearest among those of all patterns that are no NaN, and even when another is as near. -/
theorem f32RoundMag_nearest {num den m : Nat} (hd : 0 < den) (hm : m ≤ infBits) :
    distTo num den (magOf (f32RoundMag num den)) ≤ distTo num den (magOf m) ∧
      (distTo num den (magOf (f32RoundMag num den)) = distTo num den (magOf m) →
        magOf m ≠ magOf (f32RoundMag num den) → f32RoundMag num den % 2 = 0) := by
  rcases f32RoundMag_cases num den with ⟨-, hbits, hval⟩ | ⟨hk, hinf⟩
  · rw [hval, hbits]
    by_cases hgrid : ∃ i, magOf m = i * 2 ^ roundShift num den
    · obtain ⟨i, hi⟩ := hgrid
      obtain ⟨hle, htie⟩ := roundSig_nearest (num := num) hd i
      rw [hi]
      refine ⟨hle, fun h hne => ?_⟩
      have heven := htie h fun e => hne (by rw [e])
      omega
    · have hk : roundShift num den ≠ 0 := fun hk => hgrid ⟨magOf m, by rw [hk, Nat.pow_zero, Nat.mul_one]⟩
      have hbelow := (magOf_below_or_grid m (roundShift num den)).resolve_right hgrid
      have hfar := (roundSig_nearest (num := num) hd (2 ^ 23)).1.trans_lt (distTo_lt_of_lt hd hbelow (bottom_le hk))
      exact ⟨hfar.le, fun h => absurd h hfar.ne⟩
  · rw [hinf, magOf_infBits]
    have hreach : den * (2 ^ 23 * 2 ^ 254) ≤ num * f32One :=
      le_trans (Nat.mul_le_mul_left _ (Nat.mul_le_mul_left _ (Nat.pow_le_pow_right (by decide) hk)))
        (bottom_le (by omega))
    rcases (magOf_le_inf hm).lt_or_eq with hlt | heq
    · have hfar := distTo_lt_of_lt hd hlt hreach
      exact ⟨hfar.le, fun h => absurd h hfar.ne⟩
    · rw [heq]
      exact ⟨le_rfl, fun _ h => absurd rfl h⟩

/-- Half a grid step at most is lost, in the range of the finite values. -/
theorem f32RoundMag_error {num den : Nat} (hd : 0 < den) (hk : roundShift num den ≤ 253) :
    2 * distTo num den (magOf (f32RoundMag num den)) ≤ den * 2 ^ roundShift num den := by
  obtain ⟨-, -, hval⟩ := (f32RoundMag_cases num den).resolve_right (by omega)
  have herr := roundHalfEven_error (n := num * f32One) (Nat.mul_pos hd (Nat.two_pow_pos (roundShift num den)))
  rw [hval]
  unfold distTo
  push_cast at herr ⊢
  rwa [mul_comm (roundSig num den : Int), ← mul_assoc]

theorem roundHalfEven_mul {d : Nat} (hd : 0 < d) (i : Nat) : roundHalfEven (d * i) d = i := by
  simp [roundHalfEven, hd]

/-- A magnitude of at most 24 significant bits is rounded to itself. -/
theorem f32RoundMag_exact {num den c e : Nat} (hd : 0 < den) (hc : c < 2 ^ 24) (he : e ≤ 253)
    (h : num * f32One = den * (c * 2 ^ e)) : magOf (f32RoundMag num den) = c * 2 ^ e := by
  have hquot : num * f32One / den = c * 2 ^ e := by rw [h, Nat.mul_div_cancel_left _ hd]
  have hk : roundShift num den ≤ e := by
    rw [roundShift, hquot]
    exact f32Shift_le (Nat.mul_lt_mul_of_pos_right hc (Nat.two_pow_pos e))
  obtain ⟨d, rfl⟩ := Nat.exists_eq_add_of_le hk
  obtain ⟨-, -, hval⟩ := (f32RoundMag_cases num den).resolve_right (by omega)
  have hmul : num * f32One = den * 2 ^ roundShift num den * (c * 2 ^ d) := by rw [h, Nat.pow_add]; ring
  have hsig : roundSig num den = c * 2 ^ d := by
    rw [roundSig, hmul]
    exact roundHalfEven_mul (Nat.mul_pos hd (Nat.two_pow_pos _)) _
  rw [hval, hsig, Nat.pow_add]
  ring

/-! ## The rounded pattern -/

theorem f32OfRatio_toNat (neg : Bool) (num den : Nat) :
    (f32OfRatio neg num den).toNat = (if neg then 2 ^ 31 else 0) + f32RoundMag num den := by
  have hle := f32RoundMag_le_inf num den
  unfold infBits at hle
  rw [f32OfRatio, BitVec.toNat_ofNat]
  split <;> omega

theorem magBits_f32OfRatio (neg : Bool) (num den : Nat) :
    magBits (f32OfRatio neg num den) = f32RoundMag num den := by
  have hle := f32RoundMag_le_inf num den
  unfold infBits at hle
  rw [magBits, f32OfRatio_toNat]
  split <;> omega

theorem f32OfRatio_notNaN (neg : Bool) (num den : Nat) : isNaN (f32OfRatio neg num den) = false := by
  rw [isNaN_eq_false_iff, magBits_f32OfRatio]
  exact f32RoundMag_le_inf num den

theorem f32Sign_f32OfRatio (neg : Bool) (num den : Nat) : f32Sign (f32OfRatio neg num den) = neg := by
  have hle := f32RoundMag_le_inf num den
  unfold infBits at hle
  rw [f32Sign, BitVec.getLsbD, f32OfRatio_toNat, Nat.testBit_eq_decide_div_mod_eq]
  cases neg
  · rw [if_neg Bool.false_ne_true, decide_eq_false_iff_not]
    omega
  · rw [if_pos rfl, decide_eq_true_eq]
    omega

theorem f32Val_f32OfRatio (neg : Bool) (num den : Nat) :
    f32Val (f32OfRatio neg num den) = (if neg then -1 else 1) * (magOf (f32RoundMag num den) : Int) := by
  rw [f32Val, f32Sign_f32OfRatio, f32Mag_eq, magBits_f32OfRatio]
  cases neg <;> simp

end Sys2Proof.Machine
end

section
/-! PROOF. The rounding statement (R11), with signs. -/

namespace Sys2Proof.Machine

theorem f32Val_eq (x : Word32) : f32Val x = (if f32Sign x then -1 else 1) * (magOf (magBits x) : Int) := by
  rw [f32Val, f32Mag_eq]
  cases f32Sign x <;> simp

/-- The distance of a value from a signed quotient: that of its magnitude when the signs agree, the sum when they
differ. -/
theorem abs_sub_signed (num den : Nat) (neg sign : Bool) (x : Nat) :
    |(den : Int) * ((if sign then -1 else 1) * (x : Int)) - (if neg then -1 else 1) * num * f32One| =
      distTo num den (if sign = neg then (x : Int) else -x) := by
  have flip : ∀ a b : Int, |a - b| = |-a - -b| := fun a b => by rw [← abs_neg, neg_sub, neg_sub_neg]
  unfold distTo
  rw [Nat.cast_mul]
  cases neg <;> cases sign
  · simp
  · simp
  · rw [flip]
    simp
  · rw [flip]
    simp

/-- A value of the other sign is no nearer than its magnitude is. -/
theorem distTo_le_neg (num den x : Nat) : distTo num den x ≤ distTo num den (-x) := by
  simp only [distTo, mul_neg, ← Int.natCast_mul, Int.abs_eq_natAbs]
  omega

/-- Only for 0 on one side are a magnitude and its negative as near. -/
theorem zero_of_distTo_neg {num den x : Nat} (hd : 0 < den) (h : distTo num den x = distTo num den (-x)) :
    x = 0 ∨ num = 0 := by
  simp only [distTo, mul_neg, ← Int.natCast_mul, Int.abs_eq_natAbs] at h
  have hprod : den * x = 0 ∨ num * f32One = 0 := by omega
  refine hprod.imp (fun hx => (Nat.mul_eq_zero.1 hx).resolve_left (by omega))
    fun hn => (Nat.mul_eq_zero.1 hn).resolve_right (by decide)

theorem magOf_round_zero {den : Nat} (hd : 0 < den) : magOf (f32RoundMag 0 den) = 0 :=
  (f32RoundMag_exact (c := 0) (e := 0) hd (by decide) (by decide) (by simp)).trans (Nat.zero_mul _)

theorem getLsbD_zero_f32OfRatio {num den : Nat} (neg : Bool) (h : f32RoundMag num den % 2 = 0) :
    (f32OfRatio neg num den).getLsbD 0 = false := by
  rw [BitVec.getLsbD, f32OfRatio_toNat, Nat.testBit_zero, decide_eq_false_iff_not]
  split <;> omega

/-- Settles O36: a value of the quotient's sign is compared by its magnitude, and one of the other sign is no nearer
than its magnitude. -/
theorem roundingIsNearestEven : Obligations.RoundingIsNearestEven := by
  intro neg num den x hd hx
  obtain ⟨hle, htie⟩ := f32RoundMag_nearest (num := num) hd ((isNaN_eq_false_iff x).1 hx)
  refine ⟨f32OfRatio_notNaN neg num den, ?_⟩
  rw [f32Val_f32OfRatio, f32Val_eq x, abs_sub_signed, abs_sub_signed, if_pos rfl]
  by_cases hsign : f32Sign x = neg
  · rw [if_pos hsign, hsign]
    exact ⟨hle, fun h hne => getLsbD_zero_f32OfRatio neg (htie h fun e => hne (by rw [e]))⟩
  · rw [if_neg hsign]
    refine ⟨hle.trans (distTo_le_neg num den _), fun h hne => getLsbD_zero_f32OfRatio neg ?_⟩
    have hsame := le_antisymm hle ((distTo_le_neg num den (magOf (magBits x))).trans_eq h.symm)
    refine htie hsame fun e => hne ?_
    have hzero : magOf (magBits x) = 0 := by
      rcases zero_of_distTo_neg hd (hsame.symm.trans h) with h0 | rfl
      · exact h0
      · rw [e, magOf_round_zero hd]
    rw [← e, hzero]
    simp

end Sys2Proof.Machine
end

section
/-! PROOF. The modern temperature codec (R141 to R146, R153): readings in eighths, the grid the encoder floors to, and
the sentinel guard. -/

namespace Sys2Proof.Machine

/-! ## Readings are exact (R141) -/

/-- c eighths of a degree, few enough for 24 bits, are a binary32 exactly. -/
theorem f32OfEighths_val {c : Int} (hc : c.natAbs < 2 ^ 24) : 8 * f32Val (f32OfEighths c) = c * f32One := by
  have hexact : magOf (f32RoundMag c.natAbs 8) = c.natAbs * 2 ^ 146 :=
    f32RoundMag_exact (by decide) hc (by decide) (by rw [f32One_eq]; omega)
  rw [f32OfEighths, f32Val_f32OfRatio, hexact, f32One_eq]
  by_cases hneg : c < 0
  · rw [decide_eq_true hneg, if_pos rfl]
    omega
  · rw [decide_eq_false hneg, if_neg Bool.false_ne_true]
    omega

theorem toNat_div_32 (lsb : Byte) : lsb.toNat / 32 = (lsb.extractLsb' 5 3).toNat := by
  have := lsb.isLt
  rw [BitVec.extractLsb'_toNat, Nat.shiftRight_eq_div_pow]
  omega

theorem tempEighths_eq (msb lsb : Byte) : tempEighths msb lsb = 8 * msb.toInt + (lsb.extractLsb' 5 3).toNat := by
  rw [tempEighths, toNat_div_32]

theorem tempEighths_bounds (msb lsb : Byte) : -1024 ≤ tempEighths msb lsb ∧ tempEighths msb lsb ≤ 1023 := by
  have hlo := msb.le_toInt
  have hhi := msb.toInt_lt
  have := (lsb.extractLsb' 5 3).isLt
  rw [tempEighths_eq]
  omega

theorem reading_val (msb lsb : Byte) :
    8 * f32Val (f32OfEighths (tempEighths msb lsb)) = tempEighths msb lsb * f32One := by
  obtain ⟨hlo, hhi⟩ := tempEighths_bounds msb lsb
  exact f32OfEighths_val (by omega)

/-! ## NaN patterns (R153) -/

theorem nanBits_isNaN (sign : Bool) (payload : BitVec 23) : isNaN (nanBits sign payload) = true := by
  have := payload.isLt
  rw [← Bool.not_eq_false, isNaN_eq_false_iff, magBits, nanBits, BitVec.toNat_ofNat, infBits]
  split <;> split <;> omega

/-! ## TEMP_DECODE (R142) -/

/-- A sentinel's reading: a NaN, and the fault's code, with one NaN pattern drawn. -/
def sentinelReading (e : Env) (d : DiodeStatus) : Results :=
  { Results.zero with status := diodeCode d, r32 := e.nan }

theorem readTemp_ok {s : State} {msb lsb : Byte} (h : diodeStatus s.cfg.lit msb lsb = .ok) :
    readTemp msb lsb s = .ok (f32OfEighths (tempEighths msb lsb), statusOk) s := by
  rw [readTemp, h]

theorem readTemp_sentinel {s : State} {msb lsb : Byte} {d : DiodeStatus}
    (h : diodeStatus s.cfg.lit msb lsb = d) (hd : d ≠ .ok) :
    readTemp msb lsb s = .ok (s.env.nan, diodeCode d) { s with env := s.env.popNaN } := by
  rw [readTemp, h]
  cases d
  · exact absurd rfl hd
  · rfl
  · rfl

theorem exec_tempDecode_ok {s : State} {msb lsb : Byte} (h : diodeStatus s.cfg.lit msb lsb = .ok) :
    exec (.tempDecode msb lsb) s = .next (finish s (okWord (f32OfEighths (tempEighths msb lsb)))) := by
  rw [← finish_start s (.tempDecode msb lsb)]
  exact exec_of_ok (by rw [opBody, tempDecodeBody, readTemp_ok (s := start s _) h]; rfl)

theorem exec_tempDecode_sentinel {s : State} {msb lsb : Byte} {d : DiodeStatus}
    (h : diodeStatus s.cfg.lit msb lsb = d) (hd : d ≠ .ok) :
    exec (.tempDecode msb lsb) s = .next (finish { s with env := s.env.popNaN } (sentinelReading s.env d)) := by
  rw [← finish_start { s with env := s.env.popNaN } (.tempDecode msb lsb)]
  exact exec_of_ok (by rw [opBody, tempDecodeBody, readTemp_sentinel (s := start s _) h hd]; rfl)

theorem Env.nan_isNaN (e : Env) : isNaN e.nan = true := nanBits_isNaN _ _

theorem diodeStatus_source {l : Literals} (h : l = Literals.source) (msb lsb : Byte) :
    diodeStatus l msb lsb = if msb = 0x7F#8 ∧ lsb = 0x00#8 then .openCircuit
      else if msb = 0x7F#8 ∧ lsb = 0xE0#8 then .shortCircuit else .ok := by
  subst h
  rfl

theorem popNaN_noTransaction (s : State) (r : Results) :
    NoTransaction s (finish { s with env := s.env.popNaN } r) := ⟨rfl, rfl, rfl, rfl, rfl⟩

/-- Settles O37: the two sentinels draw a NaN, and any other pair's eighths are exact. -/
theorem tempDecodeResult : Obligations.TempDecodeResult := by
  intro s msb lsb hlit
  have hd := diodeStatus_source hlit msb lsb
  by_cases hopen : msb = 0x7F#8 ∧ lsb = 0x00#8
  · rw [if_pos hopen] at hd
    refine ⟨_, exec_tempDecode_sentinel hd nofun, rfl, popNaN_noTransaction s _, rfl, ?_⟩
    rw [if_pos hopen]
    exact ⟨rfl, Env.nan_isNaN _⟩
  · rw [if_neg hopen] at hd
    by_cases hshort : msb = 0x7F#8 ∧ lsb = 0xE0#8
    · rw [if_pos hshort] at hd
      refine ⟨_, exec_tempDecode_sentinel hd nofun, rfl, popNaN_noTransaction s _, rfl, ?_⟩
      rw [if_neg hopen, if_pos hshort]
      exact ⟨rfl, Env.nan_isNaN _⟩
    · rw [if_neg hshort] at hd
      refine ⟨_, exec_tempDecode_ok hd, rfl, finish_noTransaction s _, rfl, ?_⟩
      rw [if_neg hopen, if_neg hshort]
      refine ⟨rfl, f32OfRatio_notNaN _ _ _, ?_⟩
      rw [← tempEighths_eq]
      exact reading_val msb lsb

/-! ## TEMP_ENCODE (R143 to R145) -/

theorem exec_encode_ok {s : State} {i : Instr} {enc : Literals → Word32 → Byte × Byte} {v : Word32}
    (hi : opBody i = encodeTempBody enc v) (h : isNaN v = false) :
    exec i s = .next (finish s (okPair (enc s.cfg.lit v))) := by
  rw [← finish_start s i]
  exact exec_of_ok (by rw [hi, encodeTempBody, if_neg (by simp [h])]; rfl)

theorem exec_encode_nan {s : State} {i : Instr} {enc : Literals → Word32 → Byte × Byte} {v : Word32}
    (hi : opBody i = encodeTempBody enc v) (h : isNaN v = true) :
    exec i s = .next (takeFault s .invalidOperand 0#32) := by
  rw [← takeFault_start s i]
  exact exec_of_raise (by rw [hi, encodeTempBody, if_pos h])

/-- Settles O39, by the NaN branch of the encoders' one body. -/
theorem encodersRejectNaN : Obligations.EncodersRejectNaN := by
  intro s v h i hi
  obtain rfl | rfl := hi
  · exact ⟨_, exec_encode_nan rfl h, rfl, rfl⟩
  · exact ⟨_, exec_encode_nan rfl h, rfl, rfl⟩

/-- The pair of c eighths, with the sentinel guard at 127.0 (R143, R144). -/
def gridPair (c : Int) : Byte × Byte :=
  (BitVec.ofInt 8 (c / 8), if c = 1016 then 0x20#8 else BitVec.ofNat 8 ((c % 8).toNat * 32))

theorem f32Val_tempMin : f32Val Literals.source.tempMin = -64 * f32One := by decide
theorem f32Val_tempMax : f32Val Literals.source.tempMax = 127 * f32One + 3 * f32One / 4 := by decide

/-- The clamped value of TEMP_ENCODE's operand (R143). -/
def tempClamped (v : Word32) : Int := max (-64 * f32One) (min (f32Val v) (127 * f32One + 3 * f32One / 4))

theorem tempGrid_source (v : Word32) : tempGrid Literals.source v = 8 * tempClamped v / (f32One : Int) := by
  have hle : (-64 * f32One : Int) ≤ 127 * f32One + 3 * f32One / 4 := by decide
  rw [tempGrid, clampInt, f32Val_tempMin, f32Val_tempMax, tempClamped, max_comm, max_min_distrib_left,
    max_eq_right hle]

/-- The grid value is the floor of the clamped eighths (R143, D41). -/
theorem tempGrid_floor (v : Word32) : -512 ≤ tempGrid Literals.source v ∧ tempGrid Literals.source v ≤ 1022 ∧
    tempGrid Literals.source v * f32One ≤ 8 * tempClamped v ∧
    8 * tempClamped v < (tempGrid Literals.source v + 1) * f32One := by
  rw [tempGrid_source, tempClamped, f32One_eq]
  omega

theorem ofNat_lsb_eq_zero (c : Int) : BitVec.ofNat 8 ((c % 8).toNat * 32) = 0#8 ↔ c % 8 = 0 := by
  rw [← BitVec.toNat_inj, BitVec.toNat_ofNat, BitVec.toNat_ofNat]
  omega

theorem ofInt_eq_7F {m : Int} (hlo : -128 ≤ m) (hhi : m ≤ 127) : BitVec.ofInt 8 m = 0x7F#8 ↔ m = 127 := by
  rw [← BitVec.toInt_inj, BitVec.toInt_ofInt, show (0x7F#8).toInt = 127 from rfl, Int.bmod_eq_of_le]
  · omega
  · omega

theorem tempEncode_source (v : Word32) :
    tempEncode Literals.source v = gridPair (tempGrid Literals.source v) := by
  obtain ⟨hlo, hhi, -, -⟩ := tempGrid_floor v
  have hguard : (BitVec.ofInt 8 (tempGrid Literals.source v / 8) = Literals.source.sentinelMsb ∧
      BitVec.ofNat 8 ((tempGrid Literals.source v % 8).toNat * 32) = Literals.source.openLsb) ↔
      tempGrid Literals.source v = 1016 := by
    rw [show Literals.source.sentinelMsb = 0x7F#8 from rfl, show Literals.source.openLsb = 0x00#8 from rfl,
      ofInt_eq_7F (by omega) (by omega), ofNat_lsb_eq_zero]
    omega
  simp only [tempEncode, gridPair]
  by_cases h : tempGrid Literals.source v = 1016
  · rw [if_pos (hguard.2 h), if_pos h]
  · rw [if_neg (mt hguard.1 h), if_neg h]

/-- Settles O38: the operand's grid value is the floor, and its pair is the guarded one. -/
theorem tempEncodeFloorsToEighths : Obligations.TempEncodeFloorsToEighths := by
  intro s v hlit hv one x
  obtain ⟨hlo, hhi, hdown, hup⟩ := tempGrid_floor v
  refine ⟨_, tempGrid Literals.source v, exec_encode_ok (enc := tempEncode) rfl hv, hlo, hhi, hdown, hup, ?_⟩
  rw [finish_results, hlit, tempEncode_source]
  rfl

/-! ## The sentinel guard (R144) and the round trip (R146) -/

theorem gridPair_msb {c : Int} (hlo : -512 ≤ c) (hhi : c ≤ 1022) : (gridPair c).1 = 0x7F#8 ↔ 1016 ≤ c := by
  rw [gridPair, ofInt_eq_7F (by omega) (by omega)]
  omega

/-- No grid value in range has a sentinel's pair: 1016 is guarded, and 1023 is past the range. -/
theorem gridPair_notSentinel {c : Int} (hlo : -512 ≤ c) (hhi : c ≤ 1022) :
    gridPair c ≠ (0x7F#8, 0x00#8) ∧ gridPair c ≠ (0x7F#8, 0xE0#8) := by
  by_cases hc : 1016 ≤ c
  · interval_cases c <;> decide
  · have hmsb : (gridPair c).1 ≠ 0x7F#8 := mt (gridPair_msb hlo hhi).1 hc
    exact ⟨fun e => hmsb (by rw [e]), fun e => hmsb (by rw [e])⟩

/-- Settles O40: the values in [127.0, 127.125) have the guarded grid value, and no grid value has a sentinel's pair. -/
theorem sentinelGuard : Obligations.SentinelGuard := by
  refine ⟨fun v hv hlo hhi => ?_, ?_, fun v _ => ?_⟩
  · have hgrid : tempGrid Literals.source v = 1016 := by
      rw [tempGrid_source, tempClamped, f32One_eq] at *
      omega
    rw [tempEncode_source, hgrid]
    rfl
  · exact reading_val 0x7F#8 0x20#8
  · obtain ⟨hlo, hhi, -, -⟩ := tempGrid_floor v
    rw [tempEncode_source]
    exact gridPair_notSentinel hlo hhi

/-- The pair of a reading's eighths, not guarded, is the pair read, its five low bits being 0. -/
theorem gridPair_tempEighths {msb lsb : Byte} (hlow : lsb.extractLsb' 0 5 = 0#5)
    (hguard : tempEighths msb lsb ≠ 1016) : gridPair (tempEighths msb lsb) = (msb, lsb) := by
  have hlow' : lsb.toNat % 32 = 0 := by simpa using congrArg BitVec.toNat hlow
  have hlt := lsb.isLt
  have hdiv : tempEighths msb lsb / 8 = msb.toInt := by unfold tempEighths; omega
  have hmod : (tempEighths msb lsb % 8).toNat * 32 = lsb.toNat := by unfold tempEighths; omega
  rw [gridPair, if_neg hguard, hdiv, hmod, BitVec.ofInt_toInt, BitVec.ofNat_toNat, BitVec.setWidth_eq]

/-- The grid value of an exact reading in the encodable range is its eighths. -/
theorem tempGrid_reading {c : Int} (hlo : -512 ≤ c) (hhi : c ≤ 1022) :
    tempGrid Literals.source (f32OfEighths c) = c := by
  have hval := f32OfEighths_val (c := c) (by omega)
  rw [f32One_eq] at hval
  rw [tempGrid_source, tempClamped, f32One_eq]
  omega

theorem toInt_eq_127 {b : Byte} : b.toInt = 127 ↔ b = 0x7F#8 := by
  rw [← BitVec.toInt_inj]
  rfl

/-- A pair whose eighths are 127.0's, or past the encoder's range, is a sentinel, its five low bits being 0. -/
theorem sentinel_of_eighths {msb lsb : Byte} (hlow : lsb.extractLsb' 0 5 = 0#5)
    (hc : tempEighths msb lsb = 1016 ∨ tempEighths msb lsb = 1023) :
    msb = 0x7F#8 ∧ (lsb = 0x00#8 ∨ lsb = 0xE0#8) := by
  have hlow' : lsb.toNat % 32 = 0 := by simpa using congrArg BitVec.toNat hlow
  have hlt := lsb.isLt
  have hhi := msb.toInt_lt
  unfold tempEighths at hc
  refine ⟨toInt_eq_127.1 (by omega), ?_⟩
  rw [← BitVec.toNat_inj, ← BitVec.toNat_inj]
  simp only [BitVec.toNat_ofNat]
  omega

/-- Settles O41: the reading is exact, so its grid value is its eighths, whose pair is the one read. -/
theorem modernRoundTrip : Obligations.ModernRoundTrip := by
  intro s msb lsb hlit hmsb hlow hsentinel
  have hne : ¬(tempEighths msb lsb = 1016 ∨ tempEighths msb lsb = 1023) :=
    mt (sentinel_of_eighths hlow) hsentinel
  obtain ⟨-, hle⟩ := tempEighths_bounds msb lsb
  have hge : -512 ≤ tempEighths msb lsb := by unfold tempEighths; omega
  have hd : diodeStatus s.cfg.lit msb lsb = .ok := by
    rw [diodeStatus_source hlit, if_neg (fun h => hsentinel ⟨h.1, .inl h.2⟩),
      if_neg (fun h => hsentinel ⟨h.1, .inr h.2⟩)]
  refine ⟨_, _, exec_tempDecode_ok hd, exec_encode_ok (enc := tempEncode) rfl (f32OfRatio_notNaN _ _ _), ?_⟩
  have hpair : tempEncode Literals.source (f32OfEighths (tempEighths msb lsb)) = (msb, lsb) := by
    rw [tempEncode_source, tempGrid_reading hge (by omega), gridPair_tempEighths hlow (by omega)]
  rw [finish_results, finish_cfg, hlit]
  exact congrArg okPair hpair

end Sys2Proof.Machine
end

section
/-! PROOF. The legacy temperature codec (R148 to R152): the sum rounded once, the cascade on the exact remainder, and
the round trip, whose rounding error stays within the thresholds' margins. -/

namespace Sys2Proof.Machine

/-! ## LTEMP_DECODE (R148, R149) -/

theorem exec_ltempDecode (s : State) (whole frac : Byte) :
    exec (.ltempDecode whole frac) s = .next (finish s (okWord (ltempDecode s.cfg.lit whole frac))) := by
  rw [← finish_start s (.ltempDecode whole frac)]
  exact exec_of_ok rfl

/-- The reading in hundredths of a degree, with the source's weights (R148). -/
def legacyHundredths (whole frac : Byte) : Nat :=
  100 * whole.toNat + (if frac.getLsbD 7 then 50 else 0) + (if frac.getLsbD 6 then 25 else 0) +
    (if frac.getLsbD 5 then 15 else 0)

theorem ltempDecode_source (whole frac : Byte) :
    ltempDecode Literals.source whole frac = f32OfRatio false (legacyHundredths whole frac) 100 := by
  rw [ltempDecode, legacyFraction, legacyHundredths, Nat.add_assoc, Nat.add_assoc, Nat.add_assoc]
  rfl

/-- Settles O42, by the source's weights. -/
theorem ltempDecodeRoundsOnce : Obligations.LtempDecodeRoundsOnce := by
  intro s whole frac hlit hundredths
  refine ⟨_, exec_ltempDecode s whole frac, ?_⟩
  rw [finish_results, hlit, ltempDecode_source]
  rfl

/-! ## LTEMP_ENCODE (R150, R151) -/

theorem legacyMax_source : legacyMax Literals.source = 0x437FE666#32 := by decide

/-- The clamped value of LTEMP_ENCODE's operand (R150). -/
def legacyClamped (v : Word32) : Int := max 0 (min (f32Val v) (f32Val 0x437FE666#32))

theorem clampInt_legacy (v : Word32) :
    clampInt (f32Val v) 0 (f32Val (legacyMax Literals.source)) = legacyClamped v := by
  have hle : (0 : Int) ≤ f32Val 0x437FE666#32 := by decide
  rw [legacyMax_source, clampInt, legacyClamped, max_comm, max_min_distrib_left, max_eq_right hle]

/-- The flags of a remainder for three thresholds, each weight subtracted before the next test (R150). -/
def cascadeWith (t7 t6 t5 r : Int) : Bool × Bool × Bool :=
  let b7 : Bool := decide (t7 < r)
  let r6 : Int := if b7 then r - f32One / 2 else r
  let b6 : Bool := decide (t6 < r6)
  let r5 : Int := if b6 then r6 - f32One / 4 else r6
  (b7, b6, decide (t5 < r5))

/-- The cascade with the source's thresholds. -/
def legacyCascade (r : Int) : Bool × Bool × Bool :=
  cascadeWith (f32Val 0x3EE147AE#32) (f32Val 0x3E428F5C#32) (f32Val 0x3D8F5C29#32) r

/-- A step of the cascade on a remainder in hundredths of its unit, the weight being d of them. -/
theorem legacyStep_hundredths {r d : Int} {threshold : Word32} {weight : Nat}
    (h : (weight * f32One : Int) = 100 * d) : legacyStep (100 * r) threshold weight =
      (decide (f32Val threshold < r), 100 * if decide (f32Val threshold < r) then r - d else r) := by
  have hiff : 100 * f32Val threshold < 100 * r ↔ f32Val threshold < r := by omega
  unfold legacyStep
  by_cases hlt : f32Val threshold < r
  · rw [if_pos (hiff.2 hlt), decide_eq_true hlt, if_pos rfl, h, mul_sub]
  · rw [if_neg (mt hiff.1 hlt), decide_eq_false hlt, if_neg Bool.false_ne_true]

theorem legacyStep_flag (r : Int) (threshold : Word32) (weight : Nat) :
    (legacyStep (100 * r) threshold weight).1 = decide (f32Val threshold < r) := by
  have hiff : 100 * f32Val threshold < 100 * r ↔ f32Val threshold < r := by omega
  unfold legacyStep
  by_cases hlt : f32Val threshold < r
  · rw [if_pos (hiff.2 hlt), decide_eq_true hlt]
  · rw [if_neg (mt hiff.1 hlt), decide_eq_false hlt]

theorem legacyFlags_source (r : Int) : legacyFlags Literals.source (100 * r) = legacyCascade r := by
  have h7 := fun th r => legacyStep_hundredths (r := r) (d := f32One / 2) (threshold := th)
    (weight := Literals.source.legacyWeight7) (by decide)
  have h6 := fun th r => legacyStep_hundredths (r := r) (d := f32One / 4) (threshold := th)
    (weight := Literals.source.legacyWeight6) (by decide)
  unfold legacyFlags
  rw [h7]
  simp only []
  rw [h6]
  exact congrArg (fun b => (_, _, b)) (legacyStep_flag _ _ _)

/-- The whole degrees of the clamped value and the cascade on its remainder are the encoded pair. -/
theorem ltempEncode_source {v : Word32} {w r : Int} (h : legacyClamped v = w * f32One + r) (h0 : 0 ≤ r)
    (h1 : r < f32One) : ltempEncode Literals.source v = (BitVec.ofInt 8 w, flagByte (legacyCascade r)) := by
  have hw : legacyClamped v / f32One = w := by
    rw [h, f32One_eq] at *
    omega
  have hr : legacyClamped v - w * f32One = r := by omega
  simp only [ltempEncode, clampInt_legacy, hw, hr, legacyFlags_source]

/-- Settles O43: the remainder is that of the division by one degree. -/
theorem ltempEncodeCascades : Obligations.LtempEncodeCascades := by
  intro s v hlit hv
  have hone : (0 : Int) < f32One := by decide
  have hdiv : legacyClamped v = legacyClamped v / f32One * f32One + legacyClamped v % f32One := by
    rw [mul_comm]
    exact (Int.mul_ediv_add_emod _ _).symm
  have h0 := Int.emod_nonneg (legacyClamped v) hone.ne'
  have h1 := Int.emod_lt_of_pos (legacyClamped v) hone
  refine ⟨_, _, _, exec_encode_ok (enc := ltempEncode) rfl hv, hdiv, h0, h1, ?_⟩
  rw [finish_results, hlit, ltempEncode_source hdiv h0 h1]
  rfl

/-! ## The round trip (R152) -/

/-- The encoder's upper clamp is a rounding step below 255.9. -/
theorem legacyMax_close : (25590 * f32One : Int) - 50 * 2 ^ 133 ≤ 100 * f32Val 0x437FE666#32 := by decide

/-- The rounded reading is within half of 2^-16 degrees of the exact one. -/
theorem legacyReading_close (whole frac : Byte) :
    2 * |100 * f32Val (ltempDecode Literals.source whole frac) - legacyHundredths whole frac * f32One| ≤
      100 * 2 ^ 133 := by
  have hlt : legacyHundredths whole frac ≤ 25590 := by
    have := whole.isLt
    unfold legacyHundredths
    split <;> split <;> split <;> omega
  have hshift : roundShift (legacyHundredths whole frac) 100 ≤ 133 := by
    refine f32Shift_le ((Nat.div_lt_iff_lt_mul (by decide)).2 ?_)
    rw [f32One_eq]
    omega
  have herr := f32RoundMag_error (num := legacyHundredths whole frac) (den := 100) (by decide) (by omega)
  have hstep : (2 : Int) ^ roundShift (legacyHundredths whole frac) 100 ≤ 2 ^ 133 :=
    pow_le_pow_right₀ (by decide) hshift
  rw [ltempDecode_source, f32Val_f32OfRatio, if_neg Bool.false_ne_true, one_mul]
  unfold distTo at herr
  push_cast at herr
  linarith

/-- Whole degrees are a binary32 exactly. -/
theorem legacyReading_whole {whole frac : Byte} (h : legacyHundredths whole frac = 100 * whole.toNat) :
    f32Val (ltempDecode Literals.source whole frac) = whole.toNat * f32One := by
  have hexact := f32RoundMag_exact (num := 100 * whole.toNat) (den := 100) (c := whole.toNat) (e := 149) (by decide)
    (by have := whole.isLt; omega) (by decide) (by rw [f32One_eq, Nat.mul_assoc])
  rw [ltempDecode_source, f32Val_f32OfRatio, h, hexact, if_neg Bool.false_ne_true, one_mul, f32One_eq, Nat.cast_mul]

/-- The fraction byte of three flags. -/
theorem flagByte_bits {frac : Byte} (hlow : frac.extractLsb' 0 5 = 0#5) :
    flagByte (frac.getLsbD 7, frac.getLsbD 6, frac.getLsbD 5) = frac := by
  revert hlow
  revert frac
  decide

/-- The exact binary32 thresholds lie between what the smaller weights reach and the weight tested (R150). -/
theorem thresholds_between :
    (43 * f32One < 100 * f32Val 0x3EE147AE#32 ∧ 100 * f32Val 0x3EE147AE#32 < 45 * f32One) ∧
    (18 * f32One < 100 * f32Val 0x3E428F5C#32 ∧ 100 * f32Val 0x3E428F5C#32 < 20 * f32One) ∧
    6 * f32One < 100 * f32Val 0x3D8F5C29#32 ∧ 100 * f32Val 0x3D8F5C29#32 < 8 * f32One := by decide

/-- x hundredths of a degree are within the rounding error of f. -/
def CloseTo (x : Int) (f : Nat) : Prop := 2 * |100 * x - f * f32One| ≤ 100 * 2 ^ 133

theorem closeTo_iff (x : Int) (f : Nat) :
    CloseTo x f ↔ f * f32One - 50 * 2 ^ 133 ≤ 100 * x ∧ 100 * x ≤ f * f32One + 50 * 2 ^ 133 := by
  unfold CloseTo
  rw [Int.abs_eq_natAbs]
  omega

section
variable {x : Int} {b : Bool} {weight rest : Nat} (hx : CloseTo x ((if b then weight else 0) + rest))
include hx

/-- A threshold between the rest and the weight finds the flag of a remainder close to their sum. -/
theorem flag_of_close {threshold : Int} (hlo : ((rest + 1) * f32One : Int) < 100 * threshold)
    (hhi : 100 * threshold < (weight - 1) * f32One) : decide (threshold < x) = b := by
  have herr : (50 * 2 ^ 133 : Int) < f32One := by decide
  have hrest : (0 : Int) ≤ rest * f32One := by positivity
  obtain ⟨hxlo, hxhi⟩ := (closeTo_iff _ _).1 hx
  push_cast at hxlo hxhi
  cases b
  · rw [if_neg Bool.false_ne_true] at hxhi
    rw [decide_eq_false_iff_not, not_lt]
    linarith
  · rw [if_pos rfl] at hxlo
    rw [decide_eq_true_iff]
    linarith

/-- Without the flag's weight the remainder is close to the rest. -/
theorem rest_of_close {d : Int} (hd : (weight * f32One : Int) = 100 * d) : CloseTo (if b then x - d else x) rest := by
  obtain ⟨hxlo, hxhi⟩ := (closeTo_iff _ _).1 hx
  push_cast at hxlo hxhi
  rw [closeTo_iff]
  cases b
  · rw [if_neg Bool.false_ne_true] at hxlo hxhi ⊢
    constructor <;> linarith
  · rw [if_pos rfl] at hxlo hxhi ⊢
    constructor <;> linarith

end

/-- The hundredths of a fraction's flags (R148). -/
def flagHundredths (b7 b6 b5 : Bool) : Nat :=
  (if b7 then 50 else 0) + ((if b6 then 25 else 0) + ((if b5 then 15 else 0) + 0))

/-- The cascade finds the flags of a remainder close to their weights' sum, for thresholds near the source's. -/
theorem cascadeWith_close {t7 t6 t5 r : Int} {b7 b6 b5 : Bool}
    (h7 : 43 * f32One < 100 * t7 ∧ 100 * t7 < 45 * f32One) (h6 : 18 * f32One < 100 * t6 ∧ 100 * t6 < 20 * f32One)
    (h5 : 6 * f32One < 100 * t5 ∧ 100 * t5 < 8 * f32One) (h : CloseTo r (flagHundredths b7 b6 b5)) :
    cascadeWith t7 t6 t5 r = (b7, b6, b5) := by
  have hone : (0 : Int) < f32One := by decide
  have r7 := rest_of_close (d := f32One / 2) h (by decide)
  have r6 := rest_of_close (d := f32One / 4) r7 (by decide)
  have e7 : decide (t7 < r) = b7 := flag_of_close h
    (by cases b6 <;> cases b5 <;> simp <;> linarith) (by push_cast; linarith)
  have e6 := flag_of_close (threshold := t6) r7 (by cases b5 <;> simp <;> linarith) (by push_cast; linarith)
  have e5 := flag_of_close (threshold := t5) r6 (by push_cast; linarith) (by push_cast; linarith)
  simp only [cascadeWith, e7, e6, e5]

/-- The flags' hundredths are none, or leave room for the rounding error on both sides of the whole degree. -/
theorem flagHundredths_slack (b7 b6 b5 : Bool) :
    flagHundredths b7 b6 b5 = 0 ∨ 15 ≤ flagHundredths b7 b6 b5 ∧ flagHundredths b7 b6 b5 ≤ 90 := by
  revert b7 b6 b5
  decide

/-- The fraction byte's hundredths. -/
def fracHundredths (frac : Byte) : Nat := flagHundredths (frac.getLsbD 7) (frac.getLsbD 6) (frac.getLsbD 5)

theorem legacyHundredths_eq (whole frac : Byte) :
    legacyHundredths whole frac = 100 * whole.toNat + fracHundredths frac := by
  simp only [legacyHundredths, fracHundredths, flagHundredths, Nat.add_zero, Nat.add_assoc]

/-- Clamping keeps a reading close to its hundredths when the upper bound does not cut below them. -/
theorem closeTo_clamp {x m : Int} {f : Nat} (h : CloseTo x f) (hm : f * f32One - 50 * 2 ^ 133 ≤ 100 * m) :
    CloseTo (max 0 (min x m)) f := by
  have hf : (0 : Int) ≤ f * f32One := by positivity
  obtain ⟨hlo, hhi⟩ := (closeTo_iff _ _).1 h
  refine (closeTo_iff _ _).2 ⟨?_, ?_⟩
  · have hmax := le_max_right 0 (min x m)
    obtain hmin | hmin := min_choice x m
    · rw [hmin] at hmax ⊢
      linarith
    · rw [hmin] at hmax ⊢
      linarith
  · have hmin := min_le_left x m
    obtain hmax | hmax := max_choice 0 (min x m)
    · rw [hmax]
      linarith
    · rw [hmax]
      linarith

theorem legacyHundredths_le (whole frac : Byte) : legacyHundredths whole frac ≤ 25590 := by
  have hslack := flagHundredths_slack (frac.getLsbD 7) (frac.getLsbD 6) (frac.getLsbD 5)
  have hlt := whole.isLt
  rw [legacyHundredths_eq, fracHundredths]
  omega

/-- The hundredths of a reading are at most the encoder's clamp of 255.9. -/
theorem legacyClamped_close (whole frac : Byte) :
    CloseTo (legacyClamped (ltempDecode Literals.source whole frac)) (legacyHundredths whole frac) := by
  have hle : (legacyHundredths whole frac * f32One : Int) ≤ 25590 * f32One :=
    mul_le_mul_of_nonneg_right (by exact_mod_cast legacyHundredths_le whole frac) (by positivity)
  have hmax := legacyMax_close
  exact closeTo_clamp (legacyReading_close whole frac) (by linarith)

/-- The exact reading of whole degrees is not clamped. -/
theorem legacyClamped_whole {whole frac : Byte} (h : fracHundredths frac = 0) :
    legacyClamped (ltempDecode Literals.source whole frac) = whole.toNat * f32One := by
  have hval := legacyReading_whole (whole := whole) (frac := frac) (by rw [legacyHundredths_eq, h, Nat.add_zero])
  have hle : (whole.toNat * f32One : Int) ≤ 255 * f32One :=
    mul_le_mul_of_nonneg_right (by have := whole.isLt; omega) (by positivity)
  have hnonneg : (0 : Int) ≤ whole.toNat * f32One := mul_nonneg (Int.natCast_nonneg _) (Int.natCast_nonneg _)
  have hmax : (255 * f32One : Int) ≤ f32Val 0x437FE666#32 := by decide
  rw [legacyClamped, hval, min_eq_left (hle.trans hmax), max_eq_right hnonneg]

theorem closeTo_zero : CloseTo 0 0 := by
  rw [closeTo_iff, Nat.cast_zero, zero_mul, mul_zero]
  decide

/-- The clamped value is the whole degrees and a remainder below one degree, close to the flags' hundredths. -/
theorem legacyRemainder (whole frac : Byte) :
    ∃ r, legacyClamped (ltempDecode Literals.source whole frac) = whole.toNat * f32One + r ∧ 0 ≤ r ∧ r < f32One ∧
      CloseTo r (fracHundredths frac) := by
  obtain hzero | ⟨hlo, hhi⟩ : fracHundredths frac = 0 ∨ 15 ≤ fracHundredths frac ∧ fracHundredths frac ≤ 90 :=
    flagHundredths_slack _ _ _
  · rw [legacyClamped_whole hzero, hzero]
    exact ⟨0, (add_zero _).symm, le_rfl, by decide, closeTo_zero⟩
  · have herr : (50 * 2 ^ 133 : Int) < f32One := by decide
    have hone : (0 : Int) ≤ f32One := by positivity
    have hlo' : (15 * f32One : Int) ≤ fracHundredths frac * f32One :=
      mul_le_mul_of_nonneg_right (by exact_mod_cast hlo) hone
    have hhi' : (fracHundredths frac * f32One : Int) ≤ 90 * f32One :=
      mul_le_mul_of_nonneg_right (by exact_mod_cast hhi) hone
    have hclose := legacyClamped_close whole frac
    rw [legacyHundredths_eq, closeTo_iff] at hclose
    obtain ⟨hclo, hchi⟩ := hclose
    push_cast at hclo hchi
    refine ⟨legacyClamped (ltempDecode Literals.source whole frac) - whole.toNat * f32One, (add_sub_cancel _ _).symm,
      ?_, ?_, (closeTo_iff _ _).2 ⟨?_, ?_⟩⟩ <;> linarith

/-- Settles O44: the remainder is close to the flags' weights, which the thresholds tell apart. -/
theorem legacyRoundTrip : Obligations.LegacyRoundTrip := by
  intro s whole frac hlit
  refine ⟨⟨_, exec_ltempDecode s whole frac, rfl⟩, fun hlow => ?_⟩
  refine ⟨_, _, exec_ltempDecode s whole frac, exec_encode_ok (enc := ltempEncode) rfl ?_, ?_⟩
  · rw [finish_results, hlit, okWord, ltempDecode_source]
    exact f32OfRatio_notNaN _ _ _
  · obtain ⟨r, hr, h0, h1, hclose⟩ := legacyRemainder whole frac
    obtain ⟨h7, h6, h5⟩ := thresholds_between
    have hflags : legacyCascade r = (frac.getLsbD 7, frac.getLsbD 6, frac.getLsbD 5) :=
      cascadeWith_close h7 h6 h5 hclose
    have hpair : ltempEncode Literals.source (ltempDecode Literals.source whole frac) = (whole, frac) := by
      rw [ltempEncode_source hr h0 h1, hflags, flagByte_bits hlow, BitVec.ofInt_natCast, BitVec.ofNat_toNat,
        BitVec.setWidth_eq]
    rw [finish_results, finish_results, finish_cfg, hlit]
    exact congrArg okPair hpair

end Sys2Proof.Machine
end

section
/-! PROOF. The lookup table (R170 to R177): reads and writes of its sixteen registers in ascending order. -/

namespace Sys2Proof.Machine

/-! ## Single registers (R174, R175, R191) -/

/-- The operations that read one RW register give the byte held. -/
theorem exec_read_rw {s : State} {a : Addr} {i : Instr}
    (hi : i = .regRead a ∨ (i = .lutHystRead ∧ a = s.cfg.lutHyst) ∨ (i = .fanSpeedGet ∧ a = s.cfg.fanSetting))
    (ha : attrOf s.cfg a = .rw) (hok : answersOk s 1) (hl : LatchInv s) :
    ∃ t, exec i s = .next t ∧ t.results = { Results.zero with r32 := (regAt s a).setWidth 32 } := by
  obtain ⟨t, e, -⟩ := memRead_rw (s := start s i) ha (answersOk_zero hok) (hl.start i)
  have hbody : opBody i (start s i) = .ok (okWord ((regAt s a).setWidth 32)) t := by
    rw [opBody_eq_regReadBody hi, regReadBody, e, Res.bind_ok]
    rfl
  exact ⟨_, exec_of_ok hbody, rfl⟩

/-- Settles O49, by one read each. -/
theorem hystAndFanSpeedReadRaw : Obligations.HystAndFanSpeedReadRaw := by
  intro s hwf
  have hhyst : attrOf s.cfg s.cfg.lutHyst = .rw := attr_rw hwf (by simp [rwNames])
  have hfan := attr_fanSetting hwf
  refine ⟨fun hok hl => ⟨exec_read_rw (.inr (.inl ⟨rfl, rfl⟩)) hhyst hok hl,
    exec_read_rw (.inr (.inr ⟨rfl, rfl⟩)) hfan hok hl⟩, fun hf => ⟨?_, ?_⟩⟩
  · obtain ⟨t, e, hr, -, -, hfaults, -⟩ :=
      failedReadReportsBusError s s.cfg.lutHyst (by simp [hhyst]) hf _ (.inr (.inl ⟨rfl, rfl⟩))
    exact ⟨t, e, hr, hfaults⟩
  · obtain ⟨t, e, hr, -, -, hfaults, -⟩ :=
      failedReadReportsBusError s s.cfg.fanSetting (by simp [hfan]) hf _ (.inr (.inr ⟨rfl, rfl⟩))
    exact ⟨t, e, hr, hfaults⟩

/-- The operations that write one register store its byte when neither the table nor a trigger touches it. -/
theorem exec_write_plainReg {s : State} {a b : Addr} {i : Instr} (hi : opBody i (start s i) = regWriteBody a b (start s i))
    (ha : PlainReg s.cfg a) (hok : answersOk s 1) : ∃ t, exec i s = .next t ∧ t.results = Results.zero ∧
      regAt t a = b ∧ t.history = s.history ++ [.write a b .ok] := by
  obtain ⟨t, e, ht, hh⟩ := memWrite_plainReg (s := start s i) b ha (answersOk_zero hok)
  have hbody : opBody i (start s i) = .ok okNone t := by rw [hi, regWriteBody, e, Res.bind_ok]
  exact ⟨_, exec_of_ok hbody, rfl, (ht.regs a).trans (if_pos rfl), hh⟩

theorem singleReg_plainReg {c : Cfg} (hwf : cfgWf c = true) (hd : namesDistinct c) {a : Addr}
    (ha : a ∈ [c.lutHyst, c.intHighLimit]) : PlainReg c a := by
  simp only [List.mem_cons, List.not_mem_nil, or_false] at ha
  obtain rfl | rfl := ha
  all_goals exact ⟨attr_rw hwf (by simp [rwNames]), otherNames_notLut hd (by simp [otherNames]),
    (storedRegs_ne hd (by simp)).1, oneShot_ne hd (by simp)⟩

/-- Settles O50: LUT_HYST is no table register, and neither FAN_SETTING nor ONE_SHOT. -/
theorem lutHystWriteStoresRaw : Obligations.LutHystWriteStoresRaw := by
  intro s v hwf hd
  have hreg : PlainReg s.cfg s.cfg.lutHyst := singleReg_plainReg hwf hd (by simp)
  refine ⟨fun hok => exec_write_plainReg rfl hreg hok, fun hf => ?_⟩
  obtain ⟨t, e, hr, hheld, -, hh, hfaults⟩ :=
    failedWriteLeavesOldOrNew s s.cfg.lutHyst v hreg.rw hf _ (.inr (.inl ⟨rfl, rfl⟩))
  exact ⟨t, e, hr, hfaults, hheld, hh⟩

/-! ## LUT_READ (R171) -/

/-- The table's registers are RW (R28 item 6). -/
theorem mem_lutAddrs_rw {c : Cfg} (hwf : cfgWf c = true) {a : Addr} (ha : a ∈ lutAddrs c) : attrOf c a = .rw := by
  obtain ⟨j, hj, rfl⟩ := List.mem_map.1 ha
  exact attr_lut hwf (List.mem_range.1 hj)

theorem bytes16_getElem (vs : List Byte) (j : Fin 16) : (bytes16 vs)[j] = vs.getD j.val 0#8 := by
  simp [bytes16]

theorem exec_lutRead_of_readList {s t : State} {vs : List Byte}
    (h : readList (start s .lutRead) (lutAddrs s.cfg) = .ok vs t) :
    exec .lutRead s = .next (finish t { Results.zero with rbuf := bytes16 vs }) :=
  exec_of_ok (by rw [opBody, lutReadBody, start_cfg, h, Res.bind_ok]; rfl)

theorem exec_lutRead_of_raise {s t : State} {f : FaultCode} {x : Word32}
    (h : readList (start s .lutRead) (lutAddrs s.cfg) = .raise f x t) : exec .lutRead s = .next (takeFault t f x) :=
  exec_of_raise (by rw [opBody, lutReadBody, start_cfg, h, Res.bind_raise])

/-- Settles O45, by the reads of a list of RW registers. -/
theorem lutReadReturnsTable : Obligations.LutReadReturnsTable := by
  intro s hlit hwf hl reads
  have hrw : ∀ a, a ∈ lutAddrs (start s .lutRead).cfg → attrOf s.cfg a = .rw := fun a => mem_lutAddrs_rw hwf
  have haddrs := lutAddrs_source hlit
  refine ⟨fun hok => ?_, fun n hf => ?_⟩
  · obtain ⟨t, e, hfr, hm, hh⟩ := readList_rw (lutAddrs s.cfg) (start s .lutRead) hrw (pairAttrs_of_wf hwf) (hl.start _)
      (by rwa [haddrs, List.length_map, List.length_range])
    refine ⟨_, exec_lutRead_of_readList e, rfl, fun j => ?_, ?_⟩
    · rw [finish_results, bytes16_getElem, haddrs]
      simp
      rfl
    · rw [finish_history, hh, haddrs, List.map_map]
      rfl
  · obtain ⟨t, e, hfr, hm, hh⟩ := readList_fails (lutAddrs s.cfg) (start s .lutRead) n.val
      (s.cfg.lutBase + BitVec.ofNat 8 n.val) hrw (pairAttrs_of_wf hwf) (hl.start _) (by simp [haddrs]) hf
    refine ⟨_, exec_lutRead_of_raise e, rfl, ?_, hm, congrArg (addFault · .busError) hfr.faults⟩
    rw [takeFault_history, hh, haddrs, ← List.map_take, List.map_map, List.take_range, Nat.min_eq_left n.isLt.le]
    rfl

/-! ## LUT_WRITE (R172, R173) -/

/-- The clamped byte of slot j (R173). -/
def lutClamped (image : Bytes16) (j : Fin 16) : Nat := min (image[j]).toNat (if j.val % 2 = 0 then 85 else 99)

theorem lutClamp_source (image : Bytes16) (j : Fin 16) :
    lutClamp Literals.source j.val (obufSlot image j.val) = BitVec.ofNat 8 (lutClamped image j) := by
  have hslot : obufSlot image j.val = image[j] := by simp [obufSlot]
  have hnat : (lutClamp Literals.source j.val (obufSlot image j.val)).toNat = lutClamped image j := by
    rw [lutClamp, hslot, minByte_toNat, lutClamped]
    split <;> rfl
  rw [← hnat, BitVec.ofNat_toNat, BitVec.setWidth_eq]

theorem lutClamped_lt (image : Bytes16) (j : Fin 16) : lutClamped image j < 2 ^ 8 :=
  lt_of_le_of_lt (Nat.min_le_left _ _) (image[j]).isLt

theorem lutClamped_toNat (image : Bytes16) (j : Fin 16) : (BitVec.ofNat 8 (lutClamped image j)).toNat = lutClamped image j :=
  (BitVec.toNat_ofNat _ _).trans (Nat.mod_eq_of_lt (lutClamped_lt image j))

/-- The write to the table's register j. -/
def lutWriteOf (c : Cfg) (image : Bytes16) (j : Fin 16) : BitVec 8 × BitVec 8 :=
  (c.lutBase + BitVec.ofNat 8 j.val, BitVec.ofNat 8 (lutClamped image j))

theorem lutWrites_source {c : Cfg} (h : c.lit = Literals.source) (image : Bytes16) :
    lutWrites c image = (List.finRange 16).map (lutWriteOf c image) := by
  rw [lutWrites, lutLength_source h, ← List.map_coe_finRange_eq_range, List.map_map]
  refine List.map_congr_left fun j _ => ?_
  rw [Function.comp_apply, lutAddr_source h, h, lutClamp_source]
  rfl

theorem lutWrites_map_fst (c : Cfg) (image : Bytes16) : (lutWrites c image).map Prod.fst = lutAddrs c := by
  rw [lutWrites, List.map_map]
  rfl

theorem lutAddrs_nodup {c : Cfg} (h : cfgWf c = true) : (lutAddrs c).Nodup :=
  List.Nodup.map_on (fun _ hi _ hj => lutAddr_inj h (List.mem_range.1 hi) (List.mem_range.1 hj)) List.nodup_range

theorem lutWrites_rw {c : Cfg} (h : cfgWf c = true) {image : Bytes16} {e : BitVec 8 × BitVec 8}
    (he : e ∈ lutWrites c image) : attrOf c e.1 = .rw :=
  mem_lutAddrs_rw h (lutWrites_map_fst c image ▸ List.mem_map_of_mem he)

theorem lutWrites_isLut {c : Cfg} {image : Bytes16} {e : BitVec 8 × BitVec 8} (he : e ∈ lutWrites c image) :
    isLutAddr c e.1 = true :=
  List.contains_iff_mem.2 (lutWrites_map_fst c image ▸ List.mem_map_of_mem he)

theorem lutWrites_ne_fanConfig {c : Cfg} (h : isLutAddr c c.fanConfig = false) {image : Bytes16}
    {e : BitVec 8 × BitVec 8} (he : e ∈ lutWrites c image) : e.1 ≠ c.fanConfig := by
  intro heq
  rw [← heq, lutWrites_isLut he] at h
  cases h

theorem exec_lutWrite_of_writeList {s t : State} (h : writeList (start s .lutWrite) (lutWrites s.cfg s.obuf) = .ok () t) :
    exec .lutWrite s = .next (finish t okNone) :=
  exec_of_ok (by rw [opBody, lutWriteBody, start_cfg, start_obuf, h, Res.bind_ok])

theorem exec_lutWrite_of_raise {s t : State} {f : FaultCode} {x : Word32}
    (h : writeList (start s .lutWrite) (lutWrites s.cfg s.obuf) = .raise f x t) :
    exec .lutWrite s = .next (takeFault t f x) :=
  exec_of_raise (by rw [opBody, lutWriteBody, start_cfg, start_obuf, h, Res.bind_raise])

/-- Of writes to distinct addresses, those performed leave their bytes. -/
theorem afterWrites_take_of_lt {es : List (BitVec 8 × BitVec 8)} (hn : (es.map Prod.fst).Nodup) (f : Addr → Byte)
    {i k : Nat} {e : BitVec 8 × BitVec 8} (he : es[i]? = some e) (hik : i < k) :
    afterWrites (es.take k) f e.1 = e.2 := by
  refine afterWrites_of_mem _ f (hn.sublist ((List.take_sublist k es).map _)) e (List.mem_of_getElem? (i := i) ?_)
  rw [List.getElem?_take_of_lt hik, he]

/-- Of writes to distinct addresses, those not yet performed leave the old bytes. -/
theorem afterWrites_take_of_le {es : List (BitVec 8 × BitVec 8)} (hn : (es.map Prod.fst).Nodup) (f : Addr → Byte)
    {i k : Nat} {e : BitVec 8 × BitVec 8} (he : es[i]? = some e) (hik : k ≤ i) :
    afterWrites (es.take k) f e.1 = f e.1 := by
  refine afterWrites_of_notMem _ f _ fun hmem => List.disjoint_take_drop hn le_rfl (List.map_take ▸ hmem) ?_
  rw [← List.map_drop]
  exact List.mem_map_of_mem (List.mem_of_getElem? (i := i - k) (by rw [List.getElem?_drop, Nat.add_sub_cancel' hik, he]))

theorem lutWrites_getElem {c : Cfg} (h : c.lit = Literals.source) (image : Bytes16) (j : Fin 16) :
    (lutWrites c image)[j.val]? = some (lutWriteOf c image j) := by
  simp [lutWrites_source h]

/-- LUT_WRITE while the table is released, no write failing. -/
theorem lutWrite_ok {s : State} (hlit : sourceLiterals s) (hwf : cfgWf s.cfg = true)
    (hfan : isLutAddr s.cfg s.cfg.fanConfig = false) (hok : answersOk s 16) (hg : lutGoverns s = false) :
    ∃ t, writeList (start s .lutWrite) (lutWrites s.cfg s.obuf) = .ok () t ∧ BusFrame (start s .lutWrite) t ∧
      (∀ j : Fin 16, (regAt t (s.cfg.lutBase + BitVec.ofNat 8 j.val)).toNat = lutClamped s.obuf j) ∧
      (∀ k, t.env.at k = s.env.at (k + 16)) ∧
      t.history = s.history ++ (List.finRange 16).map fun j => .write (s.cfg.lutBase + BitVec.ofNat 8 j.val)
        (BitVec.ofNat 8 (lutClamped s.obuf j)) (acceptedAs s.cfg (s.cfg.lutBase + BitVec.ofNat 8 j.val)) := by
  have hlen : (lutWrites s.cfg s.obuf).length = 16 := by simp [lutWrites_source hlit]
  obtain ⟨t, e, hfr, hr, hat, hh⟩ := writeList_ok (lutWrites s.cfg s.obuf) (start s .lutWrite)
    (fun e he => ⟨lutWrites_rw hwf he, lutWrites_ne_fanConfig hfan he⟩) hg (by rwa [hlen])
  rw [hlen] at hat
  refine ⟨t, e, hfr, fun j => ?_, hat, ?_⟩
  · have hmem := List.mem_of_getElem? (lutWrites_getElem hlit s.obuf j)
    have hnodup : ((lutWrites s.cfg s.obuf).map Prod.fst).Nodup := by
      rw [lutWrites_map_fst]
      exact lutAddrs_nodup hwf
    rw [hr, ← lutClamped_toNat]
    exact congrArg BitVec.toNat (afterWrites_of_mem _ _ hnodup _ hmem)
  · rw [hh, lutWrites_source hlit, List.map_map]
    rfl

/-- Settles O46, by the writes of a list of registers while the table is released. -/
theorem lutWriteStoresClampedTable : Obligations.LutWriteStoresClampedTable := by
  intro s hlit hwf hfan hok hg clamped
  obtain ⟨t, e, hfr, hregs, -, hh⟩ := lutWrite_ok hlit hwf hfan hok hg
  exact ⟨_, exec_lutWrite_of_writeList e, rfl, hfr.faults, hregs, hh⟩

theorem lutWriteOf_ne {c : Cfg} {image : Bytes16} {i j : Fin 16} (h : i ≠ j) :
    (lutWriteOf c image i).1 ≠ (lutWriteOf c image j).1 := by
  intro e
  have hnat : (BitVec.ofNat 8 i.val).toNat = (BitVec.ofNat 8 j.val).toNat :=
    congrArg BitVec.toNat ((BitVec.add_right_inj _).1 e)
  rw [BitVec.toNat_ofNat, BitVec.toNat_ofNat] at hnat
  omega

/-- A locked first write is all LUT_WRITE performs. -/
theorem lutWrite_locked {s : State} (hlit : sourceLiterals s) (hwf : cfgWf s.cfg = true)
    (hf : (s.env.at 0).fails = false) (hg : lutGoverns s = true) :
    ∃ t, writeList s (lutWrites s.cfg s.obuf) = .raise .lutLocked (s.cfg.lutBase.setWidth 32) t ∧ t.mem = s.mem := by
  have hcons : lutWrites s.cfg s.obuf = lutWriteOf s.cfg s.obuf 0 :: (lutWrites s.cfg s.obuf).tail := by
    rw [lutWrites_source hlit]
    rfl
  have hmem : lutWriteOf s.cfg s.obuf 0 ∈ lutWrites s.cfg s.obuf := by
    rw [hcons]
    exact List.mem_cons_self
  have hbase : (lutWriteOf s.cfg s.obuf 0).1 = s.cfg.lutBase := BitVec.add_zero _
  rw [hcons, writeList, memWrite_locked _ (lutWrites_rw hwf hmem) hf (lutWrites_isLut hmem) hg, hbase]
  exact ⟨_, rfl, rfl⟩

/-- Settles O47: the n-th write fails after those before it are stored, or the first is locked. -/
theorem lutWriteStopsAtItsFault : Obligations.LutWriteStopsAtItsFault := by
  intro s hlit hwf hfan
  have hnodup : ((lutWrites s.cfg s.obuf).map Prod.fst).Nodup := by
    rw [lutWrites_map_fst]
    exact lutAddrs_nodup hwf
  have hget := lutWrites_getElem hlit s.obuf
  refine ⟨fun n hf hg => ?_, fun hok hg => ?_⟩
  · obtain ⟨t, u, e, -, hu, hr, -⟩ := writeList_fails (lutWrites s.cfg s.obuf) (start s .lutWrite) n.val _
      (fun e he => lutWrites_rw hwf he) (fun e he => lutWrites_ne_fanConfig hfan (List.mem_of_mem_take he)) hg (hget n) hf
    refine ⟨_, exec_lutWrite_of_raise e, rfl, fun j hj => ?_, ?_, fun j hj => ?_⟩
    · rw [← lutClamped, ← lutClamped_toNat]
      refine congrArg BitVec.toNat ((hr _).trans ?_)
      exact (if_neg (lutWriteOf_ne hj.ne')).trans (afterWrites_take_of_lt hnodup _ (hget j) hj)
    · rw [afterWrites_take_of_le hnodup _ (hget n) le_rfl] at hu
      rw [← lutClamped, ← lutClamped_toNat]
      have hheld : regAt t (lutWriteOf s.cfg s.obuf n).1 = u := (hr _).trans (if_pos rfl)
      exact hu.symm.imp hheld.trans fun hnew => congrArg BitVec.toNat (hheld.trans hnew)
    · refine (hr _).trans ((if_neg (lutWriteOf_ne hj.ne)).trans ?_)
      exact afterWrites_take_of_le hnodup _ (hget j) hj.le
  · obtain ⟨t, e, hm⟩ := lutWrite_locked (s := start s .lutWrite) hlit hwf (answersOk_zero hok) hg
    exact ⟨_, exec_lutWrite_of_raise e, rfl, hm⟩

/-! ## Reading what was written (R177) -/

/-- Writes keep the latches coherent. -/
theorem LatchInv.writeList (es : List (BitVec 8 × BitVec 8)) : ∀ {s : State}, LatchInv s →
    LatchInv (writeList s es).state := by
  induction es with
  | nil => exact id
  | cons e es ih =>
    intro s h
    have hw := h.memWrite e.1 e.2
    rw [Machine.writeList]
    cases hr : Machine.memWrite s e.1 e.2 with
    | ok v t =>
      rw [hr] at hw
      exact ih hw
    | raise f x t =>
      rw [hr] at hw
      exact hw

/-- Settles O48: LUT_READ after LUT_WRITE gives the bytes stored. -/
theorem lutWriteThenRead : Obligations.LutWriteThenRead := by
  intro s hlit hwf hfan hl hok hg
  obtain ⟨t, e, hfr, hregs, hat, -⟩ := lutWrite_ok hlit hwf hfan (answersOk_mono hok (by decide)) hg
  have hcfg : t.cfg = s.cfg := hfr.cfg
  have hlatch := LatchInv.writeList (lutWrites s.cfg s.obuf) (hl.start .lutWrite)
  rw [e] at hlatch
  obtain ⟨hread, -⟩ := lutReadReturnsTable (finish t okNone) (by rwa [sourceLiterals, finish_cfg, hcfg])
    (by rwa [finish_cfg, hcfg]) (LatchInv.congr hlatch rfl rfl rfl)
  obtain ⟨u, eu, hresults, hrbuf, -⟩ := hread fun k hk => by
    rw [finish_env, hat]
    exact hok (k + 16) (by omega)
  refine ⟨_, u, exec_lutWrite_of_writeList e, eu, hresults, fun j => ?_⟩
  rw [hrbuf, finish_cfg, hcfg]
  exact hregs j

end Sys2Proof.Machine
end

section
/-! PROOF. The accessors (R193 to R200): the limit's bounds, the one-shot sequence, one sample of a read-only pair, and
the tach limit read back. -/

namespace Sys2Proof.Machine

/-! ## INT_LIMIT_SET (R193) -/

/-- The source's bounds of the limit: no NaN, and in [0.0, 85.0]. -/
theorem intLimitAccepts_source (v : Word32) : intLimitAccepts Literals.source v = true ↔
    isNaN v = false ∧ 0 ≤ f32Val v ∧ f32Val v ≤ 85 * f32One := by
  have hmin : isNaN Literals.source.intLimitMin = false ∧ f32Val Literals.source.intLimitMin = 0 := by decide
  have hmax : isNaN Literals.source.intLimitMax = false ∧ f32Val Literals.source.intLimitMax = 85 * f32One := by decide
  simp only [intLimitAccepts, f32Le, hmin.1, hmin.2, hmax.1, hmax.2, Bool.and_eq_true, Bool.not_eq_true',
    decide_eq_true_eq, true_and]
  tauto

/-- The floor of a value in [0.0, 85.0] is the byte written. -/
theorem floorByte_floor {v : Word32} (h0 : 0 ≤ f32Val v) (h1 : f32Val v ≤ 85 * f32One) :
    ((floorByte v).toNat * f32One : Int) ≤ f32Val v ∧ f32Val v < ((floorByte v).toNat + 1) * f32One := by
  have hone : (0 : Int) < f32One := by decide
  have hlo : 0 ≤ f32Val v / f32One := Int.ediv_nonneg h0 hone.le
  have hhi : f32Val v / f32One ≤ 85 := Int.ediv_le_of_le_mul hone h1
  have hbyte : ((floorByte v).toNat : Int) = f32Val v / f32One := by
    rw [floorByte, BitVec.toNat_ofInt]
    omega
  rw [hbyte]
  exact ⟨Int.ediv_mul_le _ hone.ne', Int.lt_ediv_add_one_mul_self _ hone⟩

theorem opBody_intLimitSet_accepted {s : State} {v : Word32} (h : intLimitAccepts s.cfg.lit v = true) :
    opBody (.intLimitSet v) (start s (.intLimitSet v)) =
      regWriteBody s.cfg.intHighLimit (floorByte v) (start s (.intLimitSet v)) :=
  opBody_eq_regWriteBody (.inr (.inr (.inr ⟨v, rfl, rfl, h, rfl⟩)))

theorem exec_intLimitSet_rejected {s : State} {v : Word32} (h : ¬intLimitAccepts s.cfg.lit v = true) :
    exec (.intLimitSet v) s = .next (finish s { Results.zero with status := 0x03#8 }) := by
  rw [← finish_start s (.intLimitSet v)]
  exact exec_of_ok (by rw [opBody, intLimitSetBody, start_cfg, if_neg h]; rfl)

/-- Settles O52: an accepted limit is one write of its floor, another none. -/
theorem intLimitSetAcceptsOrRejects : Obligations.IntLimitSetAcceptsOrRejects := by
  intro s v hlit hwf hd limitHeld
  have hreg : PlainReg s.cfg s.cfg.intHighLimit := singleReg_plainReg hwf hd (by simp)
  have haccepts : intLimitAccepts s.cfg.lit v = true ↔ _ := hlit ▸ intLimitAccepts_source v
  refine ⟨fun h => ?_, fun h => ?_⟩
  · have haccepted := haccepts.2 h
    obtain ⟨-, h0, h1⟩ := h
    refine ⟨fun hok => ?_, fun hf => ?_⟩
    · obtain ⟨t, e, hr, hheld, -⟩ := exec_write_plainReg (opBody_intLimitSet_accepted haccepted) hreg hok
      refine ⟨t, e, hr, ?_⟩
      simp only [limitHeld, hheld]
      exact floorByte_floor h0 h1
    · obtain ⟨t, e, hr, hheld, -, -, hfaults⟩ := failedWriteLeavesOldOrNew s s.cfg.intHighLimit (floorByte v) hreg.rw
        hf (.intLimitSet v) (.inr (.inr (.inr ⟨v, rfl, rfl, haccepted, rfl⟩)))
      refine ⟨t, e, hr, hfaults, hheld.imp_right fun hnew => ?_⟩
      simp only [limitHeld, hnew]
      exact floorByte_floor h0 h1
  · exact ⟨_, exec_intLimitSet_rejected (mt haccepts.1 h), rfl, finish_noTransaction s _⟩

/-! ## One sample of a read-only pair (R45, R194) -/

/-- The two bytes the environment has for a pair from its next answer on (R45(b)). -/
def drawnFirst (e : Env) : Byte := (e.at 0).byte

def drawnSecond (p : PairCfg) (e : Env) : Byte := if p.latching then (e.at 0).second else (e.at 1).byte

/-- The bytes drawn, as high and low byte. -/
def drawnPair (p : PairCfg) (e : Env) : Byte × Byte :=
  (firstByte p (drawnFirst e) (drawnSecond p e), secondByte p (drawnFirst e) (drawnSecond p e))

section
variable {s : State} {p : Pair} (hwf : cfgWf s.cfg = true) (hd : namesDistinct s.cfg) (hp : p ≠ .tachLimit)
include hwf hd hp

omit hd in
theorem attr_roPair : attrOf s.cfg (firstAddr (pairCfg s.cfg p)) = .ro ∧
    attrOf s.cfg (secondAddr (pairCfg s.cfg p)) = .ro := by
  have hro : ∀ a, a ∈ pairAddrs (pairCfg s.cfg p) → attrOf s.cfg a = .ro := by
    intro a ha
    refine attr_ro hwf ?_
    obtain rfl | rfl := mem_pairAddrs.1 ha
    all_goals
      cases p
      · simp [roNames, pairCfg]
      · simp [roNames, pairCfg]
      · exact absurd rfl hp
  exact ⟨hro _ (by simp [pairAddrs]), hro _ (by simp [pairAddrs])⟩

theorem readPair_drawn (hok : answersOk s 2) : ∃ t, readPair s p = .ok (drawnPair (pairCfg s.cfg p) s.env) t ∧
    BusFrame s t ∧ t.mem = s.mem ∧ t.history = s.history ++ [.read (firstAddr (pairCfg s.cfg p)) (drawnFirst s.env),
      .read (secondAddr (pairCfg s.cfg p)) (drawnSecond (pairCfg s.cfg p) s.env)] := by
  obtain ⟨h1, h2⟩ := attr_roPair hwf hp
  obtain ⟨t, e, hfr, hm, hh⟩ := readPair_ro p hd h1 h2 hok
  refine ⟨t, ?_, hfr, hm, hh⟩
  rw [e, drawnPair, firstByte, secondByte]
  split <;> rfl

end

/-! ## FAN_RPM_GET (R197) -/

theorem exec_fanRpmGet_of_readPair {s t : State} {x : Byte × Byte} (h : readPair (start s .fanRpmGet) .tach = .ok x t) :
    exec .fanRpmGet s = .next (finish t
      { okWord (tachToRpm t.cfg.lit (pairValue x.1 x.2)) with rbHi := x.1, rbLo := x.2 }) :=
  exec_of_ok (by rw [opBody, fanRpmGetBody, h, Res.bind_ok])

theorem exec_fanRpmGet_of_raise {s t : State} {f : FaultCode} {x : Word32}
    (h : readPair (start s .fanRpmGet) .tach = .raise f x t) : exec .fanRpmGet s = .next (takeFault t f x) :=
  exec_of_raise (by rw [opBody, fanRpmGetBody, h, Res.bind_raise])

/-- Settles O54: one sample of the TACH pair, converted, or the fault of the read that fails. -/
theorem fanRpmGetConvertsPair : Obligations.FanRpmGetConvertsPair := by
  intro s hlit hwf hd one two x y hi lo
  obtain ⟨h1, h2⟩ := attr_roPair (s := s) (p := .tach) hwf nofun
  refine ⟨fun hok => ?_, fun hf => ?_, fun hf => ?_⟩
  · obtain ⟨t, e, hfr, -, hh⟩ := readPair_drawn (s := start s .fanRpmGet) (p := .tach) hwf hd nofun hok
    refine ⟨_, exec_fanRpmGet_of_readPair e, ?_, hh⟩
    rw [finish_results, hfr.cfg, start_cfg, hlit, tachToRpm_pairValue]
    rfl
  · obtain ⟨t, e, ht⟩ := readPair_fails_first (s := start s .fanRpmGet) .tach
      (by rw [start_cfg, h1]; nofun) hf
    exact ⟨_, exec_fanRpmGet_of_raise e, rfl, ht.history, congrArg (addFault · .busError) ht.frame.faults⟩
  · obtain ⟨t, e, hfr, -, hh⟩ := readPair_fails_second (s := start s .fanRpmGet) .tach hd h1 h2 hf
    exact ⟨_, exec_fanRpmGet_of_raise e, rfl, hh, congrArg (addFault · .busError) hfr.faults⟩

end Sys2Proof.Machine
end

section
/-! PROOF. The tach limit set and read back (R200), with reads of a pair no other pair's latch can serve. -/

namespace Sys2Proof.Machine

/-! ## Reads served by no incoherent latch -/

/-- A read of an RW register gives the byte held when no latch holds another one for it. -/
theorem memRead_coherent {s : State} {a : Addr} (ha : attrOf s.cfg a = .rw) (hf : (s.env.at 0).fails = false)
    (hl : ∀ b, latchedByte s.cfg s.latches a = some b → b = regAt s a) :
    ∃ t, memRead s a = .ok (regAt s a) t ∧ ReadTo s t a (regAt s a) := by
  have hu : attrOf s.cfg a ≠ .unmapped := by rw [ha]; nofun
  obtain ⟨v, t, e, ht⟩ := memRead_ok hu hf
  suffices hv : v = regAt s a by
    subst hv
    exact ⟨t, e, ht⟩
  cases hb : latchedByte s.cfg s.latches a with
  | none =>
    rw [memRead_plain hu hf hb] at e
    cases e
    simp [plainByte, ha]
  | some b =>
    rw [memRead_latched hu hf hb] at e
    cases e
    exact hl _ hb

/-- The first byte of an RW pair is served by no latch. -/
theorem memRead_firstRw {s : State} {p : Pair} (hd : namesDistinct s.cfg)
    (h : attrOf s.cfg (firstAddr (pairCfg s.cfg p)) = .rw) (hf : (s.env.at 0).fails = false) :
    memRead s (firstAddr (pairCfg s.cfg p)) =
      .ok (regAt s (firstAddr (pairCfg s.cfg p))) (plainReadState s (firstAddr (pairCfg s.cfg p))) := by
  rw [memRead_plain (by rw [h]; nofun) hf (latchedByte_none fun q hq => absurd hq.symm (firstAddr_ne_second hd p q))]
  simp [plainByte, h]

/-- After it the pair's latch holds nothing but what the second register holds (R45(b)). -/
theorem latch_after_firstRw {s : State} {p : Pair} {b : Byte} (h : attrOf s.cfg (firstAddr (pairCfg s.cfg p)) = .rw)
    (hb : latchOf (plainReadState s (firstAddr (pairCfg s.cfg p))).latches p = some b) :
    b = regAt s (secondAddr (pairCfg s.cfg p)) := by
  simp only [plainReadState, latchOf_fillLatches, latchOf_clearLatches, inPair_first,
    otherByte, h] at hb
  split at hb
  · cases hb
    rfl
  · cases hb

theorem readPair_of_reads {s t u : State} {p : Pair} {x y : Byte}
    (h : memRead s (firstAddr (pairCfg s.cfg p)) = .ok x t) (h' : memRead t (secondAddr (pairCfg s.cfg p)) = .ok y u) :
    readPair s p = .ok (if (pairCfg s.cfg p).order = .hiFirst then (x, y) else (y, x)) u := by
  rw [readPair_eq, h, Res.bind_ok, h', Res.bind_ok]

/-- Reading an RW pair, neither read failing, gives the two bytes held, whatever the latches hold of other pairs. -/
theorem readPair_held {s : State} {p : Pair} (hd : namesDistinct s.cfg)
    (ha : ∀ a, a ∈ pairAddrs (pairCfg s.cfg p) → attrOf s.cfg a = .rw) (hok : answersOk s 2) :
    ∃ t, readPair s p = .ok (regAt s (pairCfg s.cfg p).hi, regAt s (pairCfg s.cfg p).lo) t ∧ BusFrame s t := by
  have hfirst : attrOf s.cfg (firstAddr (pairCfg s.cfg p)) = .rw := ha _ (by simp [pairAddrs])
  have e := memRead_firstRw hd hfirst (answersOk_zero hok)
  have hfr := memRead_frame s (firstAddr (pairCfg s.cfg p))
  rw [e] at hfr
  have hok' : answersOk (plainReadState s (firstAddr (pairCfg s.cfg p))) 1 := answersOk_pop hok rfl
  have hsecond : attrOf s.cfg (secondAddr (pairCfg s.cfg p)) = .rw := ha _ (by simp [pairAddrs])
  have hheld : regAt (plainReadState s (firstAddr (pairCfg s.cfg p))) (secondAddr (pairCfg s.cfg p)) =
    regAt s (secondAddr (pairCfg s.cfg p)) := regAt_congr rfl rfl _
  obtain ⟨t, e', ht⟩ := memRead_coherent (s := plainReadState s (firstAddr (pairCfg s.cfg p))) hsecond
    (answersOk_zero hok') (fun b hb => by
      rw [hheld]
      exact latch_after_firstRw hfirst ((latchedByte_second hd _ p).symm.trans hb))
  refine ⟨t, ?_, hfr.trans ht.frame⟩
  rw [readPair_of_reads e e', hheld, firstAddr, secondAddr]
  cases (pairCfg s.cfg p).order <;> rfl

/-! ## MIN_RPM_SET then MIN_RPM_GET (R200) -/

/-- The bytes MIN_RPM_SET stores are those of the converted count (R122). -/
theorem pairValue_count (r : Word32) : pairValue (BitVec.ofNat 8 (5400000 / max r.toNat 83 / 256))
    (BitVec.ofNat 8 (5400000 / max r.toNat 83 % 256)) = rpmToTach Literals.source r := by
  have hlt := (rpmToTach Literals.source r).isLt
  refine BitVec.eq_of_toNat_eq ?_
  rw [rpmToTach_source] at hlt ⊢
  rw [pairValue_toNat, BitVec.toNat_ofNat, BitVec.toNat_ofNat]
  generalize 5400000 / max r.toNat 83 = count at *
  omega

/-- Two plain registers written, neither write failing, with the answers left after the two. -/
theorem writeList_two_stored {s : State} {a b : Addr} (x y : Byte) (ha : PlainReg s.cfg a) (hne : a ≠ b)
    (hb : PlainReg s.cfg b) (hok : answersOk s 2) : ∃ t, writeList s [(a, x), (b, y)] = .ok () t ∧ BusFrame s t ∧
      (∀ k, t.env.at k = s.env.at (k + 2)) ∧ regAt t a = x ∧ regAt t b = y := by
  obtain ⟨t, e, ht, -⟩ := memWrite_plainReg x ha (answersOk_zero hok)
  obtain ⟨u, e', hu, -⟩ := memWrite_plainReg (s := t) y (by rw [ht.frame.cfg]; exact hb)
    (answersOk_zero (answersOk_pop hok ht.env))
  refine ⟨u, by simp only [writeList, e, e', Res.bind_ok], ht.frame.trans hu.frame, fun k => ?_, ?_,
    (hu.regs b).trans (if_pos rfl)⟩
  · rw [hu.env, Env.at_pop, ht.env, Env.at_pop]
  · rw [hu.regs, if_neg hne.symm, ht.regs, if_pos rfl]

/-- MIN_RPM_SET, neither write failing, leaves the count in the pair, and the answers after its two. -/
theorem minRpmSet_ok {s : State} (r : Word32) (hlit : sourceLiterals s) (hwf : cfgWf s.cfg = true)
    (hd : namesDistinct s.cfg) (hok : answersOk s 2) :
    ∃ t, exec (.minRpmSet r) s = .next (finish t okNone) ∧ t.cfg = s.cfg ∧ (∀ k, t.env.at k = s.env.at (k + 2)) ∧
      pairValue (regAt t s.cfg.tachLimit.hi) (regAt t s.cfg.tachLimit.lo) = rpmToTach Literals.source r := by
  have h1 : PlainReg s.cfg (firstAddr s.cfg.tachLimit) := tachLimit_plainReg hwf hd (by simp [pairAddrs])
  have h2 : PlainReg s.cfg (secondAddr s.cfg.tachLimit) := tachLimit_plainReg hwf hd (by simp [pairAddrs])
  have hne : firstAddr s.cfg.tachLimit ≠ secondAddr s.cfg.tachLimit := firstAddr_ne_second hd .tachLimit .tachLimit
  obtain ⟨t, e, hfr, hat, hfirst, hsecond⟩ := writeList_two_stored (s := start s (.minRpmSet r)) _ _ h1 hne h2 hok
  obtain ⟨hhi, hlo⟩ := pair_holds hfirst hsecond
  exact ⟨t, exec_minRpmSet_of_writeList hlit e, hfr.cfg, hat, by rw [hhi, hlo, pairValue_count]⟩

/-- Settles O57: MIN_RPM_GET reads the two bytes MIN_RPM_SET stored, and converts them. -/
theorem minRpmSetThenGet : Obligations.MinRpmSetThenGet := by
  intro s r hlit hwf hd hok
  obtain ⟨t, e, hcfg, hat, hcount⟩ := minRpmSet_ok r hlit hwf hd (answersOk_mono hok (by decide))
  have hcfg' : (start (finish t okNone) .minRpmGet).cfg = s.cfg := hcfg
  have hok' : answersOk (start (finish t okNone) .minRpmGet) 2 := fun k hk => by
    rw [start_env, finish_env, hat]
    exact hok (k + 2) (by omega)
  obtain ⟨u, e', hfr⟩ := readPair_held (s := start (finish t okNone) .minRpmGet) (p := .tachLimit)
    (by rwa [hcfg']) (by rw [hcfg']; exact fun a => attr_tachLimit hwf) hok'
  have hresults : (finish u (okWord (tachToRpm u.cfg.lit (pairValue (regAt t s.cfg.tachLimit.hi)
      (regAt t s.cfg.tachLimit.lo))))).results =
      { Results.zero with r32 := tachToRpm Literals.source (rpmToTach Literals.source r) } := by
    rw [finish_results, hcount, hfr.cfg, hcfg', hlit]
    rfl
  rw [hcfg'] at e'
  refine ⟨_, _, e, exec_minRpmGet_of_readPair e', rfl, ?_, hresults, ?_⟩
  · rw [← rpmToTach_source, ← hcount, pairValue_toNat]
    rfl
  · rintro rfl
    exact (congrArg Results.r32 hresults).trans (by decide)

end Sys2Proof.Machine
end

section
/-! PROOF. EXT_TEMP_READ (R196): the read of CONFIG, the trigger in standby, one sample of the EXT_TEMP pair, and its
decoding; and what each failing transaction leaves. -/

namespace Sys2Proof.Machine

/-! ## CONFIG and the trigger -/

/-- The standby bit of CONFIG (D27). -/
def inStandby (s : State) : Bool := (regAt s s.cfg.config).getLsbD s.cfg.standbyBit.val

/-- The transactions before the pair's reads. -/
def readsBefore (s : State) : Nat := if inStandby s then 2 else 1

/-- The history before the pair's reads. -/
def historyBefore (s : State) : List Event := s.history ++ [.read s.cfg.config (regAt s s.cfg.config)] ++
  if inStandby s then [.write s.cfg.oneShot s.cfg.oneShotValue .oneShot, .sleep 50#32] else []

/-- The read of CONFIG and the trigger, the first part of EXT_TEMP_READ. -/
def configThenTrigger (s : State) : Res Unit := (memRead s s.cfg.config).bind triggerIfStandby

/-- The reads of the pair and the decoding, the second part. -/
def readAndDecode (s : State) : Res Results :=
  (readPair s .extTemp).bind fun p s => (readTemp p.1 p.2 s).bind fun x s =>
    .ok { Results.zero with status := x.2, r32 := x.1, rbHi := p.1, rbLo := p.2 } s

theorem extTempReadBody_eq (s : State) :
    extTempReadBody s = (configThenTrigger s).bind fun _ s => readAndDecode s := by
  rw [configThenTrigger, Res.bind_assoc]
  rfl

section
variable {s : State} (hwf : cfgWf s.cfg = true) (hd : namesDistinct s.cfg)
include hwf hd

/-- CONFIG is a byte of no pair, so no latch serves it. -/
theorem memRead_config (hf : (s.env.at 0).fails = false) :
    ∃ t, memRead s s.cfg.config = .ok (regAt s s.cfg.config) t ∧ ReadTo s t s.cfg.config (regAt s s.cfg.config) := by
  refine memRead_coherent (attr_rw hwf (by simp [rwNames])) hf fun b hb => ?_
  obtain ⟨p, hp, -⟩ := latchedByte_some hb
  have hin := (config_notInPair hd p).1
  rw [← hp, inPair_second] at hin
  cases hin

/-- ONE_SHOT is no table register and not FAN_SETTING, so the trigger is stored whether the table governs or not. -/
theorem memWrite_oneShot (v : Byte) (hf : (s.env.at 0).fails = false) :
    ∃ t, memWrite s s.cfg.oneShot v = .ok () t ∧ WroteTo s t s.cfg.oneShot v :=
  memWrite_ok v (attr_rw hwf (by simp [rwNames])) hf
    (.inr ⟨otherNames_notLut hd (by simp [otherNames]), (storedRegs_ne hd (by simp)).1⟩)

omit hwf hd in
theorem triggerIfStandby_of_not {c : Byte} (h : bitOf c s.cfg.standbyBit = false) : triggerIfStandby c s = .ok () s := by
  rw [triggerIfStandby, if_neg (by rw [h]; nofun)]

/-- The first part, no transaction failing. -/
theorem configThenTrigger_ok (hlit : sourceLiterals s) (hok : answersOk s (readsBefore s)) :
    ∃ t, configThenTrigger s = .ok () t ∧ BusFrame s t ∧ (∀ k, t.env.at k = s.env.at (k + readsBefore s)) ∧
      t.history = historyBefore s ∧
      (inStandby s = true → regAt t s.cfg.oneShot = s.cfg.oneShotValue) := by
  have hpos : 1 ≤ readsBefore s := by unfold readsBefore; split <;> decide
  obtain ⟨t, e, ht⟩ := memRead_config hwf hd (answersOk_zero (answersOk_mono hok hpos))
  have hcfg : t.cfg = s.cfg := ht.frame.cfg
  rw [configThenTrigger, e, Res.bind_ok]
  cases hs : inStandby s with
  | false =>
    rw [triggerIfStandby_of_not (by rw [hcfg]; exact hs)]
    refine ⟨t, rfl, ht.frame, fun k => ?_, ?_, nofun⟩
    · rw [ht.env, Env.at_pop, readsBefore, hs]
      rfl
    · rw [ht.history, historyBefore, hs, if_neg Bool.false_ne_true, List.append_nil]
  | true =>
    have hok' : answersOk t 1 := answersOk_pop (by rwa [readsBefore, hs] at hok) ht.env
    obtain ⟨u, e', hu⟩ := memWrite_oneShot (s := t) (hcfg ▸ hwf) (hcfg ▸ hd) t.cfg.oneShotValue (answersOk_zero hok')
    rw [triggerIfStandby, if_pos (by rw [hcfg]; exact hs), e', Res.bind_ok]
    refine ⟨_, rfl, (ht.frame.trans hu.frame).trans (sleep_frame u _), fun k => ?_, ?_, fun _ => ?_⟩
    · rw [sleep_env, hu.env, Env.at_pop, ht.env, Env.at_pop, readsBefore, hs]
      rfl
    · rw [sleep, record_history, hu.history, ht.history, historyBefore, hs, hcfg, hu.frame.cfg, hcfg, hlit]
      simp [acceptedAs]
      rfl
    · rw [← hcfg]
      exact (hu.regs _).trans (if_pos rfl)

/-- The trigger's write fails: no sleep, and ONE_SHOT holds its old or its new byte. -/
theorem configThenTrigger_fails (hs : inStandby s = true) (hf : failsAfter s 1) :
    ∃ t, configThenTrigger s = .raise .busError (s.cfg.oneShot.setWidth 32) t ∧ BusFrame s t ∧
      t.history = s.history ++ [.read s.cfg.config (regAt s s.cfg.config),
        .write s.cfg.oneShot s.cfg.oneShotValue .failed] ∧
      (regAt t s.cfg.oneShot = regAt s s.cfg.oneShot ∨ regAt t s.cfg.oneShot = s.cfg.oneShotValue) := by
  obtain ⟨t, e, ht⟩ := memRead_config hwf hd (answersOk_zero hf.1)
  have hcfg : t.cfg = s.cfg := ht.frame.cfg
  obtain ⟨u, v, e', hu⟩ := memWrite_busError (s := t) (a := t.cfg.oneShot) t.cfg.oneShotValue
    (by rw [hcfg]; exact attr_rw hwf (by simp [rwNames])) (failsAfter_pop hf ht.env)
  refine ⟨u, ?_, ht.frame.trans hu.frame, ?_, ?_⟩
  · rw [configThenTrigger, e, Res.bind_ok, triggerIfStandby, if_pos (by rw [hcfg]; exact hs), e', Res.bind_raise, hcfg]
  · rw [hu.history, ht.history, hcfg, List.append_assoc]
    rfl
  · have hheld : regAt u s.cfg.oneShot = v := by
      rw [← hcfg]
      exact (hu.regs _).trans (if_pos rfl)
    have hv := hu.oldOrNew
    rw [ht.regAt, hcfg] at hv
    rw [hheld]
    exact hv.symm

end

/-! ## Decoding -/

/-- The reported word and code of a pair: a sentinel's code with a NaN, or the exact value (R141, R142). -/
def IsReading (hi lo : Byte) (word : Word32) (code : Byte) : Prop :=
  if hi = 0x7F#8 ∧ (lo = 0x00#8 ∨ lo = 0xE0#8) then
    code = (if lo = 0x00#8 then 0x01#8 else 0x02#8) ∧ isNaN word = true
  else code = 0x00#8 ∧ word = f32OfEighths (tempEighths hi lo)

/-- Decoding gives the pair's reading, and changes no register or event. -/
theorem readTemp_reports {s : State} (hlit : sourceLiterals s) (hi lo : Byte) :
    ∃ x t, readTemp hi lo s = .ok x t ∧ NoTransaction s t ∧ IsReading hi lo x.1 x.2 := by
  have hd := diodeStatus_source hlit hi lo
  by_cases hopen : hi = 0x7F#8 ∧ lo = 0x00#8
  · rw [if_pos hopen] at hd
    obtain ⟨rfl, rfl⟩ := hopen
    exact ⟨_, _, readTemp_sentinel hd nofun, ⟨rfl, rfl, rfl, rfl, rfl⟩, rfl, Env.nan_isNaN _⟩
  · rw [if_neg hopen] at hd
    by_cases hshort : hi = 0x7F#8 ∧ lo = 0xE0#8
    · rw [if_pos hshort] at hd
      obtain ⟨rfl, rfl⟩ := hshort
      exact ⟨_, _, readTemp_sentinel hd nofun, ⟨rfl, rfl, rfl, rfl, rfl⟩, rfl, Env.nan_isNaN _⟩
    · rw [if_neg hshort] at hd
      refine ⟨_, _, readTemp_ok hd, NoTransaction.refl s, ?_⟩
      rw [IsReading, if_neg (by tauto)]
      exact ⟨rfl, rfl⟩

/-! ## The pair's reads -/

/-- The result ports of a reading, with the raw bytes. -/
def extTempResults (raw : Byte × Byte) (word : Word32) (code : Byte) : Results :=
  { Results.zero with status := code, r32 := word, rbHi := raw.1, rbLo := raw.2 }

section
variable {s : State} (hwf : cfgWf s.cfg = true) (hd : namesDistinct s.cfg)
include hwf hd

/-- The second part, no read failing: the results are the reading of the drawn pair. -/
theorem readAndDecode_ok (hlit : sourceLiterals s) (hok : answersOk s 2) :
    ∃ r t, readAndDecode s = .ok r t ∧ (∀ a, regAt t a = regAt s a) ∧
      t.history = s.history ++ [.read (firstAddr s.cfg.extTemp) (drawnFirst s.env),
        .read (secondAddr s.cfg.extTemp) (drawnSecond s.cfg.extTemp s.env)] ∧
      (∃ word code, r = extTempResults (drawnPair s.cfg.extTemp s.env) word code ∧
        IsReading (drawnPair s.cfg.extTemp s.env).1 (drawnPair s.cfg.extTemp s.env).2 word code) := by
  obtain ⟨t, e, hfr, hm, hh⟩ := readPair_drawn (p := .extTemp) hwf hd nofun hok
  obtain ⟨x, u, e', ⟨hm', -, hh', -, -⟩, hx⟩ := readTemp_reports (s := t) (by rwa [sourceLiterals, hfr.cfg])
    (drawnPair s.cfg.extTemp s.env).1 (drawnPair s.cfg.extTemp s.env).2
  have hcfg : u.cfg = t.cfg := by
    have hkept := (busFrame_kept.readTemp (drawnPair s.cfg.extTemp s.env).1 (drawnPair s.cfg.extTemp s.env).2 t).cfg
    rwa [e'] at hkept
  refine ⟨_, u, ?_, regAt_congr (hcfg.trans hfr.cfg) (hm'.trans hm), hh'.trans hh, x.1, x.2, rfl, hx⟩
  rw [readAndDecode, e, Res.bind_ok]
  exact congrArg (Res.bind · _) e'

omit hd in
/-- The first read fails. -/
theorem readAndDecode_fails_first (hf : failsAfter s 0) :
    ∃ t, readAndDecode s = .raise .busError ((firstAddr s.cfg.extTemp).setWidth 32) t ∧ BusFrame s t ∧
      (∀ a, regAt t a = regAt s a) ∧ t.history = s.history ++ [.readFailed (firstAddr s.cfg.extTemp)] := by
  have h1 := (attr_roPair (s := s) (p := .extTemp) hwf nofun).1
  obtain ⟨t, e, ht⟩ := readPair_fails_first .extTemp (by rw [h1]; nofun) hf
  exact ⟨t, by rw [readAndDecode, e, Res.bind_raise]; rfl, ht.frame, regAt_congr ht.frame.cfg ht.mem, ht.history⟩

/-- The second read fails. -/
theorem readAndDecode_fails_second (hf : failsAfter s 1) :
    ∃ t, readAndDecode s = .raise .busError ((secondAddr s.cfg.extTemp).setWidth 32) t ∧ BusFrame s t ∧
      (∀ a, regAt t a = regAt s a) ∧ t.history = s.history ++
        [.read (firstAddr s.cfg.extTemp) (drawnFirst s.env), .readFailed (secondAddr s.cfg.extTemp)] := by
  obtain ⟨h1, h2⟩ := attr_roPair (s := s) (p := .extTemp) hwf nofun
  obtain ⟨t, e, hfr, hm, hh⟩ := readPair_fails_second .extTemp hd h1 h2 hf
  exact ⟨t, by rw [readAndDecode, e, Res.bind_raise]; rfl, hfr, regAt_congr hfr.cfg hm, hh⟩

end

/-! ## The operation -/

theorem exec_extTempRead_of_ok {s t u : State} {r : Results} (h : configThenTrigger (start s .extTempRead) = .ok () t)
    (h' : readAndDecode t = .ok r u) : exec .extTempRead s = .next (finish u r) :=
  exec_of_ok (by rw [opBody, extTempReadBody_eq, h, Res.bind_ok, h'])

theorem exec_extTempRead_of_raise {s t : State} {f : FaultCode} {x : Word32}
    (h : configThenTrigger (start s .extTempRead) = .raise f x t) : exec .extTempRead s = .next (takeFault t f x) :=
  exec_of_raise (by rw [opBody, extTempReadBody_eq, h, Res.bind_raise])

theorem exec_extTempRead_of_pair_raise {s t u : State} {f : FaultCode} {x : Word32}
    (h : configThenTrigger (start s .extTempRead) = .ok () t) (h' : readAndDecode t = .raise f x u) :
    exec .extTempRead s = .next (takeFault u f x) :=
  exec_of_raise (by rw [opBody, extTempReadBody_eq, h, Res.bind_ok, h'])

/-- The answers left after n transactions draw what the environment had n answers on. -/
theorem drawnFirst_shift {e f : Env} {n : Nat} (h : ∀ k, f.at k = e.at (k + n)) : drawnFirst f = (e.at n).byte := by
  rw [drawnFirst, h, Nat.zero_add]

theorem drawnSecond_shift {e f : Env} {n : Nat} (p : PairCfg) (h : ∀ k, f.at k = e.at (k + n)) :
    drawnSecond p f = if p.latching then (e.at n).second else (e.at (n + 1)).byte := by
  rw [drawnSecond, h, h, Nat.zero_add, Nat.add_comm]

theorem failsAfter_shift {s t : State} {n k : Nat} (h : ∀ j, t.env.at j = s.env.at (j + n))
    (hf : failsAfter s (n + k)) : failsAfter t k :=
  ⟨fun j hj => by rw [h]; exact hf.1 (j + n) (by omega), by rw [h, Nat.add_comm]; exact hf.2⟩

/-- Settles O53: the first part and then the second, or the fault of the transaction that fails. -/
theorem extTempReadSequence : Obligations.ExtTempReadSequence := by
  intro s hlit hwf hd standby n x y hi lo before failedAt
  have hfirst : answersOk s n → _ := configThenTrigger_ok (s := start s .extTempRead) hwf hd hlit
  refine ⟨fun hok => ?_, fun hf => ?_, fun hs hf => ?_, fun hf => ?_, fun hf => ?_⟩
  · obtain ⟨t, e, hfr, hat, hh, hshot⟩ := hfirst (answersOk_mono hok (by omega))
    have hcfg : t.cfg = s.cfg := hfr.cfg
    obtain ⟨r, u, e', hregs, hh', word, code, rfl, hreading⟩ := readAndDecode_ok (s := t) (hcfg ▸ hwf) (hcfg ▸ hd)
      (by rwa [sourceLiterals, hcfg]) (fun k hk => by rw [hat]; exact hok (k + n) (by omega))
    have hdrawn : drawnPair t.cfg.extTemp t.env = (hi, lo) := by
      rw [hcfg, drawnPair, drawnFirst_shift hat, drawnSecond_shift _ hat]
      rfl
    rw [hdrawn] at e' hreading
    rw [hcfg, drawnFirst_shift hat, drawnSecond_shift _ hat] at hh'
    refine ⟨_, exec_extTempRead_of_ok e e', rfl, hreading, ?_, fun hs => (hregs _).trans (hshot hs)⟩
    rw [finish_history, hh', hh]
    rfl
  · obtain ⟨t, e, ht⟩ := memRead_busError (s := start s .extTempRead) (a := s.cfg.config)
      (by rw [start_cfg, attr_rw hwf (by simp [rwNames])]; nofun) hf
    have hrun : configThenTrigger (start s .extTempRead) = .raise .busError (s.cfg.config.setWidth 32) t := by
      rw [configThenTrigger, start_cfg, e, Res.bind_raise]
    exact ⟨_, exec_extTempRead_of_raise hrun, ⟨rfl, congrArg (addFault · .busError) ht.frame.faults⟩, ht.history, ht.mem⟩
  · obtain ⟨t, e, hfr, hh, hheld⟩ := configThenTrigger_fails (s := start s .extTempRead) hwf hd hs hf
    exact ⟨_, exec_extTempRead_of_raise e, ⟨rfl, congrArg (addFault · .busError) hfr.faults⟩, hh, hheld⟩
  · obtain ⟨t, e, hfr, hat, hh, hshot⟩ := hfirst hf.1
    have hcfg : t.cfg = s.cfg := hfr.cfg
    obtain ⟨u, e', hfr', hregs, hh'⟩ := readAndDecode_fails_first (s := t) (hcfg ▸ hwf)
      (failsAfter_shift (k := 0) hat hf)
    rw [hcfg] at e' hh'
    refine ⟨_, exec_extTempRead_of_pair_raise e e',
      ⟨rfl, congrArg (addFault · .busError) (hfr.trans hfr').faults⟩, ?_, fun hs => (hregs _).trans (hshot hs)⟩
    rw [takeFault_history, hh', hh]
    rfl
  · obtain ⟨t, e, hfr, hat, hh, hshot⟩ := hfirst (answersOk_mono hf.1 (by omega))
    have hcfg : t.cfg = s.cfg := hfr.cfg
    obtain ⟨u, e', hfr', hregs, hh'⟩ := readAndDecode_fails_second (s := t) (hcfg ▸ hwf) (hcfg ▸ hd)
      (failsAfter_shift (k := 1) hat hf)
    rw [hcfg] at e' hh'
    rw [drawnFirst_shift hat] at hh'
    refine ⟨_, exec_extTempRead_of_pair_raise e e',
      ⟨rfl, congrArg (addFault · .busError) (hfr.trans hfr').faults⟩, ?_, fun hs => (hregs _).trans (hshot hs)⟩
    rw [takeFault_history, hh', hh]
    rfl

end Sys2Proof.Machine
end

section
/-! PROOF. RESET_DEFAULTS (R222) and VALIDATE after it (R225): the first write releases the table, the others store each
default once, and a failing one leaves what was written before it. -/

namespace Sys2Proof.Machine

/-! ## The list of defaults (R8, R28 item 5) -/

/-- `DEFAULTS` lists each RW address exactly once. -/
theorem defaults_count {c : Cfg} (h : cfgWf c = true) {a : Addr} (ha : attrOf c a = .rw) :
    (c.defaults.map Prod.fst).count a = 1 := by
  simp only [cfgWf, defaultsWf, Bool.and_eq_true, List.all_eq_true, Bool.or_eq_true, bne_iff_ne, beq_iff_eq] at h
  obtain ⟨⟨⟨⟨⟨⟨⟨-, hd⟩, -⟩, -⟩, -⟩, -⟩, -⟩, -⟩ := h
  have hmem : ∃ e ∈ c.attr, (a == e.1) = true := by
    rw [← List.lookup_isSome_iff, Option.isSome_iff_ne_none]
    intro hn
    rw [attrOf, hn] at ha
    cases ha
  obtain ⟨e, he, hea⟩ := hmem
  obtain rfl : a = e.1 := eq_of_beq hea
  exact (hd.1 e he).resolve_left (not_not_intro ha)

theorem defaults_nodup {c : Cfg} (h : cfgWf c = true) : (c.defaults.map Prod.fst).Nodup := by
  refine List.nodup_iff_count_le_one.2 fun a => ?_
  by_cases ha : a ∈ c.defaults.map Prod.fst
  · obtain ⟨e, he, rfl⟩ := List.mem_map.1 ha
    exact (defaults_count h (attr_default h he)).le
  · rw [List.count_eq_zero_of_not_mem ha]
    exact Nat.zero_le 1

/-- An RW address is listed with its default. -/
theorem mem_defaults {c : Cfg} (h : cfgWf c = true) {a : Addr} (ha : attrOf c a = .rw) :
    (a, defaultOf c a) ∈ c.defaults := by
  have hmem : a ∈ c.defaults.map Prod.fst := List.count_pos_iff.1 (by rw [defaults_count h ha]; decide)
  obtain ⟨e, he, rfl⟩ := List.mem_map.1 hmem
  obtain ⟨v, hv⟩ := Option.isSome_iff_exists.1 (List.lookup_isSome_iff.2 ⟨e, he, beq_self_eq_true _⟩)
  obtain ⟨pre, post, hlist, -⟩ := List.lookup_eq_some_iff.1 hv
  rw [defaultOf, hv, hlist]
  simp

/-- A listed byte is its address's default. -/
theorem defaultOf_listed {c : Cfg} (h : cfgWf c = true) {e : BitVec 8 × BitVec 8} (he : e ∈ c.defaults) :
    defaultOf c e.1 = e.2 :=
  congrArg Prod.snd (List.inj_on_of_nodup_map (defaults_nodup h) (mem_defaults h (attr_default h he)) he rfl)

/-! ## The writes of RESET_DEFAULTS -/

/-- FAN_CONFIG's default with the table released, the first byte written. -/
def releasedDefault (c : Cfg) : Byte := setBit (defaultOf c c.fanConfig) c.lutCtrlBit (!c.lutCtrlActive)

/-- The writes after the first. -/
def laterWrites (c : Cfg) : List (BitVec 8 × BitVec 8) := otherDefaults c ++ [(c.fanConfig, defaultOf c c.fanConfig)]

theorem resetWrites_eq (c : Cfg) : resetWrites c = (c.fanConfig, releasedDefault c) :: laterWrites c := rfl

theorem length_otherDefaults {c : Cfg} (h : cfgWf c = true) : (otherDefaults c).length + 1 = c.defaults.length := by
  have hfan : c.defaults.countP (fun e => e.1 == c.fanConfig) = 1 := by
    have hcount := defaults_count h (attr_fanConfig h)
    rwa [List.count_eq_countP, List.countP_map] at hcount
  have hsplit := List.length_eq_countP_add_countP (fun e => e.1 == c.fanConfig) (l := c.defaults)
  have hother : (otherDefaults c).length = c.defaults.countP (fun e => decide ¬(e.1 == c.fanConfig) = true) := by
    rw [List.countP_eq_length_filter, otherDefaults]
    simp only [bne, decide_not, Bool.decide_eq_true]
  omega

theorem otherDefaults_nodup {c : Cfg} (h : cfgWf c = true) : ((otherDefaults c).map Prod.fst).Nodup :=
  (defaults_nodup h).sublist (List.filter_sublist.map _)

theorem fanConfig_notMem_otherDefaults (c : Cfg) : c.fanConfig ∉ (otherDefaults c).map Prod.fst := by
  intro hmem
  obtain ⟨e, he, heq⟩ := List.mem_map.1 hmem
  exact absurd heq (by simpa using (List.mem_filter.1 he).2)

theorem laterWrites_nodup {c : Cfg} (h : cfgWf c = true) : ((laterWrites c).map Prod.fst).Nodup := by
  rw [laterWrites, List.map_append, List.map_singleton, List.nodup_append_comm]
  exact List.nodup_cons.2 ⟨fanConfig_notMem_otherDefaults c, otherDefaults_nodup h⟩

theorem laterWrites_rw {c : Cfg} (h : cfgWf c = true) {e : BitVec 8 × BitVec 8} (he : e ∈ laterWrites c) :
    attrOf c e.1 = .rw := by
  obtain he | he := List.mem_append.1 he
  · exact (otherDefaults_rw h he).1
  · rw [List.mem_singleton.1 he]
    exact attr_fanConfig h

/-- What is written before a later write is no FAN_CONFIG. -/
theorem laterWrites_take_ne {c : Cfg} (h : cfgWf c = true) {k : Nat} {d e : BitVec 8 × BitVec 8}
    (hk : (laterWrites c)[k]? = some d) (he : e ∈ (laterWrites c).take k) : e.1 ≠ c.fanConfig := by
  obtain ⟨hlt, -⟩ := List.getElem?_eq_some_iff.1 hk
  rw [laterWrites, List.length_append, List.length_singleton] at hlt
  rw [laterWrites, List.take_append_of_le_length (by omega)] at he
  exact (otherDefaults_rw h (List.mem_of_mem_take he)).2

/-- An RW register other than FAN_CONFIG is written its default. -/
theorem mem_otherDefaults {c : Cfg} (h : cfgWf c = true) {a : Addr} (ha : attrOf c a = .rw) (hne : a ≠ c.fanConfig) :
    (a, defaultOf c a) ∈ otherDefaults c :=
  List.mem_filter.2 ⟨mem_defaults h ha, by simpa using hne⟩

/-- The two bytes of the TACH_LIMIT pair are written one after the other, in `PAIR_ORDER` (R45(a); entry 26). -/
theorem tachLimit_adjacent {c : Cfg} (h : cfgWf c = true) (hd : namesDistinct c) : ∃ pre post,
    (resetWrites c).map Prod.fst = pre ++ [firstAddr c.tachLimit, secondAddr c.tachLimit] ++ post := by
  obtain ⟨pre, post, hlist⟩ := tachLimit_listed h
  have hne : ∀ a, a ∈ pairAddrs c.tachLimit → (a != c.fanConfig) = true := by
    intro a ha
    obtain rfl | rfl := mem_pairAddrs.1 ha
    all_goals exact bne_iff_ne.2 (storedRegs_ne hd (by simp)).2
  have hothers : (otherDefaults c).map Prod.fst = (c.defaults.map Prod.fst).filter (· != c.fanConfig) := by
    rw [List.filter_map, otherDefaults]
    rfl
  refine ⟨c.fanConfig :: pre.filter (· != c.fanConfig), post.filter (· != c.fanConfig) ++ [c.fanConfig], ?_⟩
  rw [resetWrites_eq, laterWrites, List.map_cons, List.map_append, hothers, hlist]
  simp [hne _ (show firstAddr c.tachLimit ∈ pairAddrs c.tachLimit by simp [pairAddrs]),
    hne _ (show secondAddr c.tachLimit ∈ pairAddrs c.tachLimit by simp [pairAddrs])]

/-! ## The run -/

section
variable {s : State} (hwf : cfgWf s.cfg = true) (hd : namesDistinct s.cfg)
include hwf hd

/-- The first write, not failing, is stored and releases the table. -/
theorem memWrite_releasedDefault (hf : (s.env.at 0).fails = false) :
    ∃ t, memWrite s s.cfg.fanConfig (releasedDefault s.cfg) = .ok () t ∧
      WroteTo s t s.cfg.fanConfig (releasedDefault s.cfg) ∧ lutGoverns t = false := by
  obtain ⟨t, e, ht⟩ := memWrite_ok (releasedDefault s.cfg) (attr_fanConfig hwf) hf
    (.inr ⟨otherNames_notLut hd (by simp [otherNames]), (fanRegs_ne hd).1⟩)
  exact ⟨t, e, ht, memWrite_releases _ (attr_fanConfig hwf) hd e⟩

/-- All the writes, none failing: every RW register holds its default. -/
theorem writeList_resetWrites_ok (hok : answersOk s (s.cfg.defaults.length + 1)) :
    ∃ t, writeList s (resetWrites s.cfg) = .ok () t ∧ BusFrame s t ∧
      (∀ a, attrOf s.cfg a = .rw → regAt t a = defaultOf s.cfg a) ∧
      (∀ k, t.env.at k = s.env.at (k + (s.cfg.defaults.length + 1))) ∧
      t.history = s.history ++ (resetWrites s.cfg).map fun e => .write e.1 e.2 (acceptedAs s.cfg e.1) := by
  have hlen := length_otherDefaults hwf
  obtain ⟨t, e, ht, hg⟩ := memWrite_releasedDefault hwf hd (answersOk_zero hok)
  have htc : t.cfg = s.cfg := ht.frame.cfg
  have hokt : answersOk t s.cfg.defaults.length := answersOk_pop hok ht.env
  obtain ⟨u, e', hu, hr, hat, hh⟩ := writeList_ok (otherDefaults s.cfg) t
    (fun d hdm => by rw [htc]; exact otherDefaults_rw hwf hdm) hg (answersOk_mono hokt (by omega))
  have huc : u.cfg = s.cfg := hu.cfg.trans htc
  have hgu : lutGoverns u = false := by
    rw [lutGoverns_congr hu.cfg (by rw [hr, htc, afterWrites_of_notMem _ _ _ (fanConfig_notMem_otherDefaults s.cfg)]), hg]
  have hfu : (u.env.at 0).fails = false := by
    rw [hat]
    exact hokt _ (by omega)
  obtain ⟨w, e'', hw⟩ := memWrite_ok (defaultOf s.cfg s.cfg.fanConfig) (by rw [huc]; exact attr_fanConfig hwf) hfu
    (.inl hgu)
  refine ⟨w, ?_, (ht.frame.trans hu).trans hw.frame, fun a ha => ?_, fun k => ?_, ?_⟩
  · rw [writeList_resetWrites, ← releasedDefault, e, Res.bind_ok, e', Res.bind_ok, writeList, e'', Res.bind_ok, writeList]
  · rw [hw.regs]
    by_cases hfan : s.cfg.fanConfig = a
    · rw [if_pos hfan, hfan]
    · rw [if_neg hfan, hr]
      exact afterWrites_of_mem _ _ (otherDefaults_nodup hwf) _ (mem_otherDefaults hwf ha (Ne.symm hfan))
  · rw [hw.env, Env.at_pop, hat, ht.env, Env.at_pop]
    congr 1
    omega
  · rw [hw.history, hh, ht.history, huc, htc, resetWrites_eq, laterWrites]
    simp

end

theorem exec_resetDefaults_of_writeList {s t : State}
    (h : writeList (start s .resetDefaults) (resetWrites s.cfg) = .ok () t) :
    exec .resetDefaults s = .next (finish t okNone) :=
  exec_of_ok (by rw [opBody, resetDefaultsBody, start_cfg, h, Res.bind_ok])

theorem exec_resetDefaults_of_raise {s t : State} {f : FaultCode} {x : Word32}
    (h : writeList (start s .resetDefaults) (resetWrites s.cfg) = .raise f x t) :
    exec .resetDefaults s = .next (takeFault t f x) :=
  exec_of_raise (by rw [opBody, resetDefaultsBody, start_cfg, h, Res.bind_raise])

/-- What the k-th write, failing, leaves: the writes before it stored, its own register old or new, nothing after it. -/
structure StoppedAt (s t : State) (k : Nat) (e : BitVec 8 × BitVec 8) : Prop where
  frame : BusFrame s t
  history : t.history = s.history ++
    ((resetWrites s.cfg).take k).map (fun e => .write e.1 e.2 (acceptedAs s.cfg e.1)) ++ [.write e.1 e.2 .failed]
  written : ∀ w, w ∈ (resetWrites s.cfg).take k → w.1 ≠ e.1 → regAt t w.1 = w.2
  kept : ∀ a, a ≠ e.1 → a ∉ ((resetWrites s.cfg).take k).map Prod.fst → regAt t a = regAt s a
  oldOrNew : regAt t e.1 = e.2 ∨
    regAt t e.1 = if e.1 = s.cfg.fanConfig ∧ 0 < k then releasedDefault s.cfg else regAt s e.1

section
variable {s : State} (hwf : cfgWf s.cfg = true) (hd : namesDistinct s.cfg)
include hwf hd

omit hd in
/-- The first write fails. -/
theorem resetWrites_fails_first (hf : failsAfter s 0) :
    ∃ t, writeList s (resetWrites s.cfg) = .raise .busError (s.cfg.fanConfig.setWidth 32) t ∧
      StoppedAt s t 0 (s.cfg.fanConfig, releasedDefault s.cfg) := by
  obtain ⟨t, u, e, ht⟩ := memWrite_busError (releasedDefault s.cfg) (attr_fanConfig hwf) hf
  have hheld : regAt t s.cfg.fanConfig = u := (ht.regs _).trans (if_pos rfl)
  refine ⟨t, ?_, ht.frame, ?_, nofun, fun a ha _ => (ht.regs a).trans (if_neg (Ne.symm ha)), ?_⟩
  · rw [resetWrites_eq, writeList, e, Res.bind_raise]
  · rw [ht.history, List.take_zero, List.map_nil, List.append_nil]
  · rw [hheld, if_neg (fun h => Nat.lt_irrefl 0 h.2)]
    exact ht.oldOrNew

/-- A later write fails. -/
theorem resetWrites_fails_later {k : Nat} {e : BitVec 8 × BitVec 8} (hk : (laterWrites s.cfg)[k]? = some e)
    (hf : failsAfter s (k + 1)) :
    ∃ t, writeList s (resetWrites s.cfg) = .raise .busError (e.1.setWidth 32) t ∧ StoppedAt s t (k + 1) e := by
  have hnodup := laterWrites_nodup hwf
  obtain ⟨t, e0, ht, hg⟩ := memWrite_releasedDefault hwf hd (answersOk_zero hf.1)
  have htc : t.cfg = s.cfg := ht.frame.cfg
  obtain ⟨u, v, e', hu, hv, hr, hh⟩ := writeList_fails (laterWrites s.cfg) t k e
    (fun d hdm => by rw [htc]; exact laterWrites_rw hwf hdm)
    (fun d hdm => by rw [htc]; exact laterWrites_take_ne hwf hk hdm) hg hk (failsAfter_pop hf ht.env)
  have htake : (resetWrites s.cfg).take (k + 1) =
      (s.cfg.fanConfig, releasedDefault s.cfg) :: (laterWrites s.cfg).take k := rfl
  have hothers : ∀ b, b ≠ e.1 → regAt u b = afterWrites ((laterWrites s.cfg).take k) (regAt t) b :=
    fun b hb => (hr b).trans (if_neg (Ne.symm hb))
  refine ⟨u, ?_, ht.frame.trans hu, ?_, fun w hw hne => ?_, fun a hne ha => ?_, ?_⟩
  · rw [resetWrites_eq, writeList, e0, Res.bind_ok, e']
  · rw [hh, ht.history, htake, htc]
    simp
  · rw [hothers _ hne]
    obtain rfl | hw := List.mem_cons.1 (htake ▸ hw)
    · rw [afterWrites_of_notMem _ _ _ fun hmem => ?_, ht.regs, if_pos rfl]
      obtain ⟨d, hdm, heq⟩ := List.mem_map.1 hmem
      exact laterWrites_take_ne hwf hk hdm heq
    · exact afterWrites_of_mem _ _ (hnodup.sublist ((List.take_sublist k _).map _)) w hw
  · rw [htake, List.map_cons, List.mem_cons, not_or] at ha
    rw [hothers _ hne, afterWrites_of_notMem _ _ _ ha.2, ht.regs, if_neg (Ne.symm ha.1)]
  · have hheld : regAt u e.1 = v := (hr e.1).trans (if_pos rfl)
    rw [afterWrites_take_of_le hnodup _ hk le_rfl, ht.regs] at hv
    rw [hheld]
    simpa [eq_comm] using hv

end

/-- Settles O58: all the writes in order, or the fault of the one that fails. -/
theorem resetDefaultsEstablishesDefaults : Obligations.ResetDefaultsEstablishesDefaults := by
  intro s hwf hd fan d' ws written
  refine ⟨fun hok => ?_, fun k e hk hf => ?_⟩
  · obtain ⟨t, e, hfr, hregs, -, hh⟩ := writeList_resetWrites_ok (s := start s .resetDefaults) hwf hd hok
    obtain ⟨hhi, hlo⟩ := tachLimit_default hwf
    refine ⟨_, exec_resetDefaults_of_writeList e, rfl, hfr.faults, hh, hregs, ?_, ?_, tachLimit_adjacent hwf hd⟩
    · exact (hregs _ (attr_rw hwf (by simp [rwNames]))).trans hhi
    · exact (hregs _ (attr_rw hwf (by simp [rwNames]))).trans hlo
  · obtain ⟨t, e', ht⟩ : ∃ t, writeList (start s .resetDefaults) (resetWrites s.cfg) =
        .raise .busError (e.1.setWidth 32) t ∧ StoppedAt (start s .resetDefaults) t k e := by
      cases k with
      | zero =>
        obtain rfl : (fan, d') = e := Option.some.inj hk
        exact resetWrites_fails_first (s := start s .resetDefaults) hwf hf
      | succ k => exact resetWrites_fails_later (s := start s .resetDefaults) hwf hd hk hf
    exact ⟨_, exec_resetDefaults_of_raise e', rfl, congrArg (addFault · .busError) ht.frame.faults, ht.history,
      ht.written, ht.kept, ht.oldOrNew⟩

/-! ## VALIDATE after RESET_DEFAULTS (R225) -/

/-- Settles O60: every listed register holds its default, so VALIDATE counts none. -/
theorem resetThenValidatePasses : Obligations.ResetThenValidatePasses := by
  intro s hwf hd hl hok
  obtain ⟨t, e, hfr, hregs, hat, -⟩ := writeList_resetWrites_ok (s := start s .resetDefaults) hwf hd
    (answersOk_mono hok (by rw [start_cfg]; omega))
  have hcfg : (finish t okNone).cfg = s.cfg := hfr.cfg
  have hlatch := LatchInv.writeList (resetWrites s.cfg) (hl.start .resetDefaults)
  rw [start_cfg] at e
  rw [e] at hlatch
  obtain ⟨hvalidate, -⟩ := validateCountsMismatches.2 (finish t okNone) (hcfg ▸ hwf) (LatchInv.congr hlatch rfl rfl rfl)
  obtain ⟨u, e', hresults, -⟩ := hvalidate fun k hk => by
    rw [hcfg] at hk
    rw [finish_env, hat, start_cfg]
    exact hok _ (by omega)
  refine ⟨_, u, exec_resetDefaults_of_writeList e, e', ?_⟩
  have hnone : (finish t okNone).cfg.defaults.countP (fun e => regAt (finish t okNone) e.1 != e.2) = 0 := by
    rw [hcfg]
    refine List.countP_eq_zero.2 fun e he => ?_
    have hheld : regAt (finish t okNone) e.1 = e.2 := (hregs e.1 (attr_default hwf he)).trans (defaultOf_listed hwf he)
    rw [hheld, bne_self_eq_false]
    exact Bool.false_ne_true
  rw [hresults, hnone]
  rfl

end Sys2Proof.Machine
end
